-- ==== Sys2Proof/Word.lean ====
section
/-! DEFINITION. The word types of the engine and nothing else (spec/00_scope.md R8, R9). -/

namespace Sys2Proof

/-- A byte, 0 to 255 (R9). -/
abbrev Byte := BitVec 8

/-- A byte sequence, first byte first (R9). -/
abbrev Bytes := List Byte

/-- A 32-bit register or bus word (10_state.md R24). -/
abbrev Word32 := BitVec 32

end Sys2Proof
end

