-- ==== Sys2Proof/Config.lean ====
section
/-! DEFINITION. What an implementation fixes (the parameters of spec/00_scope.md R7 and 92_eei_decisions.md P1 to P3)
and the free values. -/

namespace Sys2Proof

/-- The OPEN parameters a platform fixes (R7, P1, P2). A state carries them and no step changes them (log entry 3). -/
structure Config where
  /-- `MSG_MAX`, the size of the IN buffer in bytes. -/
  msgMax : Nat
  /-- `ENGINE_BASE`, where the window sits in the host's address space (20_memory.md R50). -/
  engineBase : Nat
  deriving DecidableEq, Repr

/-- The bounds the spec sets: `1 <= MSG_MAX <= 65472` (R7), `ENGINE_BASE` is 0x40000-aligned (R50). -/
abbrev Config.WF (c : Config) : Prop :=
  1 ≤ c.msgMax ∧ c.msgMax ≤ 65472 ∧ c.engineBase % 0x40000 = 0

/-- `MSG_MAX` at its default 4096 (R7); `ENGINE_BASE` 0 is a DESIGN CHOICE (log entry 3). -/
def Config.default : Config := { msgMax := 4096, engineBase := 0 }

/-- The internal stores a command uses while it runs (10_state.md R22, R36 to R38), at their largest sizes.
No host access reads or writes them (R39). -/
structure Stores where
  /-- `Kreg`, 80 or 128 bits (R36). -/
  kreg : BitVec 128
  /-- `RK[1..32]` (R36). -/
  rk : Vector (BitVec 64) 32
  /-- `S[0 .. t-1]`, at most 514 words of at most 128 bits (R37). -/
  sub : Vector (BitVec 128) 514
  /-- `L[0 .. c-1]`, at most 255 words (R37). -/
  keyWords : Vector (BitVec 128) 255
  /-- The key schedule's mixing register A (R37). -/
  mixA : BitVec 128
  /-- The key schedule's mixing register B (R37). -/
  mixB : BitVec 128
  /-- The chaining register `X`, at most 64 bytes (R38). -/
  chain : Vector Byte 64
  /-- The index of the current block (R22). -/
  blockIndex : Nat
  deriving DecidableEq, Repr, Inhabited

/-- The stores of the reset state: zeros, a DESIGN CHOICE where R290 says "unspecified" (log entry 5). -/
def Stores.zero : Stores where
  kreg := 0
  rk := Vector.replicate 32 0
  sub := Vector.replicate 514 0
  keyWords := Vector.replicate 255 0
  mixA := 0
  mixB := 0
  chain := Vector.replicate 64 0
  blockIndex := 0

/-- FREE VALUE: the byte `draw()` number `k` takes from ENTROPY in the command that completes as event number `serial`
(43_padding.md R184, P3). Nothing is known of any of them (log entry 4). -/
opaque Config.entropy : (serial k : Nat) → Byte

/-- FREE VALUE: what the internal stores hold after event number `serial` (10_state.md R39, R41: unspecified; 93 U5: any
value, never read; log entry 5). -/
opaque Config.unspecifiedStores : (serial : Nat) → Stores

end Sys2Proof
end

