-- ==== Sys2Proof/Syntax.lean ====
section
/-! DEFINITION. The command set (spec/30_encoding.md R70 to R84, opcode_table.json) and the names of its operands and
errors. -/

namespace Sys2Proof

/-- OP (R71). -/
inductive Op where
  | enc | dec
  deriving DecidableEq, Repr

/-- CIPHER (R72). -/
inductive Cipher where
  | a | b
  deriving DecidableEq, Repr

/-- MODE (R73). -/
inductive Mode where
  | ecb | cbc | cfb | ofb | ctr
  deriving DecidableEq, Repr

/-- The five padding schemes (R74, 43_padding.md). -/
inductive Padding where
  | no | pkcs5 | zero | random | bit
  deriving DecidableEq, Repr

/-- The PAD operand of an ECB or CBC command: a scheme, or one of the codes 0b101 to 0b111 (R74). -/
inductive PadField where
  | scheme (p : Padding)
  | unrecognized (code : BitVec 3)
  deriving DecidableEq, Repr

/-- The five word sizes of Cipher B (R75). -/
inductive WordSize where
  | w8 | w16 | w32 | w64 | w128
  deriving DecidableEq, Repr

/-- The WSEL operand of a Cipher B command: a word size, or one of the codes 0b101 to 0b111 (R75). -/
inductive WselField where
  | size (w : WordSize)
  | unsupported (code : BitVec 3)
  deriving DecidableEq, Repr

/-- The ten errors of a command (60_exceptions.md R261), in the order of their codes 1 to 10. -/
inductive CmdError where
  | invalidKeyLength | invalidIVLength | invalidCiphertextLength | unsupportedMode | unsupportedPadding
  | paddingVerificationFailure | noPaddingMismatch | illegalCommand | unsupportedWordSize | messageTooLong
  deriving DecidableEq, Repr

/-- The fourteen commands (R80), one constructor for each row of opcode_table.json, with the operands the row names.
Ignored bits (R79) are no operands. -/
inductive Instr where
  | aEncEcb (pad : PadField)
  | aEncCbc (pad : PadField)
  | aDecEcb (pad : PadField)
  | aDecCbc (pad : PadField)
  | bEncEcb (pad : PadField) (wsel : WselField) (rounds : BitVec 8)
  | bEncCbc (pad : PadField) (wsel : WselField) (rounds : BitVec 8)
  | bEncCfb (wsel : WselField) (rounds : BitVec 8)
  | bEncOfb (wsel : WselField) (rounds : BitVec 8)
  | bEncCtr (wsel : WselField) (rounds : BitVec 8)
  | bDecEcb (pad : PadField) (wsel : WselField) (rounds : BitVec 8)
  | bDecCbc (pad : PadField) (wsel : WselField) (rounds : BitVec 8)
  | bDecCfb (wsel : WselField) (rounds : BitVec 8)
  | bDecOfb (wsel : WselField) (rounds : BitVec 8)
  | bDecCtr (wsel : WselField) (rounds : BitVec 8)
  deriving DecidableEq, Repr

/-- The assembler's mnemonic of a command (R84). -/
def Instr.mnemonic : Instr → String
  | .aEncEcb _ => "A.ENC.ECB"
  | .aEncCbc _ => "A.ENC.CBC"
  | .aDecEcb _ => "A.DEC.ECB"
  | .aDecCbc _ => "A.DEC.CBC"
  | .bEncEcb _ _ _ => "B.ENC.ECB"
  | .bEncCbc _ _ _ => "B.ENC.CBC"
  | .bEncCfb _ _ => "B.ENC.CFB"
  | .bEncOfb _ _ => "B.ENC.OFB"
  | .bEncCtr _ _ => "B.ENC.CTR"
  | .bDecEcb _ _ _ => "B.DEC.ECB"
  | .bDecCbc _ _ _ => "B.DEC.CBC"
  | .bDecCfb _ _ => "B.DEC.CFB"
  | .bDecOfb _ _ => "B.DEC.OFB"
  | .bDecCtr _ _ => "B.DEC.CTR"

end Sys2Proof
end

