-- ==== Sys2Proof/WellFormed.lean ====
section
/-! DEFINITION. Which terms of `Instr` stand for a command word: an "unrecognized" or "unsupported" operand holds a
code that the spec leaves to it (spec/30_encoding.md R74, R75), so that every word has one term. -/

namespace Sys2Proof

/-- An unrecognized PAD code is 0b101 to 0b111 (R74). -/
def PadField.wf : PadField → Bool
  | .scheme _ => true
  | .unrecognized c => decide (5 ≤ c.toNat)

/-- An unsupported WSEL code is 0b101 to 0b111 (R75). -/
def WselField.wf : WselField → Bool
  | .size _ => true
  | .unsupported c => decide (5 ≤ c.toNat)

/-- A command is well formed when its operand fields are. Every ROUNDS value is legal (R76). -/
def Instr.wf : Instr → Bool
  | .aEncEcb p => p.wf
  | .aEncCbc p => p.wf
  | .aDecEcb p => p.wf
  | .aDecCbc p => p.wf
  | .bEncEcb p w _ => p.wf && w.wf
  | .bEncCbc p w _ => p.wf && w.wf
  | .bEncCfb w _ => w.wf
  | .bEncOfb w _ => w.wf
  | .bEncCtr w _ => w.wf
  | .bDecEcb p w _ => p.wf && w.wf
  | .bDecCbc p w _ => p.wf && w.wf
  | .bDecCfb w _ => w.wf
  | .bDecOfb w _ => w.wf
  | .bDecCtr w _ => w.wf

/-- The check as a decidable proposition. -/
abbrev Instr.WellFormed (i : Instr) : Prop := i.wf = true

end Sys2Proof
end

