-- ==== Sys2Proof/Decode.lean ====
section
/-! DEFINITION. The decoder (total, rejecting by name) and the encoder of the 32-bit command word
(spec/30_encoding.md R70 to R81, R83). -/

namespace Sys2Proof

/-! ## Fields (R70) -/

def fieldOp (w : Word32) : BitVec 2 := w.extractLsb' 0 2
def fieldCipher (w : Word32) : BitVec 1 := w.extractLsb' 2 1
def fieldMode (w : Word32) : BitVec 3 := w.extractLsb' 3 3
def fieldPad (w : Word32) : BitVec 3 := w.extractLsb' 6 3
def fieldWsel (w : Word32) : BitVec 3 := w.extractLsb' 9 3
def fieldRes0 (w : Word32) : BitVec 4 := w.extractLsb' 12 4
def fieldRounds (w : Word32) : BitVec 8 := w.extractLsb' 16 8
def fieldRes1 (w : Word32) : BitVec 8 := w.extractLsb' 24 8

/-! ## Codes (R71 to R75) -/

/-- 0b01 = ENC, 0b10 = DEC; 0b00 and 0b11 select no operation (R71). -/
def opOfCode (c : BitVec 2) : Option Op :=
  if c = 1 then some .enc else if c = 2 then some .dec else none

def Op.code : Op → BitVec 2
  | .enc => 1
  | .dec => 2

/-- 0 = Cipher A, 1 = Cipher B (R72). -/
def cipherOfCode (c : BitVec 1) : Cipher := if c = 0 then .a else .b

def Cipher.code : Cipher → BitVec 1
  | .a => 0
  | .b => 1

/-- 0b000 to 0b100; the codes 0b101 to 0b111 are unrecognized (R73). -/
def modeOfCode (c : BitVec 3) : Option Mode :=
  if c = 0 then some .ecb
  else if c = 1 then some .cbc
  else if c = 2 then some .cfb
  else if c = 3 then some .ofb
  else if c = 4 then some .ctr
  else none

def Mode.code : Mode → BitVec 3
  | .ecb => 0
  | .cbc => 1
  | .cfb => 2
  | .ofb => 3
  | .ctr => 4

/-- The PAD field of an ECB or CBC command (R74). -/
def padOfCode (c : BitVec 3) : PadField :=
  if c = 0 then .scheme .no
  else if c = 1 then .scheme .pkcs5
  else if c = 2 then .scheme .zero
  else if c = 3 then .scheme .random
  else if c = 4 then .scheme .bit
  else .unrecognized c

def Padding.code : Padding → BitVec 3
  | .no => 0
  | .pkcs5 => 1
  | .zero => 2
  | .random => 3
  | .bit => 4

def PadField.code : PadField → BitVec 3
  | .scheme p => p.code
  | .unrecognized c => c

/-- The WSEL field of a Cipher B command (R75). -/
def wselOfCode (c : BitVec 3) : WselField :=
  if c = 0 then .size .w8
  else if c = 1 then .size .w16
  else if c = 2 then .size .w32
  else if c = 3 then .size .w64
  else if c = 4 then .size .w128
  else .unsupported c

def WordSize.code : WordSize → BitVec 3
  | .w8 => 0
  | .w16 => 1
  | .w32 => 2
  | .w64 => 3
  | .w128 => 4

def WselField.code : WselField → BitVec 3
  | .size w => w.code
  | .unsupported c => c

/-! ## The decoder -/

/-- The command of a word whose OP and reserved bits are legal. Cipher A has ECB and CBC only (R73). -/
def decodeRow (o : Op) (c : Cipher) (m : Mode) (w : Word32) : Except CmdError Instr :=
  match c, o, m with
  | .a, .enc, .ecb => .ok (.aEncEcb (padOfCode (fieldPad w)))
  | .a, .enc, .cbc => .ok (.aEncCbc (padOfCode (fieldPad w)))
  | .a, .dec, .ecb => .ok (.aDecEcb (padOfCode (fieldPad w)))
  | .a, .dec, .cbc => .ok (.aDecCbc (padOfCode (fieldPad w)))
  | .a, _, .cfb => .error .unsupportedMode
  | .a, _, .ofb => .error .unsupportedMode
  | .a, _, .ctr => .error .unsupportedMode
  | .b, .enc, .ecb => .ok (.bEncEcb (padOfCode (fieldPad w)) (wselOfCode (fieldWsel w)) (fieldRounds w))
  | .b, .enc, .cbc => .ok (.bEncCbc (padOfCode (fieldPad w)) (wselOfCode (fieldWsel w)) (fieldRounds w))
  | .b, .enc, .cfb => .ok (.bEncCfb (wselOfCode (fieldWsel w)) (fieldRounds w))
  | .b, .enc, .ofb => .ok (.bEncOfb (wselOfCode (fieldWsel w)) (fieldRounds w))
  | .b, .enc, .ctr => .ok (.bEncCtr (wselOfCode (fieldWsel w)) (fieldRounds w))
  | .b, .dec, .ecb => .ok (.bDecEcb (padOfCode (fieldPad w)) (wselOfCode (fieldWsel w)) (fieldRounds w))
  | .b, .dec, .cbc => .ok (.bDecCbc (padOfCode (fieldPad w)) (wselOfCode (fieldWsel w)) (fieldRounds w))
  | .b, .dec, .cfb => .ok (.bDecCfb (wselOfCode (fieldWsel w)) (fieldRounds w))
  | .b, .dec, .ofb => .ok (.bDecOfb (wselOfCode (fieldWsel w)) (fieldRounds w))
  | .b, .dec, .ctr => .ok (.bDecCtr (wselOfCode (fieldWsel w)) (fieldRounds w))

/-- Every 32-bit word gives a command or the error it completes with (R81 classes 1 and 2, in that order;
60_exceptions.md R271 steps 1 and 2). -/
def decode (w : Word32) : Except CmdError Instr :=
  match opOfCode (fieldOp w) with
  | none => .error .illegalCommand
  | some o =>
    if fieldRes0 w ≠ 0 ∨ fieldRes1 w ≠ 0 then .error .illegalCommand
    else
      match modeOfCode (fieldMode w) with
      | none => .error .unsupportedMode
      | some m => decodeRow o (cipherOfCode (fieldCipher w)) m w

/-- Why a byte sequence holds no command: it is shorter than one word (R83), or its word is an error. -/
inductive Reject where
  | truncated
  | word (e : CmdError)
  deriving DecidableEq, Repr

/-- A command is exactly one 32-bit word (R83), its bytes in the bus's order (20_memory.md R51). Total on any bytes;
the rest of the bytes is handed back. -/
def decodeBytes : Bytes → Except Reject (Instr × Bytes)
  | b0 :: b1 :: b2 :: b3 :: rest =>
    match decode (b3 ++ b2 ++ b1 ++ b0) with
    | .ok i => .ok (i, rest)
    | .error e => .error (.word e)
  | [] => .error .truncated
  | [_] => .error .truncated
  | [_, _] => .error .truncated
  | [_, _, _] => .error .truncated

/-! ## The encoder -/

/-- The word of the fields, bit 31 first: `RRRRRRRR nnnnnnnn RRRR www ppp mmm c oo` (R70), reserved fields 0. -/
def packWord (o : Op) (c : Cipher) (m : Mode) (pad wsel : BitVec 3) (rounds : BitVec 8) : Word32 :=
  (0 : BitVec 8) ++ rounds ++ (0 : BitVec 4) ++ wsel ++ pad ++ m.code ++ c.code ++ o.code

/-- The word a command assembles to; ignored fields are 0 (R84). -/
def encode : Instr → Word32
  | .aEncEcb p => packWord .enc .a .ecb p.code 0 0
  | .aEncCbc p => packWord .enc .a .cbc p.code 0 0
  | .aDecEcb p => packWord .dec .a .ecb p.code 0 0
  | .aDecCbc p => packWord .dec .a .cbc p.code 0 0
  | .bEncEcb p w r => packWord .enc .b .ecb p.code w.code r
  | .bEncCbc p w r => packWord .enc .b .cbc p.code w.code r
  | .bEncCfb w r => packWord .enc .b .cfb 0 w.code r
  | .bEncOfb w r => packWord .enc .b .ofb 0 w.code r
  | .bEncCtr w r => packWord .enc .b .ctr 0 w.code r
  | .bDecEcb p w r => packWord .dec .b .ecb p.code w.code r
  | .bDecCbc p w r => packWord .dec .b .cbc p.code w.code r
  | .bDecCfb w r => packWord .dec .b .cfb 0 w.code r
  | .bDecOfb w r => packWord .dec .b .ofb 0 w.code r
  | .bDecCtr w r => packWord .dec .b .ctr 0 w.code r

/-! ## The opcode table's numbering -/

/-- The command word of an instruction whose `nbits` bits are `w`, every bit above them 0. -/
def tableWord (nbits w : Nat) : Word32 := BitVec.ofNat 32 (w % 2 ^ nbits)

/-- A word's four bytes as the bus stores them, lowest first (20_memory.md R51). -/
def wordBytes (w : Word32) : Bytes :=
  [w.extractLsb' 0 8, w.extractLsb' 8 8, w.extractLsb' 16 8, w.extractLsb' 24 8]

/-- What the decoder reads from an instruction numbered as opcode_table.json numbers it. -/
def decodeTableWord (nbits w : Nat) : Option Instr :=
  match decodeBytes (wordBytes (tableWord nbits w)) with
  | .ok (i, _) => some i
  | .error _ => none

end Sys2Proof
end

