-- ==== Sys2Proof/Machine/WordArith.lean ====
section
/-! DEFINITION. The word arithmetic unit (spec/40_word_arith.md R100 to R111) and byte sequences (00_scope.md R9).
Every function is total, pure and unsigned. Addition, subtraction, multiplication, xor, and, or of w-bit words (R106,
R107) are those of `BitVec w`. -/

namespace Sys2Proof.Machine

/-- `zeros(n)` (00_scope.md R9). -/
def zeros (n : Nat) : Bytes := List.replicate n 0

/-- `rep(x, n)` (00_scope.md R9). -/
def rep (x : Byte) (n : Nat) : Bytes := List.replicate n x

/-- `s xor t` of two sequences of equal length (00_scope.md R9). -/
def xorBytes (s t : Bytes) : Bytes := List.zipWith (· ^^^ ·) s t

/-- `mask(w)`, the low `w` bits set (R100). -/
def mask (w : Nat) : Nat := 2 ^ w - 1

/-- `lg(w) = floor(log2 w)` (R101). -/
def lg (w : Nat) : Nat := Nat.log2 w

/-- The amount Cipher B rotates a w-bit word by (R102). -/
def ramt (n w : Nat) : Nat := (n &&& mask (lg w)) % w

/-- The rotation left by `k` places, `k < w`, that R103 to R105 share. -/
def rotlBy {w : Nat} (x : BitVec w) (k : Nat) : BitVec w :=
  if k = 0 then x else (x <<< k) ||| (x >>> (w - k))

/-- The rotation right by `k` places, `k < w` (R104). -/
def rotrBy {w : Nat} (x : BitVec w) (k : Nat) : BitVec w :=
  if k = 0 then x else (x >>> k) ||| (x <<< (w - k))

/-- `rotl(x, n, w)` (R103). -/
def rotl {w : Nat} (x : BitVec w) (n : Nat) : BitVec w := rotlBy x (ramt n w)

/-- `rotr(x, n, w)` (R104). -/
def rotr {w : Nat} (x : BitVec w) (n : Nat) : BitVec w := rotrBy x (ramt n w)

/-- `rotlK(x, n, W)`, whose amount is reduced modulo W only (R105). -/
def rotlK {W : Nat} (x : BitVec W) (n : Nat) : BitVec W := rotlBy x (n % W)

/-- `bytesToWordBE(s)`: `s[0]` is the most significant byte (R108). -/
def bytesToWordBE (s : Bytes) : Nat := s.foldl (fun acc b => acc * 256 + b.toNat) 0

/-- `wordToBytesBE(x, n)` (R109). -/
def wordToBytesBE (x n : Nat) : Bytes :=
  (List.range n).map fun i => BitVec.ofNat 8 (x >>> (8 * (n - 1 - i)))

/-- `bytesToWordLE(s)`: `s[0]` is the least significant byte (R110). -/
def bytesToWordLE : Bytes → Nat
  | [] => 0
  | b :: s => b.toNat + 256 * bytesToWordLE s

/-- `wordToBytesLE(x, n)` (R111). -/
def wordToBytesLE (x n : Nat) : Bytes :=
  (List.range n).map fun i => BitVec.ofNat 8 (x >>> (8 * i))

/-- The union of the words `f 0 .. f (n-1)`: the sums of 41_cipher_a.md R123 to R125, whose terms share no bit. -/
def orFold {w : Nat} (n : Nat) (f : Nat → BitVec w) : BitVec w :=
  (List.range n).foldl (fun acc i => acc ||| f i) 0

/-- The word whose only set bit, if `b`, is bit `i`. -/
def bitAt {w : Nat} (b : Bool) (i : Nat) : BitVec w := (BitVec.ofBool b).setWidth w <<< i

end Sys2Proof.Machine
end

