-- ==== Sys2Proof/Machine/CipherA.lean ====
section
/-! DEFINITION. Cipher A, the SP-network engine and its key schedule generator (spec/41_cipher_a.md R120 to R132). -/

namespace Sys2Proof.Machine

/-! ## Block load and store -/

/-- A block's 64-bit state, big-endian (R120). -/
def loadA (block : Bytes) : BitVec 64 := BitVec.ofNat 64 (bytesToWordBE block)

/-- The state stored back (R120). -/
def storeA (s : BitVec 64) : Bytes := wordToBytesBE s.toNat 8

/-! ## Substitution layer -/

/-- The S-box (R121). -/
def sboxA (x : BitVec 4) : BitVec 4 :=
  ([0xC, 0x5, 0x6, 0xB, 0x9, 0x0, 0xA, 0xD, 0x3, 0xE, 0xF, 0x8, 0x4, 0x7, 0x1, 0x2] : List (BitVec 4)).getD x.toNat 0

/-- The inverse S-box (R122). -/
def sboxAInv (y : BitVec 4) : BitVec 4 :=
  ([0x5, 0xE, 0xF, 0x8, 0xC, 0x1, 0x2, 0xD, 0xB, 0x4, 0x6, 0x3, 0x0, 0x7, 0x9, 0xA] : List (BitVec 4)).getD y.toNat 0

/-- Nibble `i` of a state (R120). -/
def nibble (s : BitVec 64) (i : Nat) : BitVec 4 := s.extractLsb' (4 * i) 4

/-- A 4-bit function applied to each of the 16 nibbles (R123). -/
def onNibbles (f : BitVec 4 → BitVec 4) (s : BitVec 64) : BitVec 64 :=
  orFold 16 fun i => (f (nibble s i)).setWidth 64 <<< (4 * i)

/-- `sLayer` (R123). -/
def sLayer (s : BitVec 64) : BitVec 64 := onNibbles sboxA s

/-- `sLayerInv` (R123). -/
def sLayerInv (s : BitVec 64) : BitVec 64 := onNibbles sboxAInv s

/-! ## Permutation layer -/

/-- `P(i)` (R124). -/
def permA (i : Nat) : Nat := if i = 63 then 63 else (16 * i) % 63

/-- `pLayer`: bit `i` moves to bit `P(i)` (R124). -/
def pLayer (s : BitVec 64) : BitVec 64 := orFold 64 fun i => bitAt (s.getLsbD i) (permA i)

/-- `pLayerInv`: bit `P(i)` moves back to bit `i` (R125). -/
def pLayerInv (s : BitVec 64) : BitVec 64 := orFold 64 fun i => bitAt (s.getLsbD (permA i)) i

/-! ## Key schedule generator -/

/-- The 80-bit key register update (R127). -/
def upd80 (k : BitVec 80) (rc : Nat) : BitVec 80 :=
  let k1 := rotlK k 61
  let k2 : BitVec 80 := sboxA (k1.extractLsb' 76 4) ++ k1.extractLsb' 0 76
  k2 ^^^ ((BitVec.ofNat 5 rc).setWidth 80 <<< 15)

/-- The 128-bit key register update (R128). -/
def upd128 (k : BitVec 128) (rc : Nat) : BitVec 128 :=
  let k1 := rotlK k 61
  let k2 : BitVec 128 := sboxA (k1.extractLsb' 124 4) ++ sboxA (k1.extractLsb' 120 4) ++ k1.extractLsb' 0 120
  k2 ^^^ ((BitVec.ofNat 5 rc).setWidth 128 <<< 62)

/-- `n` round keys from counter `i` on: emit the top 64 bits, then update (R129). The update after the last emission
reaches no round key. -/
def roundKeysFrom {W : Nat} (upd : BitVec W → Nat → BitVec W) : (n i : Nat) → BitVec W → List (BitVec 64)
  | 0, _, _ => []
  | n + 1, i, k => k.extractLsb' (W - 64) 64 :: roundKeysFrom upd n (i + 1) (upd k i)

/-- The 32 round keys `RK[1..32]` (R126, R129): a 16-byte key selects the 128-bit schedule, a 10-byte key the 80-bit
one. `Validate` admits no other length (60_exceptions.md R264). -/
def scheduleA (key : Bytes) : List (BitVec 64) :=
  if key.length = 16 then roundKeysFrom upd128 32 1 (BitVec.ofNat 128 (bytesToWordBE key))
  else roundKeysFrom upd80 32 1 (BitVec.ofNat 80 (bytesToWordBE key))

/-! ## Round transform -/

/-- One encryption round: `addRoundKey` (R130), `sLayer`, `pLayer` (R131). -/
def roundA (s rk : BitVec 64) : BitVec 64 := pLayer (sLayer (s ^^^ rk))

/-- One decryption round (R132). -/
def roundAInv (s rk : BitVec 64) : BitVec 64 := sLayerInv (pLayerInv s) ^^^ rk

/-- `EA(block)` with round keys `rk` (R131). -/
def encA (rk : List (BitVec 64)) (block : Bytes) : Bytes :=
  storeA ((rk.take 31).foldl roundA (loadA block) ^^^ rk.getD 31 0)

/-- `DA(block)` with round keys `rk` (R132). -/
def decA (rk : List (BitVec 64)) (block : Bytes) : Bytes :=
  storeA ((rk.take 31).reverse.foldl roundAInv (loadA block ^^^ rk.getD 31 0))

end Sys2Proof.Machine
end

