-- ==== Sys2Proof/Machine/CipherB.lean ====
section
/-! DEFINITION. Cipher B, the Feistel-like engine and its subkey sequencer (spec/42_cipher_b.md R150 to R159), for a
word size of `w` bits and `r` rounds. -/

namespace Sys2Proof.Machine

/-! ## Block load and store -/

/-- The four w-bit registers of a block (R151). -/
structure RegsB (w : Nat) where
  a : BitVec w
  b : BitVec w
  c : BitVec w
  d : BitVec w
  deriving DecidableEq, Repr

/-- A word of `w` bits from `w/8` bytes, little-endian (40_word_arith.md R110). -/
def wordLE (w : Nat) (s : Bytes) : BitVec w := BitVec.ofNat w (bytesToWordLE s)

/-- Load a block (R151). -/
def loadB (w : Nat) (block : Bytes) : RegsB w :=
  let u := w / 8
  { a := wordLE w (block.take u)
    b := wordLE w ((block.drop u).take u)
    c := wordLE w ((block.drop (2 * u)).take u)
    d := wordLE w ((block.drop (3 * u)).take u) }

/-- Store a block (R151). -/
def storeB {w : Nat} (x : RegsB w) : Bytes :=
  let u := w / 8
  wordToBytesLE x.a.toNat u ++ wordToBytesLE x.b.toNat u ++ wordToBytesLE x.c.toNat u ++ wordToBytesLE x.d.toNat u

/-! ## Constants -/

/-- `PM` (R152). -/
def masterP : Nat := 0xB7E151628AED2A6ABF7158809CF4F3C762E7160F38B4DA56A784D9045190CFEF

/-- `QM` (R152). -/
def masterQ : Nat := 0x9E3779B97F4A7C15F39CC0605CEDC8341082276BF3A27251F86C6A11D0C18E95

/-- `P_w` (R153). -/
def constP (w : Nat) : BitVec w := BitVec.ofNat w ((masterP >>> (256 - w)) ||| 1)

/-- `Q_w` (R153). -/
def constQ (w : Nat) : BitVec w := BitVec.ofNat w ((masterQ >>> (256 - w)) ||| 1)

/-! ## Subkey sequencer -/

/-- The number of key words, `c = max(ceil(b/u), 1)` (R154). -/
def keyWordCount (w b : Nat) : Nat := max ((b + (w / 8 - 1)) / (w / 8)) 1

/-- `L[0 .. c-1]`: the zero-padded key's words (R154, R155). -/
def keyWordsB (w : Nat) (key : Bytes) : List (BitVec w) :=
  let u := w / 8
  let c := keyWordCount w key.length
  let kp := key ++ zeros (c * u - key.length)
  (List.range c).map fun k => wordLE w ((kp.drop (k * u)).take u)

/-- `S[0 .. t-1]` before mixing (R156), `n` words from `x` on. -/
def arithFrom {w : Nat} : (n : Nat) → BitVec w → List (BitVec w)
  | 0, _ => []
  | n + 1, x => x :: arithFrom n (x + constQ w)

/-- What the mixing loop holds: `S`, `L`, the mixing registers A and B, the indices i and j (R157). -/
structure MixB (w : Nat) where
  s : List (BitVec w)
  l : List (BitVec w)
  a : BitVec w
  b : BitVec w
  i : Nat
  j : Nat

/-- One iteration of the mixing loop (R157). The B update uses the A just computed. -/
def mixStep {w : Nat} (m : MixB w) : MixB w :=
  let a := rotl (m.s.getD m.i 0 + m.a + m.b) 3
  let b := rotl (m.l.getD m.j 0 + a + m.b) (a + m.b).toNat
  { s := m.s.set m.i a
    l := m.l.set m.j b
    a := a
    b := b
    i := (m.i + 1) % m.s.length
    j := (m.j + 1) % m.l.length }

/-- `n` iterations of the mixing loop. -/
def mixMany {w : Nat} : Nat → MixB w → MixB w
  | 0, m => m
  | n + 1, m => mixMany n (mixStep m)

/-- The number of subkeys, `t = 2r + 4` (R150). -/
def subkeyCount (r : Nat) : Nat := 2 * r + 4

/-- The schedule `S[0 .. t-1]` (R154 to R157). -/
def scheduleB (w r : Nat) (key : Bytes) : List (BitVec w) :=
  let l := keyWordsB w key
  let t := subkeyCount r
  (mixMany (3 * max l.length t) { s := arithFrom t (constP w), l := l, a := 0, b := 0, i := 0, j := 0 }).s

/-! ## Round transform -/

/-- `rotl(x * (2x + 1), lg w, w)`, the round's `tt` and `uu` (R158). -/
def quadB {w : Nat} (x : BitVec w) : BitVec w := rotl (x * (2 * x + 1)) (lg w)

/-- Encryption round `i` (R158). -/
def roundB {w : Nat} (s : List (BitVec w)) (x : RegsB w) (i : Nat) : RegsB w :=
  let tt := quadB x.b
  let uu := quadB x.d
  let a := rotl (x.a ^^^ tt) uu.toNat + s.getD (2 * i) 0
  let c := rotl (x.c ^^^ uu) tt.toNat + s.getD (2 * i + 1) 0
  { a := x.b, b := c, c := x.d, d := a }

/-- Decryption round `i` (R159). -/
def roundBInv {w : Nat} (s : List (BitVec w)) (y : RegsB w) (i : Nat) : RegsB w :=
  let x : RegsB w := { a := y.d, b := y.a, c := y.b, d := y.c }
  let uu := quadB x.d
  let tt := quadB x.b
  let c := rotr (x.c - s.getD (2 * i + 1) 0) tt.toNat ^^^ uu
  let a := rotr (x.a - s.getD (2 * i) 0) uu.toNat ^^^ tt
  { a := a, b := x.b, c := c, d := x.d }

/-- The round indices `1, 2, ..., r` (R158). -/
def roundIndices (r : Nat) : List Nat := (List.range r).map (· + 1)

/-- Encryption of the four registers (R158). -/
def encRegsB {w : Nat} (r : Nat) (s : List (BitVec w)) (x : RegsB w) : RegsB w :=
  let y := (roundIndices r).foldl (roundB s) { x with b := x.b + s.getD 0 0, d := x.d + s.getD 1 0 }
  { y with a := y.a + s.getD (2 * r + 2) 0, c := y.c + s.getD (2 * r + 3) 0 }

/-- Decryption of the four registers (R159). -/
def decRegsB {w : Nat} (r : Nat) (s : List (BitVec w)) (y : RegsB w) : RegsB w :=
  let x := (roundIndices r).reverse.foldl (roundBInv s)
    { y with a := y.a - s.getD (2 * r + 2) 0, c := y.c - s.getD (2 * r + 3) 0 }
  { x with b := x.b - s.getD 0 0, d := x.d - s.getD 1 0 }

/-- `EB(block)` with schedule `s` (R158). -/
def encB {w : Nat} (r : Nat) (s : List (BitVec w)) (block : Bytes) : Bytes := storeB (encRegsB r s (loadB w block))

/-- `DB(block)` with schedule `s` (R159). -/
def decB {w : Nat} (r : Nat) (s : List (BitVec w)) (block : Bytes) : Bytes := storeB (decRegsB r s (loadB w block))

end Sys2Proof.Machine
end

