-- ==== Sys2Proof/Machine/Modes.lean ====
section
/-! DEFINITION. The mode-of-operation controller (spec/44_modes.md R200 to R214). `E` and `D` are the block functions of
the command's cipher. Each chaining mode walks the blocks in input order with the chaining register `X` (R213). -/

namespace Sys2Proof.Machine

/-- The `n` blocks of `bs` bytes of a sequence (R201). -/
def blocksOf (bs : Nat) : (n : Nat) → Bytes → List Bytes
  | 0, _ => []
  | n + 1, data => data.take bs :: blocksOf bs n (data.drop bs)

/-- The whole blocks of a sequence (R201). -/
def blocks (bs : Nat) (data : Bytes) : List Bytes := blocksOf bs (data.length / bs) data

/-- CBC encrypt (R204). -/
def cbcEnc (E : Bytes → Bytes) : (X : Bytes) → List Bytes → Bytes
  | _, [] => []
  | X, P :: rest =>
    let O := E (xorBytes P X)
    O ++ cbcEnc E O rest

/-- CBC decrypt (R205). -/
def cbcDec (D : Bytes → Bytes) : (X : Bytes) → List Bytes → Bytes
  | _, [] => []
  | X, P :: rest => xorBytes (D P) X ++ cbcDec D P rest

/-- CFB encrypt, full-block feedback (R206). -/
def cfbEnc (E : Bytes → Bytes) : (X : Bytes) → List Bytes → Bytes
  | _, [] => []
  | X, P :: rest =>
    let O := xorBytes (E X) P
    O ++ cfbEnc E O rest

/-- CFB decrypt, with `E`, not `D` (R207). -/
def cfbDec (E : Bytes → Bytes) : (X : Bytes) → List Bytes → Bytes
  | _, [] => []
  | X, P :: rest => xorBytes (E X) P ++ cfbDec E P rest

/-- OFB, both ways (R208). -/
def ofb (E : Bytes → Bytes) : (X : Bytes) → List Bytes → Bytes
  | _, [] => []
  | X, P :: rest =>
    let X' := E X
    xorBytes X' P ++ ofb E X' rest

/-- `inc(X)`, little-endian with carry, wrapping (R210). -/
def incBlock : Bytes → Bytes
  | [] => []
  | b :: s => if b + 1 ≠ 0 then (b + 1) :: s else 0 :: incBlock s

/-- CTR, both ways (R209). -/
def ctrMode (E : Bytes → Bytes) : (X : Bytes) → List Bytes → Bytes
  | _, [] => []
  | X, P :: rest => xorBytes (E X) P ++ ctrMode E (incBlock X) rest

/-- `ModeEnc(mode, data, iv)` (R202, R204, R206, R208, R209). -/
def modeEnc (mode : Mode) (E : Bytes → Bytes) (bs : Nat) (data iv : Bytes) : Bytes :=
  match mode with
  | .ecb => (blocks bs data).flatMap E
  | .cbc => cbcEnc E iv (blocks bs data)
  | .cfb => cfbEnc E iv (blocks bs data)
  | .ofb => ofb E iv (blocks bs data)
  | .ctr => ctrMode E iv (blocks bs data)

/-- `ModeDec(mode, data, iv)` (R203, R205, R207 to R209). Only ECB and CBC call `D`. -/
def modeDec (mode : Mode) (E D : Bytes → Bytes) (bs : Nat) (data iv : Bytes) : Bytes :=
  match mode with
  | .ecb => (blocks bs data).flatMap D
  | .cbc => cbcDec D iv (blocks bs data)
  | .cfb => cfbDec E iv (blocks bs data)
  | .ofb => ofb E iv (blocks bs data)
  | .ctr => ctrMode E iv (blocks bs data)

/-- A stream mode's message, zero-extended to whole blocks (R211). -/
def zeroExtend (bs : Nat) (m : Bytes) : Bytes := m ++ zeros ((bs - m.length % bs) % bs)

end Sys2Proof.Machine
end

