-- ==== Sys2Proof/Machine/State.lean ====
section
/-! DEFINITION. The state of the engine and of the world it sees (spec/10_state.md), as plain data, and the reset state
(70_reset_and_hazards.md R290). -/

namespace Sys2Proof.Machine

/-- One access of a bus master, at an address of the host's address space (20_memory.md R50, R52; 30_encoding.md R85).
The engine admits 8- and 32-bit accesses only. -/
inductive Access where
  | read8 (addr : Nat)
  | read16 (addr : Nat)
  | read32 (addr : Nat)
  | read64 (addr : Nat)
  | write8 (addr : Nat) (v : BitVec 8)
  | write16 (addr : Nat) (v : BitVec 16)
  | write32 (addr : Nat) (v : BitVec 32)
  | write64 (addr : Nat) (v : BitVec 64)
  deriving DecidableEq, Repr

/-- What may happen next: an access of the host, a turn of the engine, or RST (00_scope.md R6, 70 R292, R299). -/
inductive Input where
  | access (a : Access)
  | engine
  | rst
  deriving DecidableEq, Repr

/-- The bus's answer to an access: an 8-bit read's byte is zero-extended, a write answers 0, and a refused access
answers 0 with the error (20_memory.md R52; log entry 7). -/
structure BusResponse where
  error : Bool
  data : Word32
  deriving DecidableEq, Repr

/-- What the engine latches at acceptance (R35, 45_commands.md R230). -/
structure Latch where
  /-- The accepted command word. -/
  cmd : Word32
  /-- The full 32-bit length registers, for validation. -/
  keylen : Word32
  ivlen : Word32
  inlen : Word32
  /-- `KEY[0 .. min(KEYLEN, 256))`. -/
  key : Bytes
  /-- `IV[0 .. min(IVLEN, 64))`. -/
  iv : Bytes
  /-- `IN[0 .. min(INLEN, MSG_MAX))`. -/
  msg : Bytes
  deriving DecidableEq, Repr

/-- The sequencer (R35). STATUS.BUSY is 1 exactly in `busy`. -/
inductive Sequencer where
  | idle
  | busy (l : Latch)
  deriving DecidableEq, Repr

/-- The whole machine: the engine's registers, buffers, sequencer and internal stores (R20), the parameters, and the
model's own record of the world outside (log entries 2, 4, 6, 7). -/
structure State where
  /-- `MSG_MAX` and `ENGINE_BASE` (00_scope.md R7). -/
  config : Config
  /-- KEYLEN (R27). -/
  keylen : Word32
  /-- IVLEN (R28). -/
  ivlen : Word32
  /-- INLEN (R29). -/
  inlen : Word32
  /-- OUTLEN's storage (R30); it reads 0 while BUSY. -/
  outlen : Word32
  /-- STATUS.DONE (R26). -/
  done : Bool
  /-- STATUS.ERR (R26, 60_exceptions.md R261); `none` is code 0. -/
  err : Option CmdError
  /-- IDLE, or BUSY with the latch (R35). -/
  seq : Sequencer
  /-- The buffers KEY, IV, IN and OUT (R31 to R34), keyed by window offset, in canonical form. -/
  mem : List Host.Cell
  /-- The internal stores (R36 to R38). -/
  stores : Stores
  /-- The model's own: the counter that picks fresh free values (log entry 4). -/
  serial : Nat
  /-- The model's own: the refused access that faulted the host agent, if any (log entry 6). -/
  hostFault : Option Access
  /-- The model's own: the bus's answers so far, newest first (log entry 7). -/
  responses : List BusResponse
  /-- The model's own: what happens next, soonest first (log entry 2). -/
  inputs : List Input
  deriving DecidableEq, Repr

/-- Why the machine stops. -/
inductive Fault where
  /-- Raised by a step whose input is an access of a host that an earlier refused access has faulted: that fault is
  never cleared and final (20_memory.md R52, 60_exceptions.md R272; 93 U16, U17). Safe: the machine stops where a
  platform might let the host go on (log entry 6). -/
  | hostFaulted (a : Access)
  deriving DecidableEq, Repr

/-- Why an instruction has no meaning. -/
inductive Refusal where
  /-- An instruction of the opcode table that has no meaning yet. Safe: nothing is claimed of it. No arm of `exec` raises
  it. -/
  | notModelled (mnemonic : String)
  deriving DecidableEq, Repr

/-- The state of R290 for given parameters: everything zero, IDLE, nothing latched, memory with nothing listed. The
internal stores are unspecified there; zeros are a DESIGN CHOICE (log entry 5). -/
def State.resetWith (c : Config) : State where
  config := c
  keylen := 0
  ivlen := 0
  inlen := 0
  outlen := 0
  done := false
  err := none
  seq := .idle
  mem := []
  stores := Stores.zero
  serial := 0
  hostFault := none
  responses := []
  inputs := []

/-- The machine right after reset (R41, R290), at the default parameters (00_scope.md R7; log entry 3). -/
def State.reset : State := State.resetWith Config.default

end Sys2Proof.Machine
end

