-- ==== Sys2Proof/Machine/Flags.lean ====
section
/-! DEFINITION. The STATUS register, the engine's only flags (spec/10_state.md R23, R26), and the error codes
(60_exceptions.md R261). -/

namespace Sys2Proof.Machine

/-- The 4-bit code of an error (60_exceptions.md R261). -/
def errorCode : CmdError → BitVec 4
  | .invalidKeyLength => 1
  | .invalidIVLength => 2
  | .invalidCiphertextLength => 3
  | .unsupportedMode => 4
  | .unsupportedPadding => 5
  | .paddingVerificationFailure => 6
  | .noPaddingMismatch => 7
  | .illegalCommand => 8
  | .unsupportedWordSize => 9
  | .messageTooLong => 10

/-- STATUS.ERR, 0 for no error (60_exceptions.md R261). -/
def errField : Option CmdError → BitVec 4
  | none => 0
  | some e => errorCode e

/-- STATUS.BUSY (10_state.md R26, R35). -/
def State.isBusy (s : State) : Bool :=
  match s.seq with
  | .idle => false
  | .busy _ => true

/-- The STATUS word, bit 31 first: reserved 0, ERR [7:4], reserved 0 [3:2], DONE [1], BUSY [0] (10_state.md R26). -/
def State.status (s : State) : Word32 :=
  (0 : BitVec 24) ++ errField s.err ++ (0 : BitVec 2) ++ BitVec.ofBool s.done ++ BitVec.ofBool s.isBusy

end Sys2Proof.Machine
end

