-- ==== Sys2Proof/Machine/Ops.lean ====
section
/-! DEFINITION. The named operations over memory and registers: the buffers, the register window (spec/10_state.md R24,
20_memory.md R50 to R53), acceptance (45_commands.md R230), completion with and without an error (45_commands.md R232,
60_exceptions.md R276), and reset (70_reset_and_hazards.md R290). -/

namespace Sys2Proof.Machine

/-! ## Memory: sparse bytes in one canonical form -/

/-- What an unlisted address reads as: the buffers' reset content (70 R290). -/
def memDefault : Byte := 0

/-- The byte at an address. -/
def memRead : List Host.Cell → Nat → Byte
  | [], _ => memDefault
  | (c, v) :: rest, a => if a = c then v else memRead rest a

/-- Write the byte at an address, keeping the form: writing what an unlisted address reads as removes the entry. -/
def memWrite : List Host.Cell → Nat → Byte → List Host.Cell
  | [], a, b => if b = memDefault then [] else [(a, b)]
  | (c, v) :: rest, a, b =>
    if a < c then (if b = memDefault then (c, v) :: rest else (a, b) :: (c, v) :: rest)
    else if a = c then (if b = memDefault then rest else (a, b) :: rest)
    else (c, v) :: memWrite rest a b

/-- Write a byte sequence from an address up. -/
def memWriteBytes : List Host.Cell → Nat → Bytes → List Host.Cell
  | m, _, [] => m
  | m, a, b :: rest => memWriteBytes (memWrite m a b) (a + 1) rest

/-- Set the bytes of addresses `lo` up to but not including `hi` to zero. -/
def memClear (m : List Host.Cell) (lo hi : Nat) : List Host.Cell :=
  m.filter fun c => !(decide (lo ≤ c.1) && decide (c.1 < hi))

/-- The `n` bytes from an address up: `MemRead(win, addr, n)` (00_scope.md R11). -/
def memBytes (m : List Host.Cell) (a n : Nat) : Bytes := (List.range n).map fun i => memRead m (a + i)

/-- The canonical form: addresses strictly rising, no entry equal to what an unlisted address reads as. -/
def memWf : List Host.Cell → Bool
  | [] => true
  | (c, v) :: rest => decide (v ≠ memDefault) && rest.all (fun d => decide (c < d.1)) && memWf rest

/-! ## The window's layout (10_state.md R24) -/

def windowSize : Nat := 0x40000
def regEnd : Nat := 0x00100
def keyBase : Nat := 0x00100
def keySize : Nat := 256
def ivBase : Nat := 0x00200
def ivSize : Nat := 64
def inBase : Nat := 0x10000
def outBase : Nat := 0x20000

/-- The OUT buffer's size, `MSG_MAX + 64` (R34). -/
def outSize (c : Config) : Nat := c.msgMax + 64

/-- The window offset of an address of the host's map, if the window holds it (20_memory.md R50). -/
def windowOffset (c : Config) (addr : Nat) : Option Nat :=
  if c.engineBase ≤ addr ∧ addr < c.engineBase + windowSize then some (addr - c.engineBase) else none

/-- The offsets a host write reaches: the KEY and IV buffers and the implemented part of the IN window (R31 to R33). -/
def isInput (c : Config) (off : Nat) : Bool :=
  (decide (keyBase ≤ off) && decide (off < keyBase + keySize))
    || (decide (ivBase ≤ off) && decide (off < ivBase + ivSize))
    || (decide (inBase ≤ off) && decide (off < inBase + c.msgMax))

/-- The offsets of the OUT buffer (R34). -/
def isOutput (c : Config) (off : Nat) : Bool :=
  decide (outBase ≤ off) && decide (off < outBase + outSize c)

/-! ## Register and buffer reads -/

/-- A 32-bit read of the register range (10_state.md R24 to R30, 70 R297). CMD and the reserved offsets read 0. -/
def readReg (s : State) (off : Nat) : Word32 :=
  if off = 0x04 then s.status
  else if off = 0x08 then s.keylen
  else if off = 0x0C then s.ivlen
  else if off = 0x10 then s.inlen
  else if off = 0x14 then (if s.isBusy then 0 else s.outlen)
  else 0

/-- The byte a host reads from the buffer ranges (R31 to R34, 20_memory.md R53): OUT reads 0 while BUSY (70 R297), and
everything that is no buffer reads 0. -/
def readByte (s : State) (off : Nat) : Byte :=
  if isInput s.config off then memRead s.mem off
  else if isOutput s.config off then (if s.isBusy then 0 else memRead s.mem off)
  else 0

/-- A 32-bit read at a multiple of 4, little-endian lanes (20_memory.md R51). -/
def readWord (s : State) (off : Nat) : Word32 :=
  if off < regEnd then readReg s off
  else readByte s (off + 3) ++ readByte s (off + 2) ++ readByte s (off + 1) ++ readByte s off

/-! ## Register and buffer writes while IDLE -/

/-- Write one byte of the buffer ranges; anywhere but in KEY, IV and IN the write is ignored (20_memory.md R53). -/
def writeByte (s : State) (off : Nat) (b : Byte) : State :=
  if isInput s.config off then { s with mem := memWrite s.mem off b } else s

/-- The latch of R230 for a command word: the length registers, the key, the IV and the message as they stand. -/
def latchOf (s : State) (cmd : Word32) : Latch where
  cmd := cmd
  keylen := s.keylen
  ivlen := s.ivlen
  inlen := s.inlen
  key := memBytes s.mem keyBase (min s.keylen.toNat keySize)
  iv := memBytes s.mem ivBase (min s.ivlen.toNat ivSize)
  msg := memBytes s.mem inBase (min s.inlen.toNat s.config.msgMax)

/-- Acceptance (R230): latch, and STATUS becomes BUSY = 1, DONE = 0, ERR = 0. -/
def State.accept (s : State) (cmd : Word32) : State :=
  { s with seq := .busy (latchOf s cmd), done := false, err := none }

/-- A 32-bit write of the register range while IDLE (10_state.md R25 to R30, 20_memory.md R53). -/
def writeReg (s : State) (off : Nat) (v : Word32) : State :=
  if off = 0x00 then s.accept v
  else if off = 0x08 then { s with keylen := v }
  else if off = 0x0C then { s with ivlen := v }
  else if off = 0x10 then { s with inlen := v }
  else s

/-- A 32-bit write at a multiple of 4 while IDLE, little-endian lanes (20_memory.md R51). -/
def writeWord (s : State) (off : Nat) (v : Word32) : State :=
  if off < regEnd then writeReg s off v
  else
    writeByte (writeByte (writeByte (writeByte s off (v.extractLsb' 0 8)) (off + 1) (v.extractLsb' 8 8))
      (off + 2) (v.extractLsb' 16 8)) (off + 3) (v.extractLsb' 24 8)

/-! ## Completion (45_commands.md R232) -/

/-- OUT after a completion: the output, then zeros (R232, 10_state.md R34). -/
def writeOut (c : Config) (m : List Host.Cell) (out : Bytes) : List Host.Cell :=
  memWriteBytes (memClear m outBase (outBase + outSize c)) outBase out

/-- Completion without an error (R232). The internal stores become unspecified (10_state.md R39; log entry 5). -/
def State.completeOk (s : State) (out : Bytes) : State :=
  { s with
    seq := .idle
    done := true
    err := none
    outlen := BitVec.ofNat 32 out.length
    mem := writeOut s.config s.mem out
    stores := Config.unspecifiedStores s.serial
    serial := s.serial + 1 }

/-- Error entry, the engine's only exception (60_exceptions.md R260, R276): OUT zeros, OUTLEN 0, STATUS BUSY = 0,
DONE = 1 and ERR the code. Nothing else is saved and control does not move. There is no return operation (R277):
acceptance of the next command clears DONE and ERR. -/
def State.completeError (s : State) (e : CmdError) : State :=
  { s with
    seq := .idle
    done := true
    err := some e
    outlen := 0
    mem := writeOut s.config s.mem []
    stores := Config.unspecifiedStores s.serial
    serial := s.serial + 1 }

/-- Completion (R232). -/
def State.complete (s : State) : Except CmdError Bytes → State
  | .ok out => s.completeOk out
  | .error e => s.completeError e

/-! ## Reset (70 R290 to R292) -/

/-- RST asserted between two steps: the state of R290, a running command abandoned (R291). The parameters and what the
world outside has done stay (log entry 8); the internal stores are unspecified (R290). -/
def State.rst (s : State) : State :=
  { State.resetWith s.config with
    stores := Config.unspecifiedStores s.serial
    serial := s.serial + 1
    hostFault := s.hostFault
    responses := s.responses
    inputs := s.inputs }

end Sys2Proof.Machine
end

