-- ==== Sys2Proof/Machine/Padding.lean ====
section
/-! DEFINITION. The padding unit (spec/43_padding.md R180 to R188). -/

namespace Sys2Proof.Machine

/-- `padLen(L, scheme, bs)` (R180). -/
def padLen (len : Nat) (p : Padding) (bs : Nat) : Nat :=
  match p with
  | .pkcs5 => bs - len % bs
  | .bit => bs - len % bs
  | .zero => (bs - len % bs) % bs
  | .random => (bs - len % bs) % bs
  | .no => 0

/-- `applyPadding(m, scheme, bs)` (R181 to R185). `draw k` is the command's entropy byte number `k` (R184). -/
def applyPadding (m : Bytes) (p : Padding) (bs : Nat) (draw : Nat → Byte) : Except CmdError Bytes :=
  let n := padLen m.length p bs
  match p with
  | .no => if m.length % bs ≠ 0 then .error .noPaddingMismatch else .ok m
  | .pkcs5 => .ok (m ++ rep (BitVec.ofNat 8 n) n)
  | .zero => .ok (m ++ zeros n)
  | .random => .ok (m ++ (List.range n).map draw)
  | .bit => .ok (m ++ 0x80 :: zeros (n - 1))

/-- Removal of PKCS5 padding (R187). -/
def removePkcs5 (m : Bytes) (bs : Nat) : Except CmdError Bytes :=
  match m.getLast? with
  | none => .error .paddingVerificationFailure
  | some b =>
    let n := b.toNat
    if n = 0 ∨ n > bs ∨ n > m.length then .error .paddingVerificationFailure
    else if (m.drop (m.length - n)).all (fun x => x.toNat == n) then .ok (m.take (m.length - n))
    else .error .paddingVerificationFailure

/-- The number of trailing zero bytes of a sequence handed over last byte first, at most `limit` (R188's scan). -/
def zeroRun : (limit : Nat) → Bytes → Nat
  | 0, _ => 0
  | _ + 1, [] => 0
  | limit + 1, b :: s => if b = 0 then zeroRun limit s + 1 else 0

/-- Removal of BIT padding (R188): skip at most `bs - 1` trailing zero bytes, then require the marker 0x80. -/
def removeBit (m : Bytes) (bs : Nat) : Except CmdError Bytes :=
  let rev := m.reverse
  match rev.drop (zeroRun (bs - 1) rev) with
  | [] => .error .paddingVerificationFailure
  | b :: before => if b = 0x80 then .ok before.reverse else .error .paddingVerificationFailure

/-- `removePadding(m, scheme, bs)` (R186 to R188). -/
def removePadding (m : Bytes) (p : Padding) (bs : Nat) : Except CmdError Bytes :=
  match p with
  | .no => .ok m
  | .zero => .ok m
  | .random => .ok m
  | .pkcs5 => removePkcs5 m bs
  | .bit => removeBit m bs

end Sys2Proof.Machine
end

