-- ==== Sys2Proof/Machine/Operands.lean ====
section
/-! DEFINITION. Operand assembly (spec/30_encoding.md R78), `Validate` (60_exceptions.md R271 steps 3 to 9) and `Run`
(45_commands.md R231) of a decoded command. Steps 1 and 2 of `Validate` are the decoder's. -/

namespace Sys2Proof.Machine

/-- The cipher of a command with its operands (R78). -/
inductive CipherArgs where
  | a
  | b (wsel : WselField) (rounds : BitVec 8)
  deriving DecidableEq, Repr

/-- The two block modes, which pad (44_modes.md R212). -/
inductive BlockMode where
  | ecb | cbc
  deriving DecidableEq, Repr

/-- The three stream modes, which do not (44_modes.md R211). -/
inductive StreamMode where
  | cfb | ofb | ctr
  deriving DecidableEq, Repr

/-- The mode of a command; PAD is an operand of the block modes only (R74, R79). -/
inductive ModeArgs where
  | block (m : BlockMode) (pad : PadField)
  | stream (m : StreamMode)
  deriving DecidableEq, Repr

/-- A decoded command. -/
structure Request where
  op : Op
  cipher : CipherArgs
  mode : ModeArgs
  deriving DecidableEq, Repr

def BlockMode.toMode : BlockMode → Mode
  | .ecb => .ecb
  | .cbc => .cbc

def StreamMode.toMode : StreamMode → Mode
  | .cfb => .cfb
  | .ofb => .ofb
  | .ctr => .ctr

/-! ## Assembled operands (R78) -/

/-- `w = 8 << WSEL` (R75). -/
def wselWidth (f : WselField) : Nat := 8 <<< f.code.toNat

/-- The block size: 8 for Cipher A, `4 * (w/8)` for Cipher B (R78). -/
def CipherArgs.blockSize : CipherArgs → Nat
  | .a => 8
  | .b wsel _ => 4 * (wselWidth wsel / 8)

/-- The block functions of a command's cipher under its key (44_modes.md R200). The schedule is derived once. -/
structure BlockFns where
  enc : Bytes → Bytes
  dec : Bytes → Bytes

/-- `E`, `D` (R200): `EA`, `DA` with the round keys of R129, or `EB`, `DB` with the schedule of R157. -/
def CipherArgs.blockFns (c : CipherArgs) (key : Bytes) : BlockFns :=
  match c with
  | .a =>
    let rk := scheduleA key
    { enc := encA rk, dec := decA rk }
  | .b wsel rounds =>
    let r := rounds.toNat
    let s := scheduleB (wselWidth wsel) r key
    { enc := encB r s, dec := decB r s }

/-! ## Validate (60_exceptions.md R271) -/

/-- WSEL is 0b101 to 0b111 (step 3, R270). -/
def CipherArgs.wordSizeOk : CipherArgs → Bool
  | .a => true
  | .b (.size _) _ => true
  | .b (.unsupported _) _ => false

/-- PAD of an ECB or CBC command is 0b000 to 0b100 (step 4, R269). -/
def ModeArgs.paddingOk : ModeArgs → Bool
  | .block _ (.scheme _) => true
  | .block _ (.unrecognized _) => false
  | .stream _ => true

/-- KEYLEN is 10 or 16 for Cipher A, at most 255 for Cipher B (step 5, R264). -/
def CipherArgs.keyLengthOk (c : CipherArgs) (keylen : Nat) : Bool :=
  match c with
  | .a => decide (keylen = 10) || decide (keylen = 16)
  | .b _ _ => decide (keylen ≤ 255)

/-- IVLEN is the block size, in every mode but ECB (step 6, R265). -/
def ModeArgs.ivLengthOk (m : ModeArgs) (ivlen bs : Nat) : Bool :=
  match m with
  | .block .ecb _ => true
  | .block .cbc _ => decide (ivlen = bs)
  | .stream _ => decide (ivlen = bs)

/-- Decrypting in ECB or CBC takes whole blocks (step 8, R263). -/
def Request.ciphertextLengthOk (q : Request) (inlen : Nat) : Bool :=
  match q.op, q.mode with
  | .dec, .block _ _ => decide (inlen % q.cipher.blockSize = 0)
  | .dec, .stream _ => true
  | .enc, _ => true

/-- Encrypting in ECB or CBC with PAD = NO takes whole blocks (step 9, R273). -/
def Request.noPaddingOk (q : Request) (inlen : Nat) : Bool :=
  match q.op, q.mode with
  | .enc, .block _ (.scheme .no) => decide (inlen % q.cipher.blockSize = 0)
  | .enc, .block _ _ => true
  | .enc, .stream _ => true
  | .dec, _ => true

/-- Steps 3 to 9: the first error whose condition holds (R271). Lengths are the full 32-bit registers. -/
def validate (q : Request) (msgMax : Nat) (l : Latch) : Option CmdError :=
  if !q.cipher.wordSizeOk then some .unsupportedWordSize
  else if !q.mode.paddingOk then some .unsupportedPadding
  else if !q.cipher.keyLengthOk l.keylen.toNat then some .invalidKeyLength
  else if !q.mode.ivLengthOk l.ivlen.toNat q.cipher.blockSize then some .invalidIVLength
  else if l.inlen.toNat > msgMax then some .messageTooLong
  else if !q.ciphertextLengthOk l.inlen.toNat then some .invalidCiphertextLength
  else if !q.noPaddingOk l.inlen.toNat then some .noPaddingMismatch
  else none

/-! ## Run (45_commands.md R231) -/

/-- A block mode's result (44_modes.md R212). -/
def runBlock (op : Op) (m : Mode) (p : Padding) (f : BlockFns) (bs : Nat) (msg iv : Bytes) (draw : Nat → Byte) :
    Except CmdError Bytes :=
  match op with
  | .enc =>
    match applyPadding msg p bs draw with
    | .error e => .error e
    | .ok padded => .ok (modeEnc m f.enc bs padded iv)
  | .dec => removePadding (modeDec m f.enc f.dec bs msg iv) p bs

/-- A stream mode's result: zero-extend, run, truncate (44_modes.md R211). -/
def runStream (op : Op) (m : Mode) (f : BlockFns) (bs : Nat) (msg iv : Bytes) : Bytes :=
  match op with
  | .enc => (modeEnc m f.enc bs (zeroExtend bs msg) iv).take msg.length
  | .dec => (modeDec m f.enc f.dec bs (zeroExtend bs msg) iv).take msg.length

/-- `Run(latch)` of a decoded command (R231): `Validate`, the schedule, padding, the mode. -/
def run (q : Request) (msgMax : Nat) (l : Latch) (draw : Nat → Byte) : Except CmdError Bytes :=
  match validate q msgMax l with
  | some e => .error e
  | none =>
    let f := q.cipher.blockFns l.key
    let bs := q.cipher.blockSize
    match q.mode with
    | .block m (.scheme p) => runBlock q.op m.toMode p f bs l.msg (l.iv.take bs) draw
    | .block _ (.unrecognized _) => .error .unsupportedPadding
    | .stream m => .ok (runStream q.op m.toMode f bs l.msg (l.iv.take bs))

/-- The engine's single step from BUSY for a decoded command (R232): compute `Run` of the latch and complete. From IDLE
the engine takes no step (10_state.md R35; log entry 1). -/
def runCommand (q : Request) (s : State) : Host.Outcome State Fault Refusal :=
  match s.seq with
  | .idle => .next s
  | .busy l => .next (s.complete (run q s.config.msgMax l (Config.entropy s.serial)))

end Sys2Proof.Machine
end

