-- ==== Sys2Proof/Machine/CommandsA.lean ====
section
/-! DEFINITION. The meanings of Cipher A's four commands (spec/45_commands.md R234 to R237), each over the shared
command `runCommand`. -/

namespace Sys2Proof.Machine

/-- A.ENC.ECB (R234). -/
def execAEncEcb (pad : PadField) (s : State) : Host.Outcome State Fault Refusal :=
  runCommand { op := .enc, cipher := .a, mode := .block .ecb pad } s

/-- A.ENC.CBC (R235). -/
def execAEncCbc (pad : PadField) (s : State) : Host.Outcome State Fault Refusal :=
  runCommand { op := .enc, cipher := .a, mode := .block .cbc pad } s

/-- A.DEC.ECB (R236). -/
def execADecEcb (pad : PadField) (s : State) : Host.Outcome State Fault Refusal :=
  runCommand { op := .dec, cipher := .a, mode := .block .ecb pad } s

/-- A.DEC.CBC (R237). -/
def execADecCbc (pad : PadField) (s : State) : Host.Outcome State Fault Refusal :=
  runCommand { op := .dec, cipher := .a, mode := .block .cbc pad } s

end Sys2Proof.Machine
end

