-- ==== Sys2Proof/Machine/CommandsB.lean ====
section
/-! DEFINITION. The meanings of Cipher B's ten commands (spec/45_commands.md R238 to R247), each over the shared
command `runCommand`. -/

namespace Sys2Proof.Machine

/-- B.ENC.ECB (R238). -/
def execBEncEcb (pad : PadField) (wsel : WselField) (rounds : BitVec 8) (s : State) :
    Host.Outcome State Fault Refusal :=
  runCommand { op := .enc, cipher := .b wsel rounds, mode := .block .ecb pad } s

/-- B.ENC.CBC (R239). -/
def execBEncCbc (pad : PadField) (wsel : WselField) (rounds : BitVec 8) (s : State) :
    Host.Outcome State Fault Refusal :=
  runCommand { op := .enc, cipher := .b wsel rounds, mode := .block .cbc pad } s

/-- B.ENC.CFB (R240). -/
def execBEncCfb (wsel : WselField) (rounds : BitVec 8) (s : State) : Host.Outcome State Fault Refusal :=
  runCommand { op := .enc, cipher := .b wsel rounds, mode := .stream .cfb } s

/-- B.ENC.OFB (R241). -/
def execBEncOfb (wsel : WselField) (rounds : BitVec 8) (s : State) : Host.Outcome State Fault Refusal :=
  runCommand { op := .enc, cipher := .b wsel rounds, mode := .stream .ofb } s

/-- B.ENC.CTR (R242). -/
def execBEncCtr (wsel : WselField) (rounds : BitVec 8) (s : State) : Host.Outcome State Fault Refusal :=
  runCommand { op := .enc, cipher := .b wsel rounds, mode := .stream .ctr } s

/-- B.DEC.ECB (R243). -/
def execBDecEcb (pad : PadField) (wsel : WselField) (rounds : BitVec 8) (s : State) :
    Host.Outcome State Fault Refusal :=
  runCommand { op := .dec, cipher := .b wsel rounds, mode := .block .ecb pad } s

/-- B.DEC.CBC (R244). -/
def execBDecCbc (pad : PadField) (wsel : WselField) (rounds : BitVec 8) (s : State) :
    Host.Outcome State Fault Refusal :=
  runCommand { op := .dec, cipher := .b wsel rounds, mode := .block .cbc pad } s

/-- B.DEC.CFB (R245). -/
def execBDecCfb (wsel : WselField) (rounds : BitVec 8) (s : State) : Host.Outcome State Fault Refusal :=
  runCommand { op := .dec, cipher := .b wsel rounds, mode := .stream .cfb } s

/-- B.DEC.OFB (R246). -/
def execBDecOfb (wsel : WselField) (rounds : BitVec 8) (s : State) : Host.Outcome State Fault Refusal :=
  runCommand { op := .dec, cipher := .b wsel rounds, mode := .stream .ofb } s

/-- B.DEC.CTR (R247). -/
def execBDecCtr (wsel : WselField) (rounds : BitVec 8) (s : State) : Host.Outcome State Fault Refusal :=
  runCommand { op := .dec, cipher := .b wsel rounds, mode := .stream .ctr } s

end Sys2Proof.Machine
end

