-- ==== Sys2Proof/Machine/Dispatch.lean ====
section
/-! DEFINITION. The dispatch: one arm per command of the opcode table (spec/30_encoding.md R80). -/

namespace Sys2Proof.Machine

def exec (i : Instr) (s : State) : Host.Outcome State Fault Refusal :=
  match i with
  | .aEncEcb pad => Sys2Proof.Machine.execAEncEcb pad s
  | .aEncCbc pad => Sys2Proof.Machine.execAEncCbc pad s
  | .aDecEcb pad => Sys2Proof.Machine.execADecEcb pad s
  | .aDecCbc pad => Sys2Proof.Machine.execADecCbc pad s
  | .bEncEcb pad wsel rounds => Sys2Proof.Machine.execBEncEcb pad wsel rounds s
  | .bEncCbc pad wsel rounds => Sys2Proof.Machine.execBEncCbc pad wsel rounds s
  | .bEncCfb wsel rounds => Sys2Proof.Machine.execBEncCfb wsel rounds s
  | .bEncOfb wsel rounds => Sys2Proof.Machine.execBEncOfb wsel rounds s
  | .bEncCtr wsel rounds => Sys2Proof.Machine.execBEncCtr wsel rounds s
  | .bDecEcb pad wsel rounds => Sys2Proof.Machine.execBDecEcb pad wsel rounds s
  | .bDecCbc pad wsel rounds => Sys2Proof.Machine.execBDecCbc pad wsel rounds s
  | .bDecCfb wsel rounds => Sys2Proof.Machine.execBDecCfb wsel rounds s
  | .bDecOfb wsel rounds => Sys2Proof.Machine.execBDecOfb wsel rounds s
  | .bDecCtr wsel rounds => Sys2Proof.Machine.execBDecCtr wsel rounds s

end Sys2Proof.Machine
end

