-- ==== Sys2Proof/Machine/HostPort.lean ====
section
/-! DEFINITION. The host port: which accesses the engine admits (spec/20_memory.md R52), what an admitted access does
(R53, R54, 70_reset_and_hazards.md R296, R297), what a refused one does (60_exceptions.md R272), and the host notation's
expansions (30_encoding.md R85). -/

namespace Sys2Proof.Machine

/-- The window offset of an admitted 32-bit access: a multiple of 4 (20_memory.md R52). -/
def admit32 (c : Config) (addr : Nat) : Option Nat :=
  match windowOffset c addr with
  | none => none
  | some off => if off % 4 = 0 then some off else none

/-- The window offset of an admitted 8-bit access: not in the register range (20_memory.md R52). -/
def admit8 (c : Config) (addr : Nat) : Option Nat :=
  match windowOffset c addr with
  | none => none
  | some off => if regEnd ≤ off then some off else none

/-- The host gets an answer. -/
def State.answer (s : State) (r : BusResponse) : State := { s with responses := r :: s.responses }

/-- A refused access: a bus error response, and a fault of the host agent; nothing else changes (20_memory.md R52,
60_exceptions.md R272). -/
def State.refuse (s : State) (a : Access) : State :=
  { s.answer { error := true, data := 0 } with hostFault := some a }

/-- An admitted read returns a value and has no side effect (20_memory.md R54). -/
def State.answerRead (s : State) (v : Word32) : State := s.answer { error := false, data := v }

/-- An admitted write takes effect while IDLE and is ignored while BUSY; both get a normal response (70 R296). -/
def State.answerWrite (s : State) (written : State) : State :=
  match s.seq with
  | .idle => written.answer { error := false, data := 0 }
  | .busy _ => s.answer { error := false, data := 0 }

/-- One access at the port (20_memory.md R52). Any 16- or 64-bit access is refused. -/
def portAccess (a : Access) (s : State) : State :=
  match a with
  | .read8 addr =>
    match admit8 s.config addr with
    | none => s.refuse a
    | some off => s.answerRead ((readByte s off).setWidth 32)
  | .read32 addr =>
    match admit32 s.config addr with
    | none => s.refuse a
    | some off => s.answerRead (readWord s off)
  | .write8 addr v =>
    match admit8 s.config addr with
    | none => s.refuse a
    | some off => s.answerWrite (writeByte s off v)
  | .write32 addr v =>
    match admit32 s.config addr with
    | none => s.refuse a
    | some off => s.answerWrite (writeWord s off v)
  | .read16 _ => s.refuse a
  | .read64 _ => s.refuse a
  | .write16 _ _ => s.refuse a
  | .write64 _ _ => s.refuse a

/-- An access of the host agent. Its fault is never cleared: a host that has been refused makes no further access
(60_exceptions.md R272; log entry 6). -/
def hostAccess (a : Access) (s : State) : Host.Outcome State Fault Refusal :=
  match s.hostFault with
  | some _ => .fault (.hostFaulted a)
  | none => .next (portAccess a s)

/-! ## Host notation (30_encoding.md R85) -/

/-- `WR32 off, v`. -/
def wr32 (c : Config) (off : Nat) (v : Word32) : List Input := [.access (.write32 (c.engineBase + off) v)]

/-- `WR8 off, v`. -/
def wr8 (c : Config) (off : Nat) (v : Byte) : List Input := [.access (.write8 (c.engineBase + off) v)]

/-- `RD32 off`. -/
def rd32 (c : Config) (off : Nat) : List Input := [.access (.read32 (c.engineBase + off))]

/-- `RD8 off`. -/
def rd8 (c : Config) (off : Nat) : List Input := [.access (.read8 (c.engineBase + off))]

/-- `CMD <mnemonic ...>`: one 32-bit write of the assembled word to CMD. -/
def cmd (c : Config) (i : Instr) : List Input := wr32 c 0 (encode i)

/-- `WRBUF base, b0 b1 ...`: 8-bit writes in increasing order. -/
def wrbuf (c : Config) (base : Nat) : Bytes → List Input
  | [] => []
  | b :: rest => wr8 c base b ++ wrbuf c (base + 1) rest

/-- `RDBUF base, n`: 8-bit reads in increasing order. -/
def rdbuf (c : Config) (base n : Nat) : List Input := (List.range n).flatMap fun i => rd8 c (base + i)

end Sys2Proof.Machine
end

