-- ==== Sys2Proof/Machine/Step.lean ====
section
/-! DEFINITION. One step of the machine: the next outside event, or the engine's turn (spec/10_state.md R35,
70_reset_and_hazards.md R292, R299, R300). -/

namespace Sys2Proof.Machine

/-- The engine's turn: IDLE takes no step (R35); BUSY runs the latched command, or completes with the error of a word
that matches no row (30_encoding.md R81). -/
def engineStep (s : State) : Host.Outcome State Fault Refusal :=
  match s.seq with
  | .idle => .next s
  | .busy l =>
    match decode l.cmd with
    | .ok i => exec i s
    | .error e => .next (s.completeError e)

/-- The step: take the soonest input; with none, the engine has the turn (log entry 2). -/
def step (s : State) : Host.Outcome State Fault Refusal :=
  match s.inputs with
  | [] => engineStep s
  | .engine :: rest => engineStep { s with inputs := rest }
  | .access a :: rest => hostAccess a { s with inputs := rest }
  | .rst :: rest => .next { s with inputs := rest }.rst

/-- `s` with the command word `w` accepted (45_commands.md R230), the engine having the next turn, so that the very
next step runs it (log entry 8). -/
def State.withFetchWord (s : State) (nbits w : Nat) : State :=
  { s.accept (tableWord nbits w) with
    inputs := match s.inputs with
      | [] => []
      | i :: rest => .engine :: i :: rest }

end Sys2Proof.Machine
end

