-- ==== Sys2Proof/Safety.lean ====
section
/-! DEFINITION. What holds of every state of a run (the invariant), and which hosts run safely. -/

namespace Sys2Proof.Machine

/-- While BUSY, the latch holds what the inputs hold: they cannot change (spec/10_state.md R35, 70 R296). -/
def latchCurrent (s : State) : Bool :=
  match s.seq with
  | .idle => true
  | .busy l => decide (l = latchOf s l.cmd)

/-- The invariant of the machine. -/
abbrev State.Inv (s : State) : Prop :=
  -- the parameters are in their ranges (00_scope.md R7, 20_memory.md R50)
  s.config.WF
  -- memory is in its canonical form, and only buffer bytes are stored (10_state.md R31 to R34)
  ∧ memWf s.mem = true
  ∧ s.mem.all (fun c => isInput s.config c.1 || isOutput s.config c.1) = true
  -- OUTLEN is at most the OUT buffer's size (R30), and OUT is zero from OUTLEN on (R34)
  ∧ s.outlen.toNat ≤ outSize s.config
  ∧ s.mem.all (fun c => decide (c.1 < outBase + s.outlen.toNat)) = true
  -- BUSY and DONE never hold together, and ERR is 0 while BUSY (R26)
  ∧ (s.isBusy = true → s.done = false)
  ∧ (s.done = false → s.err = none)
  -- an error leaves OUTLEN 0 (60_exceptions.md R276)
  ∧ (s.err ≠ none → s.outlen = 0)
  -- IDLE without DONE is the state since reset: no output yet (70 R290)
  ∧ (s.isBusy = false → s.done = false → s.outlen = 0)
  ∧ latchCurrent s = true

/-- The engine admits the access (20_memory.md R52). -/
def admitted (c : Config) (a : Access) : Bool :=
  match a with
  | .read8 addr => (admit8 c addr).isSome
  | .write8 addr _ => (admit8 c addr).isSome
  | .read32 addr => (admit32 c addr).isSome
  | .write32 addr _ => (admit32 c addr).isSome
  | .read16 _ => false
  | .read64 _ => false
  | .write16 _ _ => false
  | .write64 _ _ => false

/-- The input is no access the engine refuses. -/
def inputAdmitted (c : Config) (i : Input) : Bool :=
  match i with
  | .access a => admitted c a
  | .engine => true
  | .rst => true

/-- A host that has made no refused access and will make none. -/
abbrev State.HostSafe (s : State) : Prop :=
  s.hostFault = none ∧ s.inputs.all (inputAdmitted s.config) = true

end Sys2Proof.Machine
end

