-- ==== Sys2Proof/Certificates/Slice0/Obligations.lean ====
section
/-! DEFINITION. The statements for the provers, written from the numbered rules of spec/. First the rules' own pseudocode
on raw bits, independent of the decoder, then the statements. -/

namespace Sys2Proof.Spec

open Sys2Proof.Machine

/-- `v[hi:lo]` (spec/00_scope.md R8). -/
def field (v : Word32) (hi lo : Nat) : Nat := v.toNat / 2 ^ lo % 2 ^ (hi + 1 - lo)

/-- The word sizes the engine admits (00_scope.md R7). -/
def wordSizes : List Nat := [8, 16, 32, 64, 128]

/-- `w = 8 << WSEL` (30_encoding.md R78). -/
def rawWidth (cmd : Word32) : Nat := 8 * 2 ^ field cmd 11 9

/-- `bs`: 8 for Cipher A, `4 * (8 << WSEL) / 8` for Cipher B (60_exceptions.md R271). -/
def rawBlockSize (cmd : Word32) : Nat := if field cmd 2 2 = 0 then 8 else 4 * rawWidth cmd / 8

/-- `Validate`, steps 1 to 9, on the raw fields (60_exceptions.md R271). -/
def rawValidate (msgMax : Nat) (l : Latch) : Option CmdError :=
  let op := field l.cmd 1 0
  let cipher := field l.cmd 2 2
  let mode := field l.cmd 5 3
  let pad := field l.cmd 8 6
  let wsel := field l.cmd 11 9
  let keylen := l.keylen.toNat
  let ivlen := l.ivlen.toNat
  let inlen := l.inlen.toNat
  let bs := rawBlockSize l.cmd
  if (op ≠ 1 ∧ op ≠ 2) ∨ field l.cmd 15 12 ≠ 0 ∨ field l.cmd 31 24 ≠ 0 then some .illegalCommand
  else if mode ≥ 5 ∨ (cipher = 0 ∧ mode ≥ 2) then some .unsupportedMode
  else if cipher = 1 ∧ wsel ≥ 5 then some .unsupportedWordSize
  else if mode ≤ 1 ∧ pad ≥ 5 then some .unsupportedPadding
  else if (cipher = 0 ∧ keylen ≠ 10 ∧ keylen ≠ 16) ∨ (cipher = 1 ∧ keylen > 255) then some .invalidKeyLength
  else if mode ≠ 0 ∧ ivlen ≠ bs then some .invalidIVLength
  else if inlen > msgMax then some .messageTooLong
  else if op = 2 ∧ mode ≤ 1 ∧ inlen % bs ≠ 0 then some .invalidCiphertextLength
  else if op = 1 ∧ mode ≤ 1 ∧ pad = 0 ∧ inlen % bs ≠ 0 then some .noPaddingMismatch
  else none

/-- The scheme of a legal PAD code (30_encoding.md R74). -/
def rawPadding (pad : Nat) : Padding :=
  match pad with
  | 0 => .no
  | 1 => .pkcs5
  | 2 => .zero
  | 3 => .random
  | _ => .bit

/-- The mode of a legal MODE code (30_encoding.md R73). -/
def rawMode (mode : Nat) : Mode :=
  match mode with
  | 0 => .ecb
  | 1 => .cbc
  | 2 => .cfb
  | 3 => .ofb
  | _ => .ctr

/-- The block encryption of a command under its key (44_modes.md R200). -/
def rawE (l : Latch) : Bytes → Bytes :=
  if field l.cmd 2 2 = 0 then encA (scheduleA l.key)
  else encB (field l.cmd 23 16) (scheduleB (rawWidth l.cmd) (field l.cmd 23 16) l.key)

/-- The block decryption of a command under its key (44_modes.md R200). -/
def rawD (l : Latch) : Bytes → Bytes :=
  if field l.cmd 2 2 = 0 then decA (scheduleA l.key)
  else decB (field l.cmd 23 16) (scheduleB (rawWidth l.cmd) (field l.cmd 23 16) l.key)

/-- `Run(latch)` on the raw fields (45_commands.md R231); `draw` stands for the entropy source (43_padding.md R184). -/
def rawRun (msgMax : Nat) (l : Latch) (draw : Nat → Byte) : Except CmdError Bytes :=
  match rawValidate msgMax l with
  | some e => .error e
  | none =>
    let bs := rawBlockSize l.cmd
    let mode := rawMode (field l.cmd 5 3)
    let pad := rawPadding (field l.cmd 8 6)
    let ivb := l.iv.take bs
    if field l.cmd 5 3 ≤ 1 then
      if field l.cmd 1 0 = 1 then
        match applyPadding l.msg pad bs draw with
        | .error e => .error e
        | .ok m => .ok (modeEnc mode (rawE l) bs m ivb)
      else removePadding (modeDec mode (rawE l) (rawD l) bs l.msg ivb) pad bs
    else
      let ext := l.msg ++ zeros ((bs - l.msg.length % bs) % bs)
      if field l.cmd 1 0 = 1 then .ok ((modeEnc mode (rawE l) bs ext ivb).take l.msg.length)
      else .ok ((modeDec mode (rawE l) (rawD l) bs ext ivb).take l.msg.length)

/-- The bytes each scheme appends to a message of `len` bytes (43_padding.md R181 to R185). -/
def padBytes (len : Nat) (p : Padding) (bs : Nat) (draw : Nat → Byte) : Bytes :=
  match p with
  | .no => []
  | .pkcs5 => rep (BitVec.ofNat 8 (bs - len % bs)) (bs - len % bs)
  | .zero => zeros ((bs - len % bs) % bs)
  | .random => (List.range ((bs - len % bs) % bs)).map draw
  | .bit => 0x80 :: zeros (bs - len % bs - 1)

/-- The encrypt commands whose padding decryption removes again (43_padding.md R189): the block modes with NO, PKCS5 or
BIT, and the stream modes. -/
def reversible : Instr → Bool
  | .aEncEcb (.scheme p) => decide (p ≠ .zero ∧ p ≠ .random)
  | .aEncCbc (.scheme p) => decide (p ≠ .zero ∧ p ≠ .random)
  | .bEncEcb (.scheme p) _ _ => decide (p ≠ .zero ∧ p ≠ .random)
  | .bEncCbc (.scheme p) _ _ => decide (p ≠ .zero ∧ p ≠ .random)
  | .bEncCfb _ _ => true
  | .bEncOfb _ _ => true
  | .bEncCtr _ _ => true
  | _ => false

/-- The decrypt command of an encrypt command, with the same operands. -/
def decryptOf : Instr → Instr
  | .aEncEcb p => .aDecEcb p
  | .aEncCbc p => .aDecCbc p
  | .bEncEcb p w r => .bDecEcb p w r
  | .bEncCbc p w r => .bDecCbc p w r
  | .bEncCfb w r => .bDecCfb w r
  | .bEncOfb w r => .bDecOfb w r
  | .bEncCtr w r => .bDecCtr w r
  | i => i

/-- The commands that draw entropy: encryption with RANDOM padding (43_padding.md R184). -/
def drawsEntropy : Instr → Bool
  | .aEncEcb (.scheme .random) => true
  | .aEncCbc (.scheme .random) => true
  | .bEncEcb (.scheme .random) _ _ => true
  | .bEncCbc (.scheme .random) _ _ => true
  | _ => false

/-- The OUT buffer's byte `k` in storage (10_state.md R34). -/
def outByte (s : State) (k : Nat) : Byte := memRead s.mem (outBase + k)

/-- OUT as far as OUTLEN: a command's output (10_state.md R34). -/
def output (s : State) : Bytes := memBytes s.mem outBase s.outlen.toNat

/-- The block size of a command (30_encoding.md R78). -/
def blockSizeOf : Instr → Nat
  | .aEncEcb _ => 8
  | .aEncCbc _ => 8
  | .aDecEcb _ => 8
  | .aDecCbc _ => 8
  | .bEncEcb _ w _ => 4 * (8 * 2 ^ w.code.toNat / 8)
  | .bEncCbc _ w _ => 4 * (8 * 2 ^ w.code.toNat / 8)
  | .bEncCfb w _ => 4 * (8 * 2 ^ w.code.toNat / 8)
  | .bEncOfb w _ => 4 * (8 * 2 ^ w.code.toNat / 8)
  | .bEncCtr w _ => 4 * (8 * 2 ^ w.code.toNat / 8)
  | .bDecEcb _ w _ => 4 * (8 * 2 ^ w.code.toNat / 8)
  | .bDecCbc _ w _ => 4 * (8 * 2 ^ w.code.toNat / 8)
  | .bDecCfb w _ => 4 * (8 * 2 ^ w.code.toNat / 8)
  | .bDecOfb w _ => 4 * (8 * 2 ^ w.code.toNat / 8)
  | .bDecCtr w _ => 4 * (8 * 2 ^ w.code.toNat / 8)

/-- The first of the two commands that a chained command is split into: the same, with PAD = NO in CBC (70 R298 item 4).
ECB does not chain. -/
def firstPart : Instr → Option Instr
  | .aEncEcb _ => none
  | .aEncCbc _ => some (.aEncCbc (.scheme .no))
  | .aDecEcb _ => none
  | .aDecCbc _ => some (.aDecCbc (.scheme .no))
  | .bEncEcb _ _ _ => none
  | .bEncCbc _ w r => some (.bEncCbc (.scheme .no) w r)
  | .bEncCfb w r => some (.bEncCfb w r)
  | .bEncOfb w r => some (.bEncOfb w r)
  | .bEncCtr w r => some (.bEncCtr w r)
  | .bDecEcb _ _ _ => none
  | .bDecCbc _ w r => some (.bDecCbc (.scheme .no) w r)
  | .bDecCfb w r => some (.bDecCfb w r)
  | .bDecOfb w r => some (.bDecOfb w r)
  | .bDecCtr w r => some (.bDecCtr w r)

/-- The last block of a sequence. -/
def lastBlock (bs : Nat) (x : Bytes) : Bytes := x.drop (x.length - bs)

/-- The next IV that the host writes (70 R298 item 4), from the first command's input, output and IV: in CBC and CFB the
last ciphertext block, in OFB the last ciphertext block xor the last plaintext block, in CTR `inc` applied once per block.
The ciphertext is the output of an encryption and the input of a decryption. -/
def nextIv (i : Instr) (msg out iv : Bytes) : Bytes :=
  let bs := blockSizeOf i
  match i with
  | .aEncEcb _ => iv
  | .aDecEcb _ => iv
  | .bEncEcb _ _ _ => iv
  | .bDecEcb _ _ _ => iv
  | .aEncCbc _ => lastBlock bs out
  | .bEncCbc _ _ _ => lastBlock bs out
  | .bEncCfb _ _ => lastBlock bs out
  | .aDecCbc _ => lastBlock bs msg
  | .bDecCbc _ _ _ => lastBlock bs msg
  | .bDecCfb _ _ => lastBlock bs msg
  | .bEncOfb _ _ => xorBytes (lastBlock bs out) (lastBlock bs msg)
  | .bDecOfb _ _ => xorBytes (lastBlock bs out) (lastBlock bs msg)
  | .bEncCtr _ _ => Nat.iterate incBlock (msg.length / bs) iv
  | .bDecCtr _ _ => Nat.iterate incBlock (msg.length / bs) iv

/-- The CBC decryptions under a removable padding: the pad stands in the last block, so the rest has one. -/
def needsLastBlock : Instr → Bool
  | .aDecCbc (.scheme p) => decide (p = .pkcs5 ∨ p = .bit)
  | .bDecCbc (.scheme p) _ _ => decide (p = .pkcs5 ∨ p = .bit)
  | _ => false

end Sys2Proof.Spec

open Sys2Proof Sys2Proof.Machine Sys2Proof.Spec

/-! ## Reset and registers -/

/-- R41: the reset values. -/
def Obligations.ResetValues : Prop :=
  State.reset.status = 0 ∧ State.reset.keylen = 0 ∧ State.reset.ivlen = 0 ∧ State.reset.inlen = 0 ∧
  State.reset.outlen = 0 ∧ State.reset.seq = .idle ∧
  (∀ i, memRead State.reset.mem i = 0) ∧ (∀ off, readByte State.reset off = 0) ∧
  (∀ off, off < regEnd → readReg State.reset off = 0)

/-- R290, R291: RST, asserted in any state, BUSY too, gives the state of R290 at once: a running command is abandoned and
writes nothing of its own. (That the parameters, the bus's answers and the host agent's fault stay is the model's choice,
log entry 8, and not claimed here.) -/
def Obligations.RstGivesResetState : Prop :=
  ∀ s rest, s.inputs = .rst :: rest →
    ∃ t, step s = .next t ∧ t.seq = .idle ∧ t.status = 0 ∧ t.keylen = 0 ∧ t.ivlen = 0 ∧ t.inlen = 0 ∧ t.outlen = 0 ∧
      (∀ i, memRead t.mem i = 0) ∧ readReg t 0 = 0 ∧ t.inputs = rest

/-- R26: the STATUS word's fields; BUSY and DONE never hold together and ERR reads 0 while BUSY; writes are ignored. -/
def Obligations.StatusWord : Prop :=
  (∀ s : State,
    readWord s 0x04 = s.status ∧
    (field s.status 0 0 = 1 ↔ ∃ l, s.seq = .busy l) ∧
    (field s.status 1 1 = 1 ↔ s.done = true) ∧
    field s.status 3 2 = 0 ∧
    field s.status 7 4 = (errField s.err).toNat ∧
    field s.status 31 8 = 0 ∧
    (∀ v, writeWord s 0x04 v = s)) ∧
  (∀ s : State, s.Inv →
    ¬ (field s.status 0 0 = 1 ∧ field s.status 1 1 = 1) ∧
    (field s.status 0 0 = 1 → field s.status 7 4 = 0))

/-- R261: the error codes, which are 0 to 10 and never 11 to 15. -/
def Obligations.ErrorCodes : Prop :=
  errField none = 0 ∧ errorCode .invalidKeyLength = 1 ∧ errorCode .invalidIVLength = 2 ∧
  errorCode .invalidCiphertextLength = 3 ∧ errorCode .unsupportedMode = 4 ∧ errorCode .unsupportedPadding = 5 ∧
  errorCode .paddingVerificationFailure = 6 ∧ errorCode .noPaddingMismatch = 7 ∧ errorCode .illegalCommand = 8 ∧
  errorCode .unsupportedWordSize = 9 ∧ errorCode .messageTooLong = 10 ∧
  (∀ e, (errField e).toNat ≤ 10) ∧ (∀ e e', errField e = errField e' → e = e')

/-- R27, R28, R29: each length register is 32 bits read-write: after an admitted write while IDLE it reads the value
written, and the write changes nothing else of the machine but the bus's answer. That a write's answer carries data 0 is
the model's choice (log entry 7). -/
def Obligations.LengthRegistersHoldWhatIsWritten : Prop :=
  ∀ (s : State) (addr : Nat) (v : Word32) (off : Nat), s.seq = .idle → s.hostFault = none →
    admit32 s.config addr = some off → off ∈ [0x08, 0x0C, 0x10] →
    ∃ t, hostAccess (.write32 addr v) s = .next t ∧ readWord t off = v ∧
      t = { s with
        keylen := if off = 0x08 then v else s.keylen
        ivlen := if off = 0x0C then v else s.ivlen
        inlen := if off = 0x10 then v else s.inlen
        responses := { error := false, data := 0 } :: s.responses }

/-! ## The register window -/

/-- R52: exactly the 32-bit accesses at multiples of 4 and the 8-bit accesses from 0x100 up are admitted; every other
access gets a bus error answer with data 0, faults the host agent (R272) and changes no other state, BUSY or not. The model's
own, and not the rule's: that an access outside the window is refused too, and the form of the host's fault (log entry 6);
that a refused write's answer carries data 0 (log entry 7). -/
def Obligations.RefusedAccessChangesNothing : Prop :=
  ∀ (s : State) (a : Access), s.hostFault = none → s.config.WF →
    let refused : Prop :=
      match a with
      | .read8 x => ¬ (s.config.engineBase + 0x100 ≤ x ∧ x < s.config.engineBase + 0x40000)
      | .write8 x _ => ¬ (s.config.engineBase + 0x100 ≤ x ∧ x < s.config.engineBase + 0x40000)
      | .read32 x => ¬ (s.config.engineBase ≤ x ∧ x < s.config.engineBase + 0x40000 ∧ x % 4 = 0)
      | .write32 x _ => ¬ (s.config.engineBase ≤ x ∧ x < s.config.engineBase + 0x40000 ∧ x % 4 = 0)
      | _ => True
    ∃ t, hostAccess a s = .next t ∧
      (refused → t = { s with
        hostFault := some a
        responses := { error := true, data := 0 } :: s.responses }) ∧
      (¬ refused → t.hostFault = none ∧ ∃ v, t.responses = { error := false, data := v } :: s.responses)

/-- R272: no step clears the host agent's fault, a faulted host makes no further access (the machine stops at the next
one), and nothing else stops the machine: no step refuses and no other step faults. -/
def Obligations.HostFaultIsNeverCleared : Prop :=
  (∀ s t a, step s = .next t → s.hostFault = some a → t.hostFault = some a) ∧
  (∀ s a b rest, s.hostFault = some a → s.inputs = .access b :: rest → step s = .fault (.hostFaulted b)) ∧
  (∀ s r, step s ≠ .refused r) ∧
  (∀ s f, step s = .fault f →
    ∃ a b rest, s.hostFault = some a ∧ s.inputs = .access b :: rest ∧ f = .hostFaulted b)

/-- R53: reserved offsets and the buffers' unimplemented tails read 0 and ignore writes, by bytes and by words; writes to
STATUS, OUTLEN and the OUT window are ignored; CMD reads 0. -/
def Obligations.ReservedLocations : Prop :=
  ∀ (s : State), s.config.WF →
    let reserved : Nat → Prop := fun off =>
      (0x240 ≤ off ∧ off ≤ 0xFFFF) ∨ (0x10000 + s.config.msgMax ≤ off ∧ off ≤ 0x1FFFF) ∨
        (0x20000 + s.config.msgMax + 64 ≤ off ∧ off ≤ 0x2FFFF) ∨ (0x30000 ≤ off ∧ off ≤ 0x3FFFF)
    (∀ off v, 0x18 ≤ off → off ≤ 0xFF → readWord s off = 0 ∧ writeWord s off v = s) ∧
    (∀ off b, reserved off → readByte s off = 0 ∧ writeByte s off b = s) ∧
    (∀ off v, reserved off → reserved (off + 1) → reserved (off + 2) → reserved (off + 3) →
      readWord s off = 0 ∧ writeWord s off v = s) ∧
    (∀ v, writeWord s 0x04 v = s ∧ writeWord s 0x14 v = s) ∧
    (∀ off b, 0x20000 ≤ off → off ≤ 0x2FFFF → writeByte s off b = s) ∧
    (∀ off v, 0x20000 ≤ off → off ≤ 0x2FFFC → writeWord s off v = s) ∧
    readWord s 0x00 = 0

/-- R51: a 32-bit access of the buffers moves four bytes in little-endian lanes, both ways. A write reaches each of its
bytes that is in KEY, IV or IN and no other byte, and a 32-bit read after a write of four such bytes gives the word back; a
register's bit `i` is bit `i` of the word, read or written. That a write across the end of the IN buffer (MSG_MAX not a
multiple of 4) acts byte by byte is the model's inference from R51 and R53 (log entry 10). -/
def Obligations.LittleEndianLanes : Prop :=
  (∀ (s : State) (off : Nat), regEnd ≤ off →
    ∀ k < 4, (readWord s off).extractLsb' (8 * k) 8 = readByte s (off + k)) ∧
  (∀ (s : State) (off : Nat) (v : Word32), memWf s.mem = true → regEnd ≤ off →
    (∀ k < 4, readByte (writeWord s off v) (off + k) =
      if isInput s.config (off + k) then v.extractLsb' (8 * k) 8 else readByte s (off + k)) ∧
    (∀ x, ¬ (off ≤ x ∧ x < off + 4) → readByte (writeWord s off v) x = readByte s x) ∧
    ((∀ k < 4, isInput s.config (off + k) = true) → readWord (writeWord s off v) off = v)) ∧
  (∀ s : State, readWord s 0x04 = s.status ∧ readWord s 0x08 = s.keylen ∧ readWord s 0x0C = s.ivlen ∧
    readWord s 0x10 = s.inlen ∧ (s.seq = .idle → readWord s 0x14 = s.outlen)) ∧
  (∀ (s : State) (v : Word32), (writeWord s 0x08 v).keylen = v ∧ (writeWord s 0x0C v).ivlen = v ∧
    (writeWord s 0x10 v).inlen = v)

/-- R56: an 8-bit write to `a + k` changes bits `[8k+7:8k]` of a 32-bit read at `a`, and nothing else of it. -/
def Obligations.ByteWriteChangesItsLane : Prop :=
  ∀ (s : State) (a k : Nat) (b : Byte), memWf s.mem = true → regEnd ≤ a → k < 4 → isInput s.config (a + k) = true →
    (readWord (writeByte s (a + k) b) a).extractLsb' (8 * k) 8 = b ∧
    ∀ j < 4, j ≠ k → (readWord (writeByte s (a + k) b) a).extractLsb' (8 * j) 8 = (readWord s a).extractLsb' (8 * j) 8

/-- R54: a read has no side effect; a write has an effect only on the location it addresses, but for CMD, whose write
while IDLE starts a command and while BUSY is ignored. The frame of every host access. The model's own, and not the rule's:
that an 8-bit read's byte is zero-extended in the answer, and that a write's answer carries data 0 (log entry 7). -/
def Obligations.HostAccessTouchesItsLocationOnly : Prop :=
  (∀ (s : State) (addr off : Nat), admit32 s.config addr = some off →
    portAccess (.read32 addr) s = s.answer { error := false, data := readWord s off }) ∧
  (∀ (s : State) (addr off : Nat), admit8 s.config addr = some off →
    portAccess (.read8 addr) s = s.answer { error := false, data := (readByte s off).setWidth 32 }) ∧
  (∀ (s : State) (addr off : Nat) (b : Byte), memWf s.mem = true → admit8 s.config addr = some off →
    let t := portAccess (.write8 addr b) s
    t = { s with mem := t.mem, responses := t.responses } ∧ ∀ x, x ≠ off → memRead t.mem x = memRead s.mem x) ∧
  (∀ (s : State) (addr off : Nat) (v : Word32), memWf s.mem = true → admit32 s.config addr = some off → 0x100 ≤ off →
    let t := portAccess (.write32 addr v) s
    t = { s with mem := t.mem, responses := t.responses } ∧
      ∀ x, ¬ (off ≤ x ∧ x < off + 4) → memRead t.mem x = memRead s.mem x) ∧
  (∀ (s : State) (addr off : Nat) (v : Word32), admit32 s.config addr = some off → 0 < off → off < 0x100 →
    let t := portAccess (.write32 addr v) s
    t.mem = s.mem ∧ t.seq = s.seq ∧ t.done = s.done ∧ t.err = s.err ∧ t.outlen = s.outlen ∧
      (off ≠ 0x08 → t.keylen = s.keylen) ∧ (off ≠ 0x0C → t.ivlen = s.ivlen) ∧ (off ≠ 0x10 → t.inlen = s.inlen)) ∧
  (∀ (s : State) (addr : Nat) (v : Word32), admit32 s.config addr = some 0 →
    (s.seq = .idle → portAccess (.write32 addr v) s = (s.accept v).answer { error := false, data := 0 }) ∧
    (∀ l, s.seq = .busy l → portAccess (.write32 addr v) s = s.answer { error := false, data := 0 }))

/-- R31, R32, R33, with R51 and R52: a byte of KEY, IV or IN reads back what was last written to it while IDLE, by an
8-bit write or by a 32-bit write in its lane; nothing else that the host reads changes. That a 32-bit write across the end
of the IN buffer acts byte by byte is the model's inference (log entry 10). -/
def Obligations.BufferBytesReadBack : Prop :=
  (∀ (s : State) (addr off : Nat) (b : Byte), memWf s.mem = true → s.seq = .idle → s.hostFault = none →
    admit8 s.config addr = some off → isInput s.config off = true →
    ∃ t, hostAccess (.write8 addr b) s = .next t ∧ readByte t off = b ∧
      (∀ x, x ≠ off → readByte t x = readByte s x) ∧ ∀ x, readReg t x = readReg s x) ∧
  (∀ (s : State) (addr off : Nat) (v : Word32), memWf s.mem = true → s.seq = .idle → s.hostFault = none →
    admit32 s.config addr = some off → regEnd ≤ off →
    ∃ t, hostAccess (.write32 addr v) s = .next t ∧
      (∀ k < 4, isInput s.config (off + k) = true → readByte t (off + k) = v.extractLsb' (8 * k) 8) ∧
      ((∀ k < 4, isInput s.config (off + k) = true) → readWord t off = v) ∧
      (∀ x, isInput s.config x = false ∨ x < off ∨ off + 4 ≤ x → readByte t x = readByte s x) ∧
      ∀ x, readReg t x = readReg s x)

/-- R296: while BUSY every admitted write anywhere in the window gets a normal response and changes no state; an access
that is not admitted is refused then too. That these answers carry data 0 is the model's choice for a write (log entry 7),
and the form of the host's fault is log entry 6. -/
def Obligations.WritesWhileBusyIgnored : Prop :=
  ∀ (s : State) (l : Latch), s.seq = .busy l → s.hostFault = none →
    (∀ addr off v, admit32 s.config addr = some off →
      hostAccess (.write32 addr v) s = .next { s with responses := { error := false, data := 0 } :: s.responses }) ∧
    (∀ addr off b, admit8 s.config addr = some off →
      hostAccess (.write8 addr b) s = .next { s with responses := { error := false, data := 0 } :: s.responses }) ∧
    (∀ a, admitted s.config a = false →
      hostAccess a s = .next { s with
        hostFault := some a
        responses := { error := true, data := 0 } :: s.responses })

/-- R297: what reads return while BUSY: STATUS is BUSY alone, OUTLEN and OUT are 0, the inputs are their stored values,
which are the latched ones, CMD and reserved offsets are 0. -/
def Obligations.ReadsWhileBusy : Prop :=
  ∀ (s : State) (l : Latch), s.Inv → s.seq = .busy l →
    readWord s 0x04 = 1 ∧ readWord s 0x14 = 0 ∧
    (∀ off, 0x20000 ≤ off → off ≤ 0x2FFFF → readByte s off = 0) ∧
    readWord s 0x08 = l.keylen ∧ readWord s 0x0C = l.ivlen ∧ readWord s 0x10 = l.inlen ∧
    (∀ i < l.key.length, readByte s (0x100 + i) = l.key.getD i 0) ∧
    (∀ i < l.iv.length, readByte s (0x200 + i) = l.iv.getD i 0) ∧
    (∀ i < l.msg.length, readByte s (0x10000 + i) = l.msg.getD i 0) ∧
    (∀ off, isInput s.config off = true → readByte s off = memRead s.mem off) ∧
    readWord s 0x00 = 0 ∧ (∀ off, 0x18 ≤ off → off ≤ 0xFF → readWord s off = 0) ∧
    (∀ off, isInput s.config off = false → readByte s off = 0)

/-- R230: a 32-bit write to CMD while IDLE latches the word, the length registers and the inputs, and STATUS becomes
BUSY = 1, DONE = 0, ERR = 0; OUT and OUTLEN keep their storage; whatever the word holds. That the write's answer carries
data 0 is the model's choice (log entry 7). -/
def Obligations.AcceptanceLatchesTheInputs : Prop :=
  ∀ (s : State) (addr : Nat) (v : Word32), s.seq = .idle → s.hostFault = none → admit32 s.config addr = some 0 →
    ∃ l, hostAccess (.write32 addr v) s = .next { s with
        seq := .busy l
        done := false
        err := none
        responses := { error := false, data := 0 } :: s.responses } ∧
      l.cmd = v ∧ l.keylen = s.keylen ∧ l.ivlen = s.ivlen ∧ l.inlen = s.inlen ∧
      l.key.length = min s.keylen.toNat 256 ∧ (∀ i < l.key.length, l.key.getD i 0 = readByte s (0x100 + i)) ∧
      l.iv.length = min s.ivlen.toNat 64 ∧ (∀ i < l.iv.length, l.iv.getD i 0 = readByte s (0x200 + i)) ∧
      l.msg.length = min s.inlen.toNat s.config.msgMax ∧
      (∀ i < l.msg.length, l.msg.getD i 0 = readByte s (0x10000 + i))

/-! ## The step -/

/-- When the engine has the turn and the latched word decodes, the step is `exec` of the decoded command (10_state.md R35,
30_encoding.md R83). The model's own, and no rule's: that the engine has the turn when the list of inputs is empty or says
so (log entry 2), and `withFetchWord`, which accepts the word also from BUSY and prepares exactly that step (log entry 8). -/
def Obligations.StepRunsDecodedCommand : Prop :=
  (∀ s l i, s.seq = .busy l → decode l.cmd = .ok i →
    (s.inputs = [] → step s = exec i s) ∧
    (∀ rest, s.inputs = .engine :: rest → step s = exec i { s with inputs := rest })) ∧
  (∀ (s : State) nbits w i, decodeTableWord nbits w = some i →
    step (s.withFetchWord nbits w) = exec i { s.accept (tableWord nbits w) with inputs := s.inputs })

/-- R23: only acceptance, completion and reset write BUSY, DONE or ERR. -/
def Obligations.OnlyThreeEventsWriteStatus : Prop :=
  ∀ s t, step s = .next t → ¬ (t.isBusy = s.isBusy ∧ t.done = s.done ∧ t.err = s.err) →
    (∃ addr v rest, s.inputs = .access (.write32 addr v) :: rest ∧ admit32 s.config addr = some 0 ∧ s.seq = .idle ∧
      t.isBusy = true) ∨
    ((∃ l, s.seq = .busy l) ∧ (s.inputs = [] ∨ ∃ rest, s.inputs = .engine :: rest) ∧ t.seq = .idle ∧ t.done = true) ∨
    (∃ rest, s.inputs = .rst :: rest)

/-- R61 item 2, R298 item 3: OUT and OUTLEN keep a command's results until the next command completes or RST: no other
step changes their storage, and while IDLE the host reads exactly it. -/
def Obligations.OutputStaysUntilTheNextCommand : Prop :=
  (∀ s t, s.Inv → step s = .next t →
    (t.outlen = s.outlen ∧ ∀ k < s.config.msgMax + 64, outByte t k = outByte s k) ∨
    ((∃ l, s.seq = .busy l) ∧ t.seq = .idle ∧ (s.inputs = [] ∨ ∃ rest, s.inputs = .engine :: rest)) ∨
    (∃ rest, s.inputs = .rst :: rest)) ∧
  (∀ s : State, s.Inv → s.seq = .idle →
    readWord s 0x14 = s.outlen ∧ ∀ k < s.config.msgMax + 64, readByte s (0x20000 + k) = outByte s k)

/-- R58: the engine never writes KEY, IV, IN, KEYLEN, IVLEN or INLEN, and writes OUT, OUTLEN and STATUS only at
acceptance (STATUS) and at completion. -/
def Obligations.EngineNeverWritesInputs : Prop :=
  (∀ s t, s.Inv → engineStep s = .next t →
    t.keylen = s.keylen ∧ t.ivlen = s.ivlen ∧ t.inlen = s.inlen ∧
    (∀ x, isInput s.config x = true → memRead t.mem x = memRead s.mem x) ∧
    (s.seq = .idle → t = s)) ∧
  (∀ (s : State) v,
    (s.accept v).mem = s.mem ∧ (s.accept v).outlen = s.outlen ∧ (s.accept v).keylen = s.keylen ∧
    (s.accept v).ivlen = s.ivlen ∧ (s.accept v).inlen = s.inlen)

/-- R299: the engine's step is enabled in every BUSY state and completes the command; no access of the host disables it
or changes what is latched; only reset ends a command without completion. -/
def Obligations.EveryAcceptedCommandCompletes : Prop :=
  (∀ s l, s.seq = .busy l → ∃ t, engineStep s = .next t ∧ t.seq = .idle ∧ t.done = true) ∧
  (∀ s t l a, s.seq = .busy l → hostAccess a s = .next t → t.seq = .busy l ∧ t.mem = s.mem) ∧
  (∀ s t l, s.seq = .busy l → step s = .next t → t.seq = .busy l ∨ t.done = true ∨ ∃ rest, s.inputs = .rst :: rest)

/-- R232: completion, whatever `Run` returns, with its frame: OUT, OUTLEN and STATUS, and nothing else that the host or a
rule can see. -/
def Obligations.CompletionWritesOutOutlenStatus : Prop :=
  ∀ s l, s.Inv → s.seq = .busy l →
    ∃ t, engineStep s = .next t ∧ t.seq = .idle ∧
      (match rawRun s.config.msgMax l (Config.entropy s.serial) with
        | .ok out =>
          out.length ≤ s.config.msgMax + 64 ∧ t.outlen.toNat = out.length ∧ t.status = 2 ∧
          (∀ k < out.length, outByte t k = out.getD k 0) ∧
          (∀ k, out.length ≤ k → k < s.config.msgMax + 64 → outByte t k = 0)
        | .error e =>
          t.outlen = 0 ∧ t.status = 2 + ((errorCode e).setWidth 32 <<< 4) ∧
          (∀ k < s.config.msgMax + 64, outByte t k = 0)) ∧
      t.config = s.config ∧ t.keylen = s.keylen ∧ t.ivlen = s.ivlen ∧ t.inlen = s.inlen ∧
      t.hostFault = s.hostFault ∧ t.responses = s.responses ∧ t.inputs = s.inputs ∧
      (∀ x, ¬ (0x20000 ≤ x ∧ x < 0x20000 + s.config.msgMax + 64) → memRead t.mem x = memRead s.mem x)

/-- R231: the engine's step from BUSY is completion with the pseudocode's `Run` on the latch's raw bits: the decoder, the
dispatch and the fourteen meanings together refine it, on every word. -/
def Obligations.EngineStepRefinesRun : Prop :=
  ∀ s l, s.seq = .busy l →
    engineStep s = .next (s.complete (rawRun s.config.msgMax l (Config.entropy s.serial)))

/-- R271, R274: the one error reported is the first in the priority order; past `Validate`, the only error is
PaddingVerificationFailure, exactly when a decrypt command in ECB or CBC with PKCS5 or BIT finds a decrypted message that
`removePadding` rejects. -/
def Obligations.ErrorPriority : Prop :=
  ∀ s l, s.Inv → s.seq = .busy l →
    ∃ t, engineStep s = .next t ∧
      (∀ e, rawValidate s.config.msgMax l = some e → t.err = some e) ∧
      (rawValidate s.config.msgMax l = none → ∀ e, t.err = some e ↔
        e = .paddingVerificationFailure ∧ field l.cmd 1 0 = 2 ∧ field l.cmd 5 3 ≤ 1 ∧
        (field l.cmd 8 6 = 1 ∨ field l.cmd 8 6 = 4) ∧
        removePadding
          (modeDec (rawMode (field l.cmd 5 3)) (rawE l) (rawD l) (rawBlockSize l.cmd) l.msg
            (l.iv.take (rawBlockSize l.cmd)))
          (rawPadding (field l.cmd 8 6)) (rawBlockSize l.cmd) = .error .paddingVerificationFailure)

/-- R81: every word written to CMD while IDLE is accepted, the command it starts completes, and the four illegal classes
complete with their error, in this order; a word of neither of the first two decodes to a command of the table. That the
write's answer carries data 0 is the model's choice (log entry 7). -/
def Obligations.IllegalClasses : Prop :=
  ∀ (s : State) (addr : Nat) (v : Word32), s.seq = .idle → s.hostFault = none → admit32 s.config addr = some 0 →
    let c1 : Prop := field v 1 0 = 0 ∨ field v 1 0 = 3 ∨ field v 15 12 ≠ 0 ∨ field v 31 24 ≠ 0
    let c2 : Prop := 5 ≤ field v 5 3 ∨ (field v 2 2 = 0 ∧ 2 ≤ field v 5 3)
    let c3 : Prop := field v 2 2 = 1 ∧ 5 ≤ field v 11 9
    let c4 : Prop := field v 5 3 ≤ 1 ∧ 5 ≤ field v 8 6
    ∃ u t, hostAccess (.write32 addr v) s = .next u ∧ u.responses = { error := false, data := 0 } :: s.responses ∧
      engineStep u = .next t ∧ t.seq = .idle ∧ t.done = true ∧
      (c1 → t.err = some .illegalCommand ∧ decode v = .error .illegalCommand) ∧
      (¬ c1 → c2 → t.err = some .unsupportedMode ∧ decode v = .error .unsupportedMode) ∧
      (¬ c1 → ¬ c2 → c3 → t.err = some .unsupportedWordSize) ∧
      (¬ c1 → ¬ c2 → ¬ c3 → c4 → t.err = some .unsupportedPadding) ∧
      (¬ c1 → ¬ c2 → ∃ i, decode v = .ok i ∧ i.WellFormed)

/-- R80: a word matches a row of the table when its masked bits are the row's match, and it then decodes to the row's
command with the operands the pattern names. -/
def Obligations.OpcodeTable : Prop :=
  ∀ w : Word32,
    let m := w &&& 0xFF00F03F
    let p := padOfCode (w.extractLsb' 6 3)
    let ws := wselOfCode (w.extractLsb' 9 3)
    let n := w.extractLsb' 16 8
    (m = 0x00000001 ↔ decode w = .ok (.aEncEcb p)) ∧
    (m = 0x00000009 ↔ decode w = .ok (.aEncCbc p)) ∧
    (m = 0x00000002 ↔ decode w = .ok (.aDecEcb p)) ∧
    (m = 0x0000000A ↔ decode w = .ok (.aDecCbc p)) ∧
    (m = 0x00000005 ↔ decode w = .ok (.bEncEcb p ws n)) ∧
    (m = 0x0000000D ↔ decode w = .ok (.bEncCbc p ws n)) ∧
    (m = 0x00000015 ↔ decode w = .ok (.bEncCfb ws n)) ∧
    (m = 0x0000001D ↔ decode w = .ok (.bEncOfb ws n)) ∧
    (m = 0x00000025 ↔ decode w = .ok (.bEncCtr ws n)) ∧
    (m = 0x00000006 ↔ decode w = .ok (.bDecEcb p ws n)) ∧
    (m = 0x0000000E ↔ decode w = .ok (.bDecCbc p ws n)) ∧
    (m = 0x00000016 ↔ decode w = .ok (.bDecCfb ws n)) ∧
    (m = 0x0000001E ↔ decode w = .ok (.bDecOfb ws n)) ∧
    (m = 0x00000026 ↔ decode w = .ok (.bDecCtr ws n)) ∧
    (∀ i, decode w = .ok i →
      m ∈ ([0x1, 0x9, 0x2, 0xA, 0x5, 0xD, 0x15, 0x1D, 0x25, 0x6, 0xE, 0x16, 0x1E, 0x26] : List Word32))

/-- Decode and encode agree: every well-formed command, with every operand, is read back from its word and from its
word's bytes (30_encoding.md R70 to R77, R83, R84). -/
def Obligations.DecodeEncodeRoundTrip : Prop :=
  ∀ i : Instr, i.WellFormed →
    decode (encode i) = .ok i ∧ ∀ rest, decodeBytes (wordBytes (encode i) ++ rest) = .ok (i, rest)

/-- Words written out from the table decode to their commands (30_encoding.md R84; 95_test_vectors.md 5.1). -/
def Obligations.TableWordsDecode : Prop :=
  decode 0x00000049 = .ok (.aEncCbc (.scheme .pkcs5)) ∧
  decode 0x00140405 = .ok (.bEncEcb (.scheme .no) (.size .w32) 20) ∧
  decode 0x00140426 = .ok (.bDecCtr (.size .w32) 20) ∧
  decode 0x0018064E = .ok (.bDecCbc (.scheme .pkcs5) (.size .w64) 24) ∧
  decode 0x00FF081E = .ok (.bDecOfb (.size .w128) 255) ∧
  decode 0x00001001 = .error .illegalCommand ∧
  decode 0x00000011 = .error .unsupportedMode

/-- R79: a field the command does not use gives the same result whatever it holds: WSEL and ROUNDS for Cipher A, PAD in
the stream modes, and the IV buffer and IVLEN in ECB. -/
def Obligations.IgnoredFields : Prop :=
  (∀ (s : State) (l : Latch) (v : Word32), field l.cmd 2 2 = 0 → v &&& 0xFF00F1FF = l.cmd &&& 0xFF00F1FF →
    engineStep { s with seq := .busy { l with cmd := v } } = engineStep { s with seq := .busy l }) ∧
  (∀ (s : State) (l : Latch) (v : Word32), 2 ≤ field l.cmd 5 3 → v &&& 0xFFFFFE3F = l.cmd &&& 0xFFFFFE3F →
    engineStep { s with seq := .busy { l with cmd := v } } = engineStep { s with seq := .busy l }) ∧
  (∀ (s : State) (l : Latch) (iv : Bytes) (ivlen : Word32), field l.cmd 5 3 = 0 →
    engineStep { s with seq := .busy { l with iv := iv, ivlen := ivlen } } = engineStep { s with seq := .busy l })

/-- The frame of all fourteen commands: but for OUT, OUTLEN, STATUS, the sequencer, the internal stores and the model's
free-value counter, a command leaves everything as it was: the parameters, the length registers, every byte of memory
outside OUT (45_commands.md R232, R233). From IDLE nothing changes (10_state.md R35; log entry 1). -/
def Obligations.CommandFrame : Prop :=
  ∀ (i : Instr) (s t : State), s.Inv → exec i s = .next t →
    t.config = s.config ∧ t.keylen = s.keylen ∧ t.ivlen = s.ivlen ∧ t.inlen = s.inlen ∧
    t.hostFault = s.hostFault ∧ t.responses = s.responses ∧ t.inputs = s.inputs ∧
    (∀ x, ¬ (outBase ≤ x ∧ x < outBase + outSize s.config) → memRead t.mem x = memRead s.mem x) ∧
    (s.seq = .idle → t = s)

/-- R233: a command run twice on the same latch gives the same STATUS, OUTLEN and OUT, unless it draws entropy. -/
def Obligations.CommandsAreDeterministic : Prop :=
  ∀ (i : Instr) (s s' : State), drawsEntropy i = false → s.Inv → s'.Inv → s.config = s'.config → s.seq = s'.seq →
    s.isBusy = true →
    ∃ t t', exec i s = .next t ∧ exec i s' = .next t' ∧ t.status = t'.status ∧ t.outlen = t'.outlen ∧
      ∀ k < outSize s.config, outByte t k = outByte t' k

/-- The invariant of the machine holds at reset. -/
def Obligations.InvariantAtReset : Prop := State.reset.Inv

/-- Every step keeps the invariant: the canonical memory, only buffer bytes stored, OUTLEN's bound (10_state.md R30), OUT
zero from OUTLEN on (R34), BUSY and DONE apart and ERR 0 while BUSY (R26), the latch equal to the inputs (R35). -/
def Obligations.StepKeepsInvariant : Prop :=
  ∀ s t, s.Inv → step s = .next t → t.Inv

/-- A host that makes only admitted accesses never stops the machine, for any number of steps and in any order of host
accesses, engine turns and resets. -/
def Obligations.AdmittedHostNeverFaults : Prop :=
  ∀ (k : Nat) (s : State), s.Inv → s.HostSafe →
    ∃ t : State, Host.Core.run Sys2Proof.core k s = .next t ∧ t.Inv ∧ t.HostSafe

/-! ## The commands complete -/

/-- R234, R235: A.ENC.ECB and A.ENC.CBC, every PAD, with their errors and OUTLEN. -/
def Obligations.CipherAEncryptCommands : Prop :=
  ∀ s l, s.seq = .busy l →
    (∀ c, exec (.aEncEcb (.unrecognized c)) s = .next (s.completeError .unsupportedPadding) ∧
      exec (.aEncCbc (.unrecognized c)) s = .next (s.completeError .unsupportedPadding)) ∧
    (∀ p, let m := l.msg ++ padBytes l.msg.length p 8 (Config.entropy s.serial)
      (l.keylen ≠ 10 → l.keylen ≠ 16 →
        exec (.aEncEcb (.scheme p)) s = .next (s.completeError .invalidKeyLength) ∧
        exec (.aEncCbc (.scheme p)) s = .next (s.completeError .invalidKeyLength)) ∧
      (l.keylen = 10 ∨ l.keylen = 16 →
        (l.ivlen ≠ 8 → exec (.aEncCbc (.scheme p)) s = .next (s.completeError .invalidIVLength)) ∧
        (s.config.msgMax < l.inlen.toNat →
          exec (.aEncEcb (.scheme p)) s = .next (s.completeError .messageTooLong) ∧
          (l.ivlen = 8 → exec (.aEncCbc (.scheme p)) s = .next (s.completeError .messageTooLong))) ∧
        (l.inlen.toNat ≤ s.config.msgMax → p = .no → l.inlen.toNat % 8 ≠ 0 →
          exec (.aEncEcb (.scheme p)) s = .next (s.completeError .noPaddingMismatch) ∧
          (l.ivlen = 8 → exec (.aEncCbc (.scheme p)) s = .next (s.completeError .noPaddingMismatch))) ∧
        (l.inlen.toNat ≤ s.config.msgMax → l.msg.length = l.inlen.toNat → (p = .no → l.inlen.toNat % 8 = 0) →
          exec (.aEncEcb (.scheme p)) s =
            .next (s.completeOk ((blocks 8 m).flatMap (encA (scheduleA l.key)))) ∧
          (l.ivlen = 8 → exec (.aEncCbc (.scheme p)) s =
            .next (s.completeOk (cbcEnc (encA (scheduleA l.key)) (l.iv.take 8) (blocks 8 m)))) ∧
          m.length = l.inlen.toNat + padLen l.inlen.toNat p 8)))

/-- R236, R237: A.DEC.ECB and A.DEC.CBC, every PAD, with their errors. -/
def Obligations.CipherADecryptCommands : Prop :=
  ∀ s l, s.seq = .busy l →
    (∀ c, exec (.aDecEcb (.unrecognized c)) s = .next (s.completeError .unsupportedPadding) ∧
      exec (.aDecCbc (.unrecognized c)) s = .next (s.completeError .unsupportedPadding)) ∧
    (∀ p,
      (l.keylen ≠ 10 → l.keylen ≠ 16 →
        exec (.aDecEcb (.scheme p)) s = .next (s.completeError .invalidKeyLength) ∧
        exec (.aDecCbc (.scheme p)) s = .next (s.completeError .invalidKeyLength)) ∧
      (l.keylen = 10 ∨ l.keylen = 16 →
        (l.ivlen ≠ 8 → exec (.aDecCbc (.scheme p)) s = .next (s.completeError .invalidIVLength)) ∧
        (s.config.msgMax < l.inlen.toNat →
          exec (.aDecEcb (.scheme p)) s = .next (s.completeError .messageTooLong) ∧
          (l.ivlen = 8 → exec (.aDecCbc (.scheme p)) s = .next (s.completeError .messageTooLong))) ∧
        (l.inlen.toNat ≤ s.config.msgMax → l.inlen.toNat % 8 ≠ 0 →
          exec (.aDecEcb (.scheme p)) s = .next (s.completeError .invalidCiphertextLength) ∧
          (l.ivlen = 8 → exec (.aDecCbc (.scheme p)) s = .next (s.completeError .invalidCiphertextLength))) ∧
        (l.inlen.toNat ≤ s.config.msgMax → l.inlen.toNat % 8 = 0 →
          exec (.aDecEcb (.scheme p)) s =
            .next (s.complete (removePadding ((blocks 8 l.msg).flatMap (decA (scheduleA l.key))) p 8)) ∧
          (l.ivlen = 8 → exec (.aDecCbc (.scheme p)) s =
            .next (s.complete
              (removePadding (cbcDec (decA (scheduleA l.key)) (l.iv.take 8) (blocks 8 l.msg)) p 8))))))

/-- R238, R239: B.ENC.ECB and B.ENC.CBC, every PAD, WSEL and ROUNDS, with their errors and OUTLEN. -/
def Obligations.CipherBEncryptCommands : Prop :=
  ∀ s l, s.seq = .busy l → ∀ r : BitVec 8,
    (∀ c p, exec (.bEncEcb p (.unsupported c) r) s = .next (s.completeError .unsupportedWordSize) ∧
      exec (.bEncCbc p (.unsupported c) r) s = .next (s.completeError .unsupportedWordSize)) ∧
    (∀ z c, exec (.bEncEcb (.unrecognized c) (.size z) r) s = .next (s.completeError .unsupportedPadding) ∧
      exec (.bEncCbc (.unrecognized c) (.size z) r) s = .next (s.completeError .unsupportedPadding)) ∧
    (∀ z p,
      let w := 8 * 2 ^ z.code.toNat
      let bs := 4 * (w / 8)
      let E := encB r.toNat (scheduleB w r.toNat l.key)
      let m := l.msg ++ padBytes l.msg.length p bs (Config.entropy s.serial)
      (255 < l.keylen.toNat →
        exec (.bEncEcb (.scheme p) (.size z) r) s = .next (s.completeError .invalidKeyLength) ∧
        exec (.bEncCbc (.scheme p) (.size z) r) s = .next (s.completeError .invalidKeyLength)) ∧
      (l.keylen.toNat ≤ 255 →
        (l.ivlen.toNat ≠ bs →
          exec (.bEncCbc (.scheme p) (.size z) r) s = .next (s.completeError .invalidIVLength)) ∧
        (s.config.msgMax < l.inlen.toNat →
          exec (.bEncEcb (.scheme p) (.size z) r) s = .next (s.completeError .messageTooLong) ∧
          (l.ivlen.toNat = bs →
            exec (.bEncCbc (.scheme p) (.size z) r) s = .next (s.completeError .messageTooLong))) ∧
        (l.inlen.toNat ≤ s.config.msgMax → p = .no → l.inlen.toNat % bs ≠ 0 →
          exec (.bEncEcb (.scheme p) (.size z) r) s = .next (s.completeError .noPaddingMismatch) ∧
          (l.ivlen.toNat = bs →
            exec (.bEncCbc (.scheme p) (.size z) r) s = .next (s.completeError .noPaddingMismatch))) ∧
        (l.inlen.toNat ≤ s.config.msgMax → l.msg.length = l.inlen.toNat → (p = .no → l.inlen.toNat % bs = 0) →
          exec (.bEncEcb (.scheme p) (.size z) r) s = .next (s.completeOk ((blocks bs m).flatMap E)) ∧
          (l.ivlen.toNat = bs → exec (.bEncCbc (.scheme p) (.size z) r) s =
            .next (s.completeOk (cbcEnc E (l.iv.take bs) (blocks bs m)))) ∧
          m.length = l.inlen.toNat + padLen l.inlen.toNat p bs)))

/-- R243, R244: B.DEC.ECB and B.DEC.CBC, every PAD, WSEL and ROUNDS, with their errors. -/
def Obligations.CipherBDecryptCommands : Prop :=
  ∀ s l, s.seq = .busy l → ∀ r : BitVec 8,
    (∀ c p, exec (.bDecEcb p (.unsupported c) r) s = .next (s.completeError .unsupportedWordSize) ∧
      exec (.bDecCbc p (.unsupported c) r) s = .next (s.completeError .unsupportedWordSize)) ∧
    (∀ z c, exec (.bDecEcb (.unrecognized c) (.size z) r) s = .next (s.completeError .unsupportedPadding) ∧
      exec (.bDecCbc (.unrecognized c) (.size z) r) s = .next (s.completeError .unsupportedPadding)) ∧
    (∀ z p,
      let w := 8 * 2 ^ z.code.toNat
      let bs := 4 * (w / 8)
      let D := decB r.toNat (scheduleB w r.toNat l.key)
      (255 < l.keylen.toNat →
        exec (.bDecEcb (.scheme p) (.size z) r) s = .next (s.completeError .invalidKeyLength) ∧
        exec (.bDecCbc (.scheme p) (.size z) r) s = .next (s.completeError .invalidKeyLength)) ∧
      (l.keylen.toNat ≤ 255 →
        (l.ivlen.toNat ≠ bs →
          exec (.bDecCbc (.scheme p) (.size z) r) s = .next (s.completeError .invalidIVLength)) ∧
        (s.config.msgMax < l.inlen.toNat →
          exec (.bDecEcb (.scheme p) (.size z) r) s = .next (s.completeError .messageTooLong) ∧
          (l.ivlen.toNat = bs →
            exec (.bDecCbc (.scheme p) (.size z) r) s = .next (s.completeError .messageTooLong))) ∧
        (l.inlen.toNat ≤ s.config.msgMax → l.inlen.toNat % bs ≠ 0 →
          exec (.bDecEcb (.scheme p) (.size z) r) s = .next (s.completeError .invalidCiphertextLength) ∧
          (l.ivlen.toNat = bs →
            exec (.bDecCbc (.scheme p) (.size z) r) s = .next (s.completeError .invalidCiphertextLength))) ∧
        (l.inlen.toNat ≤ s.config.msgMax → l.inlen.toNat % bs = 0 →
          exec (.bDecEcb (.scheme p) (.size z) r) s =
            .next (s.complete (removePadding ((blocks bs l.msg).flatMap D) p bs)) ∧
          (l.ivlen.toNat = bs → exec (.bDecCbc (.scheme p) (.size z) r) s =
            .next (s.complete (removePadding (cbcDec D (l.iv.take bs) (blocks bs l.msg)) p bs))))))

/-- R240 to R242 and R245 to R247: the six stream commands, every WSEL and ROUNDS, any message length, with their errors;
the output is as long as the message, and decryption calls `E`, never `D`. -/
def Obligations.CipherBStreamCommands : Prop :=
  ∀ s l, s.seq = .busy l → ∀ r : BitVec 8, ∀ i : WselField → BitVec 8 → Instr,
    i ∈ [Instr.bEncCfb, Instr.bEncOfb, Instr.bEncCtr, Instr.bDecCfb, Instr.bDecOfb, Instr.bDecCtr] →
    (∀ c, exec (i (.unsupported c) r) s = .next (s.completeError .unsupportedWordSize)) ∧
    (∀ z,
      let w := 8 * 2 ^ z.code.toNat
      let bs := 4 * (w / 8)
      (255 < l.keylen.toNat → exec (i (.size z) r) s = .next (s.completeError .invalidKeyLength)) ∧
      (l.keylen.toNat ≤ 255 → l.ivlen.toNat ≠ bs →
        exec (i (.size z) r) s = .next (s.completeError .invalidIVLength)) ∧
      (l.keylen.toNat ≤ 255 → l.ivlen.toNat = bs → s.config.msgMax < l.inlen.toNat →
        exec (i (.size z) r) s = .next (s.completeError .messageTooLong)) ∧
      (l.keylen.toNat ≤ 255 → l.ivlen.toNat = bs → l.inlen.toNat ≤ s.config.msgMax →
        let E := encB r.toNat (scheduleB w r.toNat l.key)
        let P := blocks bs (l.msg ++ zeros ((bs - l.msg.length % bs) % bs))
        let iv := l.iv.take bs
        ∃ out, exec (i (.size z) r) s = .next (s.completeOk out) ∧ out.length = l.msg.length ∧
          (i = Instr.bEncCfb → out = (cfbEnc E iv P).take l.msg.length) ∧
          (i = Instr.bDecCfb → out = (cfbDec E iv P).take l.msg.length) ∧
          (i = Instr.bEncOfb ∨ i = Instr.bDecOfb → out = (ofb E iv P).take l.msg.length) ∧
          (i = Instr.bEncCtr ∨ i = Instr.bDecCtr → out = (ctrMode E iv P).take l.msg.length)))

/-- The headline: a message encrypted by any of the seven encrypt commands, under a padding that can be removed, is what
the matching decrypt command gives back under the same key and IV (95_test_vectors.md S1; 43_padding.md R189). -/
def Obligations.DecryptGivesBackTheMessage : Prop :=
  ∀ (i : Instr) (s t s' : State) (l l' : Latch), reversible i = true →
    s.Inv → s.seq = .busy l → exec i s = .next t → t.err = none →
    s'.Inv → s'.seq = .busy l' → s'.config = s.config → l'.key = l.key → l'.keylen = l.keylen → l'.iv = l.iv →
    l'.ivlen = l.ivlen → l'.inlen = t.outlen → l'.msg = memBytes t.mem outBase t.outlen.toNat →
    t.outlen.toNat ≤ s.config.msgMax →
    ∃ t', exec (decryptOf i) s' = .next t' ∧ t'.err = none ∧ t'.outlen = l.inlen ∧
      memBytes t'.mem outBase t'.outlen.toNat = l.msg

/-! ## Word arithmetic (40_word_arith.md) -/

/-- R102 to R105: the rotations' amount and results, bit by bit, for the engine's word sizes and for Cipher A's key
register, and that a right rotation undoes a left one at every width. -/
def Obligations.Rotations : Prop :=
  (∀ w ∈ wordSizes, ∀ n, ramt n w = n % w) ∧
  (∀ w ∈ wordSizes, ∀ (x : BitVec w) (n : Nat),
    (ramt n w ≠ 0 → rotl x n = (x <<< ramt n w) ||| (x >>> (w - ramt n w))) ∧
    (ramt n w ≠ 0 → rotr x n = (x >>> ramt n w) ||| (x <<< (w - ramt n w))) ∧
    (ramt n w = 0 → rotl x n = x ∧ rotr x n = x) ∧
    (∀ i < w, (rotl x n).getLsbD i = x.getLsbD ((i + w - n % w) % w)) ∧
    (∀ i < w, (rotr x n).getLsbD i = x.getLsbD ((i + n % w) % w)) ∧
    rotl x (w - 1) = rotr x 1) ∧
  (∀ (w : Nat) (x : BitVec w) (n : Nat), rotr (rotl x n) n = x ∧ rotl (rotr x n) n = x) ∧
  (∀ W ∈ [80, 128], ∀ (x : BitVec W) (n i : Nat), i < W → (rotlK x n).getLsbD i = x.getLsbD ((i + W - n % W) % W))

/-- R108 to R111: the two byte orders as sums and as bytes, and that each conversion undoes the other. -/
def Obligations.ByteOrderConversions : Prop :=
  (∀ s : Bytes, bytesToWordBE s = ∑ i ∈ Finset.range s.length, (s.getD i 0).toNat * 2 ^ (8 * (s.length - 1 - i)) ∧
    bytesToWordLE s = ∑ i ∈ Finset.range s.length, (s.getD i 0).toNat * 2 ^ (8 * i)) ∧
  (∀ x n, x < 2 ^ (8 * n) →
    (wordToBytesBE x n).length = n ∧ (wordToBytesLE x n).length = n ∧
    (∀ i < n, ((wordToBytesBE x n).getD i 0).toNat = x / 2 ^ (8 * (n - 1 - i)) % 256 ∧
      ((wordToBytesLE x n).getD i 0).toNat = x / 2 ^ (8 * i) % 256) ∧
    bytesToWordBE (wordToBytesBE x n) = x ∧ bytesToWordLE (wordToBytesLE x n) = x) ∧
  (∀ s : Bytes, wordToBytesBE (bytesToWordBE s) s.length = s ∧ wordToBytesLE (bytesToWordLE s) s.length = s)

/-! ## Cipher A (41_cipher_a.md) -/

/-- R122, R123: the S-layer replaces each nibble by the S-box, and the inverse layer undoes it. -/
def Obligations.SubstitutionLayer : Prop :=
  (∀ x : BitVec 4, sboxAInv (sboxA x) = x ∧ sboxA (sboxAInv x) = x) ∧
  (∀ (s : BitVec 64) (i : Nat), i < 16 →
    nibble (sLayer s) i = sboxA (nibble s i) ∧ nibble (sLayerInv s) i = sboxAInv (nibble s i)) ∧
  (∀ s : BitVec 64, sLayerInv (sLayer s) = s ∧ sLayer (sLayerInv s) = s) ∧
  sLayer 0 = 0xCCCCCCCCCCCCCCCC ∧ sLayer 0x0123456789ABCDEF = 0xC56B90AD3EF84712

/-- R124, R125: bit `i` moves to position `P(i) = 16i mod 63` (63 stays), bit `j` moves back to `4j mod 63`, and each
layer undoes the other. -/
def Obligations.PermutationLayer : Prop :=
  (∀ (s : BitVec 64) (i : Nat), i < 63 → (pLayer s).getLsbD ((16 * i) % 63) = s.getLsbD i) ∧
  (∀ s : BitVec 64, (pLayer s).getLsbD 63 = s.getLsbD 63) ∧
  (∀ (s : BitVec 64) (j : Nat), j < 63 → (pLayerInv s).getLsbD ((4 * j) % 63) = s.getLsbD j) ∧
  (∀ s : BitVec 64, (pLayerInv s).getLsbD 63 = s.getLsbD 63) ∧
  (∀ s : BitVec 64, pLayerInv (pLayer s) = s ∧ pLayer (pLayerInv s) = s)

/-- R127, R128: the key register updates, field by field. -/
def Obligations.KeyRegisterUpdates : Prop :=
  (∀ (k : BitVec 80) (rc : Nat), 1 ≤ rc → rc ≤ 31 →
    let k' := rotlK k 61
    (upd80 k rc).extractLsb' 76 4 = sboxA (k'.extractLsb' 76 4) ∧
    (upd80 k rc).extractLsb' 15 5 = k'.extractLsb' 15 5 ^^^ BitVec.ofNat 5 rc ∧
    (upd80 k rc).extractLsb' 20 56 = k'.extractLsb' 20 56 ∧
    (upd80 k rc).extractLsb' 0 15 = k'.extractLsb' 0 15) ∧
  (∀ (k : BitVec 128) (rc : Nat), 1 ≤ rc → rc ≤ 31 →
    let k' := rotlK k 61
    (upd128 k rc).extractLsb' 124 4 = sboxA (k'.extractLsb' 124 4) ∧
    (upd128 k rc).extractLsb' 120 4 = sboxA (k'.extractLsb' 120 4) ∧
    (upd128 k rc).extractLsb' 62 5 = k'.extractLsb' 62 5 ^^^ BitVec.ofNat 5 rc ∧
    (upd128 k rc).extractLsb' 67 53 = k'.extractLsb' 67 53 ∧
    (upd128 k rc).extractLsb' 0 62 = k'.extractLsb' 0 62)

/-- R126, R129: 32 round keys, each the top 64 bits of the register, which starts as the big-endian key and is updated
with the counters 1 to 31. -/
def Obligations.RoundKeys : Prop :=
  (∀ key : Bytes, key.length = 10 → (scheduleA key).length = 32 ∧ ∃ K : Nat → BitVec 80,
    K 1 = BitVec.ofNat 80 (bytesToWordBE key) ∧ (∀ i, 1 ≤ i → i ≤ 31 → K (i + 1) = upd80 (K i) i) ∧
    ∀ i, 1 ≤ i → i ≤ 32 → (scheduleA key).getD (i - 1) 0 = (K i).extractLsb' 16 64) ∧
  (∀ key : Bytes, key.length = 16 → (scheduleA key).length = 32 ∧ ∃ K : Nat → BitVec 128,
    K 1 = BitVec.ofNat 128 (bytesToWordBE key) ∧ (∀ i, 1 ≤ i → i ≤ 31 → K (i + 1) = upd128 (K i) i) ∧
    ∀ i, 1 ≤ i → i ≤ 32 → (scheduleA key).getD (i - 1) 0 = (K i).extractLsb' 64 64)

/-- R131, R132: the 31 rounds of EA and DA as the pseudocode runs them, and that each undoes the other on every block. -/
def Obligations.CipherABlockTransforms : Prop :=
  ∀ (rk : List (BitVec 64)) (block : Bytes), rk.length = 32 → block.length = 8 →
    (∃ st : Nat → BitVec 64, st 1 = BitVec.ofNat 64 (bytesToWordBE block) ∧
      (∀ i, 1 ≤ i → i ≤ 31 → st (i + 1) = pLayer (sLayer (st i ^^^ rk.getD (i - 1) 0))) ∧
      encA rk block = wordToBytesBE (st 32 ^^^ rk.getD 31 0).toNat 8) ∧
    (∃ st : Nat → BitVec 64, st 31 = BitVec.ofNat 64 (bytesToWordBE block) ^^^ rk.getD 31 0 ∧
      (∀ i, 1 ≤ i → i ≤ 31 → st (i - 1) = sLayerInv (pLayerInv (st i)) ^^^ rk.getD (i - 1) 0) ∧
      decA rk block = wordToBytesBE (st 0).toNat 8) ∧
    decA rk (encA rk block) = block ∧ encA rk (decA rk block) = block

/-! ## Cipher B (42_cipher_b.md) -/

/-- R152, R153: the master values, and the constants: their top `w` bits, made odd, with the table's values. -/
def Obligations.CipherBConstants : Prop :=
  masterP = 0xB7E151628AED2A6ABF7158809CF4F3C762E7160F38B4DA56A784D9045190CFEF ∧
  masterQ = 0x9E3779B97F4A7C15F39CC0605CEDC8341082276BF3A27251F86C6A11D0C18E95 ∧
  constP 8 = 0xB7 ∧ constQ 8 = 0x9F ∧ constP 16 = 0xB7E1 ∧ constQ 16 = 0x9E37 ∧
  constP 32 = 0xB7E15163 ∧ constQ 32 = 0x9E3779B9 ∧
  constP 64 = 0xB7E151628AED2A6B ∧ constQ 64 = 0x9E3779B97F4A7C15 ∧
  constP 128 = 0xB7E151628AED2A6ABF7158809CF4F3C7 ∧ constQ 128 = 0x9E3779B97F4A7C15F39CC0605CEDC835 ∧
  (∀ w ∈ wordSizes, (constP w).toNat = (masterP / 2 ^ (256 - w)) ||| 1 ∧ (constQ w).toNat = (masterQ / 2 ^ (256 - w)) ||| 1)

/-- R154, R155: `c` key words, each little-endian from the key padded with zeros to whole words. -/
def Obligations.KeyWords : Prop :=
  ∀ w ∈ wordSizes, ∀ key : Bytes, key.length ≤ 255 →
    let u := w / 8
    let L := keyWordsB w key
    1 ≤ L.length ∧ key.length ≤ L.length * u ∧ (key ≠ [] → (L.length - 1) * u < key.length) ∧
    (key = [] → L.length = 1) ∧
    ∀ k < L.length, ∀ j < u, (L.getD k 0).extractLsb' (8 * j) 8 = key.getD (k * u + j) 0

/-- R156, R157: before mixing, `S[k] = P_w + k * Q_w`; the mixing loop, iteration by iteration, `3 * max(c, t)` times;
the schedule is its final `S`. -/
def Obligations.KeyMixing : Prop :=
  ∀ w ∈ wordSizes, ∀ (r : Nat) (key : Bytes), r ≤ 255 → key.length ≤ 255 →
    let t := 2 * r + 4
    let c := (keyWordsB w key).length
    ∃ (S L : Nat → List (BitVec w)) (A B : Nat → BitVec w),
      (S 0).length = t ∧ (∀ k < t, (S 0).getD k 0 = constP w + BitVec.ofNat w k * constQ w) ∧
      L 0 = keyWordsB w key ∧ A 0 = 0 ∧ B 0 = 0 ∧
      (∀ n < 3 * max c t,
        A (n + 1) = rotl ((S n).getD (n % t) 0 + A n + B n) 3 ∧
        S (n + 1) = (S n).set (n % t) (A (n + 1)) ∧
        B (n + 1) = rotl ((L n).getD (n % c) 0 + A (n + 1) + B n) (A (n + 1) + B n).toNat ∧
        L (n + 1) = (L n).set (n % c) (B (n + 1))) ∧
      scheduleB w r key = S (3 * max c t) ∧ (scheduleB w r key).length = t

/-- R101, R151, R158, R159: `lg`, the floor of the logarithm, with its five values; the four registers of a block, each
little-endian, and their store, byte by byte, which gives the block back; and the rounds of EB and DB as the pseudocode runs
them. -/
def Obligations.CipherBRounds : Prop :=
  (lg 8 = 3 ∧ lg 16 = 4 ∧ lg 32 = 5 ∧ lg 64 = 6 ∧ lg 128 = 7 ∧ ∀ w, 1 ≤ w → 2 ^ lg w ≤ w ∧ w < 2 ^ (lg w + 1)) ∧
  (∀ w ∈ wordSizes, ∀ block : Bytes, block.length = 4 * (w / 8) →
    let u := w / 8
    let z := loadB w block
    (∀ j < u,
      z.a.extractLsb' (8 * j) 8 = block.getD j 0 ∧
      z.b.extractLsb' (8 * j) 8 = block.getD (u + j) 0 ∧
      z.c.extractLsb' (8 * j) 8 = block.getD (2 * u + j) 0 ∧
      z.d.extractLsb' (8 * j) 8 = block.getD (3 * u + j) 0) ∧
    storeB z = block) ∧
  (∀ w ∈ wordSizes, ∀ x : RegsB w,
    let u := w / 8
    (storeB x).length = 4 * u ∧
    ∀ j < u,
      (storeB x).getD j 0 = x.a.extractLsb' (8 * j) 8 ∧
      (storeB x).getD (u + j) 0 = x.b.extractLsb' (8 * j) 8 ∧
      (storeB x).getD (2 * u + j) 0 = x.c.extractLsb' (8 * j) 8 ∧
      (storeB x).getD (3 * u + j) 0 = x.d.extractLsb' (8 * j) 8) ∧
  ∀ w ∈ wordSizes, ∀ (r : Nat) (S : List (BitVec w)) (block : Bytes), r ≤ 255 → S.length = 2 * r + 4 →
    block.length = 4 * (w / 8) →
    (∃ A B C D : Nat → BitVec w,
      let z := loadB w block
      A 0 = z.a ∧ B 0 = z.b + S.getD 0 0 ∧ C 0 = z.c ∧ D 0 = z.d + S.getD 1 0 ∧
      (∀ i, 1 ≤ i → i ≤ r →
        let tt := rotl (B (i - 1) * (2 * B (i - 1) + 1)) (lg w)
        let uu := rotl (D (i - 1) * (2 * D (i - 1) + 1)) (lg w)
        A i = B (i - 1) ∧ B i = rotl (C (i - 1) ^^^ uu) tt.toNat + S.getD (2 * i + 1) 0 ∧
        C i = D (i - 1) ∧ D i = rotl (A (i - 1) ^^^ tt) uu.toNat + S.getD (2 * i) 0) ∧
      encB r S block = storeB { a := A r + S.getD (2 * r + 2) 0, b := B r, c := C r + S.getD (2 * r + 3) 0, d := D r }) ∧
    (∃ A B C D : Nat → BitVec w,
      let z := loadB w block
      A r = z.a - S.getD (2 * r + 2) 0 ∧ B r = z.b ∧ C r = z.c - S.getD (2 * r + 3) 0 ∧ D r = z.d ∧
      (∀ i, 1 ≤ i → i ≤ r →
        let tt := rotl (A i * (2 * A i + 1)) (lg w)
        let uu := rotl (C i * (2 * C i + 1)) (lg w)
        B (i - 1) = A i ∧ D (i - 1) = C i ∧
        C (i - 1) = rotr (B i - S.getD (2 * i + 1) 0) tt.toNat ^^^ uu ∧
        A (i - 1) = rotr (D i - S.getD (2 * i) 0) uu.toNat ^^^ tt) ∧
      decB r S block = storeB { a := A 0, b := B 0 - S.getD 0 0, c := C 0, d := D 0 - S.getD 1 0 })

/-- R159: `DB(EB(x)) = x` and `EB(DB(x)) = x` for every block, key, round count and word size. -/
def Obligations.CipherBDecryptInvertsEncrypt : Prop :=
  ∀ w ∈ wordSizes, ∀ (r : Nat) (key block : Bytes), r ≤ 255 → key.length ≤ 255 → block.length = 4 * (w / 8) →
    decB r (scheduleB w r key) (encB r (scheduleB w r key) block) = block ∧
    encB r (scheduleB w r key) (decB r (scheduleB w r key) block) = block

/-- R160: keys that differ only by trailing zero bytes within the same word count give the same schedule. -/
def Obligations.TrailingZeroKeyBytes : Prop :=
  ∀ w ∈ wordSizes, ∀ (r n : Nat) (key : Bytes),
    (keyWordsB w (key ++ zeros n)).length = (keyWordsB w key).length →
    scheduleB w r (key ++ zeros n) = scheduleB w r key

/-! ## Padding (43_padding.md) -/

/-- R180 to R185: the pad lengths and their ranges, what each scheme appends, and that only NO fails, exactly on a partial
block; a padded message is whole blocks, at most one block longer. -/
def Obligations.PaddingAppends : Prop :=
  ∀ (m : Bytes) (bs : Nat) (draw : Nat → Byte), 1 ≤ bs →
    (1 ≤ padLen m.length .pkcs5 bs ∧ padLen m.length .pkcs5 bs ≤ bs) ∧
    (1 ≤ padLen m.length .bit bs ∧ padLen m.length .bit bs ≤ bs) ∧
    padLen m.length .zero bs < bs ∧ padLen m.length .random bs < bs ∧ padLen m.length .no bs = 0 ∧
    (m.length % bs = 0 → applyPadding m .no bs draw = .ok m) ∧
    (m.length % bs ≠ 0 → applyPadding m .no bs draw = .error .noPaddingMismatch) ∧
    (∀ p, p ≠ .no →
      applyPadding m p bs draw = .ok (m ++ padBytes m.length p bs draw) ∧
      (padBytes m.length p bs draw).length = padLen m.length p bs ∧
      (m.length + padLen m.length p bs) % bs = 0)

/-- R186, R187, R188: removal returns NO, ZERO and RANDOM messages unchanged; PKCS5 accepts exactly the messages that end
in `n` bytes of value `n`, `1 <= n <= bs`; BIT exactly those that end in the marker and at most `bs - 1` zeros; everything
else is a PaddingVerificationFailure. -/
def Obligations.PaddingRemoval : Prop :=
  ∀ (m : Bytes) (bs : Nat), 1 ≤ bs → bs ≤ 64 →
    removePadding m .no bs = .ok m ∧ removePadding m .zero bs = .ok m ∧ removePadding m .random bs = .ok m ∧
    (∀ r, removePadding m .pkcs5 bs = .ok r ↔
      ∃ n, 1 ≤ n ∧ n ≤ bs ∧ m = r ++ List.replicate n (BitVec.ofNat 8 n)) ∧
    (∀ r, removePadding m .bit bs = .ok r ↔ ∃ n, n < bs ∧ m = r ++ 0x80 :: List.replicate n 0) ∧
    (∀ p e, removePadding m p bs = .error e → e = .paddingVerificationFailure)

/-- R189: the round trip of PKCS5 and BIT for every message, and of every scheme on whole blocks. -/
def Obligations.PaddingRoundTrip : Prop :=
  ∀ (m : Bytes) (bs : Nat) (draw : Nat → Byte) (out : Bytes), bs ∈ [4, 8, 16, 32, 64] →
    (∀ p, p = .pkcs5 ∨ p = .bit → applyPadding m p bs draw = .ok out → removePadding out p bs = .ok m) ∧
    (∀ p, m.length % bs = 0 → applyPadding m p bs draw = .ok out → removePadding out p bs = .ok m) ∧
    (∀ p, p = .zero ∨ p = .random → m.length % bs ≠ 0 → applyPadding m p bs draw = .ok out →
      removePadding out p bs ≠ .ok m)

/-! ## Modes (44_modes.md) -/

/-- R201 to R209: each mode on N whole blocks is its rule's loop, block `P k` by block, with the chaining register's
successive values `X`; OFB and CTR are one function both ways. The `xor` in them is bytewise (00_scope.md R9). -/
def Obligations.ModeRules : Prop :=
  (∀ x y : Bytes, x.length = y.length → (xorBytes x y).length = x.length ∧
    ∀ k < x.length, (xorBytes x y).getD k 0 = x.getD k 0 ^^^ y.getD k 0) ∧
  ∀ (E D : Bytes → Bytes) (bs N : Nat) (data iv : Bytes), 1 ≤ bs → data.length = N * bs →
    let P : Nat → Bytes := fun k => (data.drop (k * bs)).take bs
    let cat : (Nat → Bytes) → Bytes := fun O => (List.range N).flatMap O
    modeEnc .ecb E bs data iv = cat (fun k => E (P k)) ∧
    modeDec .ecb E D bs data iv = cat (fun k => D (P k)) ∧
    (∃ X : Nat → Bytes, X 0 = iv ∧ (∀ k < N, X (k + 1) = E (xorBytes (P k) (X k))) ∧
      modeEnc .cbc E bs data iv = cat (fun k => X (k + 1))) ∧
    (∃ X : Nat → Bytes, X 0 = iv ∧ (∀ k < N, X (k + 1) = P k) ∧
      modeDec .cbc E D bs data iv = cat (fun k => xorBytes (D (P k)) (X k))) ∧
    (∃ X : Nat → Bytes, X 0 = iv ∧ (∀ k < N, X (k + 1) = xorBytes (E (X k)) (P k)) ∧
      modeEnc .cfb E bs data iv = cat (fun k => X (k + 1))) ∧
    (∃ X : Nat → Bytes, X 0 = iv ∧ (∀ k < N, X (k + 1) = P k) ∧
      modeDec .cfb E D bs data iv = cat (fun k => xorBytes (E (X k)) (P k))) ∧
    (∃ X : Nat → Bytes, X 0 = iv ∧ (∀ k < N, X (k + 1) = E (X k)) ∧
      modeEnc .ofb E bs data iv = cat (fun k => xorBytes (X (k + 1)) (P k)) ∧
      modeDec .ofb E D bs data iv = modeEnc .ofb E bs data iv) ∧
    (∃ X : Nat → Bytes, X 0 = iv ∧ (∀ k < N, X (k + 1) = incBlock (X k)) ∧
      modeEnc .ctr E bs data iv = cat (fun k => xorBytes (E (X k)) (P k)) ∧
      modeDec .ctr E D bs data iv = modeEnc .ctr E bs data iv)

/-- R210: the counter block is incremented as a little-endian integer, wrapping without an error. -/
def Obligations.CounterIncrement : Prop :=
  ∀ X : Bytes, (incBlock X).length = X.length ∧
    bytesToWordLE (incBlock X) = (bytesToWordLE X + 1) % 2 ^ (8 * X.length)

/-- R202 to R209: decryption undoes encryption in every mode, for block functions that undo each other, and the length is
kept. -/
def Obligations.ModesInvert : Prop :=
  ∀ (E D : Bytes → Bytes) (bs : Nat), 1 ≤ bs →
    (∀ b : Bytes, b.length = bs → (E b).length = bs) → (∀ b : Bytes, b.length = bs → D (E b) = b) →
    ∀ (mode : Mode) (data iv : Bytes), data.length % bs = 0 → iv.length = bs →
      modeDec mode E D bs (modeEnc mode E bs data iv) iv = data ∧
      (modeEnc mode E bs data iv).length = data.length

/-- R211: a stream mode's output is as long as the message, and the bytes it is extended with are not observable. -/
def Obligations.StreamModesTruncate : Prop :=
  ∀ (E D : Bytes → Bytes) (bs : Nat), 1 ≤ bs → (∀ b : Bytes, (E b).length = bs) →
    ∀ (mode : StreamMode) (op : Op) (m iv z : Bytes), z.length = (bs - m.length % bs) % bs →
      (runStream op mode.toMode { enc := E, dec := D } bs m iv).length = m.length ∧
      runStream op mode.toMode { enc := E, dec := D } bs m iv =
        (match op with
          | .enc => modeEnc mode.toMode E bs (m ++ z) iv
          | .dec => modeDec mode.toMode E D bs (m ++ z) iv).take m.length

/-- R298 item 4. First, of the modes: encrypting two parts, the first of whole blocks, gives what encrypting the whole
gives, under the next IV that the rule names. Then, of the commands, both ways: for each chaining command `i` with its
operands, run on a whole message (from `s`), on a first part of whole blocks with PAD = NO in CBC (from `s1`, giving `t1`),
and on the rest (from `s2`) under the same key and the next IV made from the first command's latch and output: the whole and
the rest complete with the same error, and with none the whole's output is the first part's and then the rest's. With RANDOM
padding the two commands are taken to draw the same bytes (log entry 4). -/
def Obligations.ChainingAcrossCommands : Prop :=
  (∀ (E : Bytes → Bytes) (bs N : Nat), 1 ≤ bs → (∀ b : Bytes, (E b).length = bs) →
    ∀ (d1 d2 iv : Bytes), iv.length = bs → d1.length = (N + 1) * bs →
      let last : Bytes → Bytes := fun x => (x.drop (N * bs)).take bs
      let enc : Mode → Bytes := fun m => modeEnc m E bs d1 iv
      modeEnc .cbc E bs (d1 ++ d2) iv = enc .cbc ++ modeEnc .cbc E bs d2 (last (enc .cbc)) ∧
      modeEnc .cfb E bs (d1 ++ d2) iv = enc .cfb ++ modeEnc .cfb E bs d2 (last (enc .cfb)) ∧
      modeEnc .ofb E bs (d1 ++ d2) iv = enc .ofb ++ modeEnc .ofb E bs d2 (xorBytes (last (enc .ofb)) (last d1)) ∧
      modeEnc .ctr E bs (d1 ++ d2) iv = enc .ctr ++ modeEnc .ctr E bs d2 (Nat.iterate incBlock (N + 1) iv)) ∧
  (∀ (i i1 : Instr) (s s1 s2 t1 : State) (l l1 l2 : Latch), firstPart i = some i1 →
    s.Inv → s1.Inv → s2.Inv → s.seq = .busy l → s1.seq = .busy l1 → s2.seq = .busy l2 →
    s1.config = s.config → s2.config = s.config →
    l1.key = l.key → l1.keylen = l.keylen → l2.key = l.key → l2.keylen = l.keylen →
    l1.iv = l.iv → l1.ivlen = l.ivlen → l2.ivlen = l.ivlen →
    l.msg = l1.msg ++ l2.msg → l.inlen.toNat = l1.inlen.toNat + l2.inlen.toNat → l.inlen.toNat ≤ s.config.msgMax →
    l1.msg.length % blockSizeOf i = 0 → (needsLastBlock i = true → l2.msg ≠ []) →
    exec i1 s1 = .next t1 → t1.err = none → l2.iv = nextIv i l1.msg (output t1) l.iv →
    (∀ k, Config.entropy s2.serial k = Config.entropy s.serial k) →
    ∃ t t2, exec i s = .next t ∧ exec i s2 = .next t2 ∧ t.err = t2.err ∧
      (t.err = none → output t = output t1 ++ output t2))
end

