-- ==== Sys2Proof/Laws/WordArith.lean ====
section
/-! SUPPORT. The laws of the word arithmetic unit: lengths, the xor of byte sequences, byte order conversions, rotations,
and unions of bits. -/

namespace Sys2Proof.Machine

/-! ## Byte sequences -/

@[simp] theorem zeros_length (n : Nat) : (zeros n).length = n := by simp [zeros]

@[simp] theorem rep_length (x : Byte) (n : Nat) : (rep x n).length = n := by simp [rep]

@[simp] theorem xorBytes_length (s t : Bytes) : (xorBytes s t).length = min s.length t.length := by simp [xorBytes]

@[simp] theorem xorBytes_nil_left (t : Bytes) : xorBytes [] t = [] := rfl

@[simp] theorem xorBytes_nil_right (s : Bytes) : xorBytes s [] = [] := by cases s <;> rfl

@[simp] theorem xorBytes_cons (a b : Byte) (s t : Bytes) : xorBytes (a :: s) (b :: t) = (a ^^^ b) :: xorBytes s t := rfl

/-- A xor is undone by the same xor on its right. -/
theorem xorBytes_cancel_right : ∀ {s t : Bytes}, s.length ≤ t.length → xorBytes (xorBytes s t) t = s
  | [], _, _ => rfl
  | _ :: _, [], h => by simp at h
  | a :: s, b :: t, h => by
    simp only [List.length_cons, Nat.add_le_add_iff_right] at h
    simp [xorBytes_cancel_right h]

/-- A xor is undone by the same xor on its left. -/
theorem xorBytes_cancel_left : ∀ {s t : Bytes}, t.length ≤ s.length → xorBytes s (xorBytes s t) = t
  | _, [], _ => by simp
  | [], _ :: _, h => by simp at h
  | a :: s, b :: t, h => by
    simp only [List.length_cons, Nat.add_le_add_iff_right] at h
    simp [xorBytes_cancel_left h]

/-- The first bytes of a xor are the xor of the first bytes. -/
theorem xorBytes_take (n : Nat) (s t : Bytes) : (xorBytes s t).take n = xorBytes (s.take n) (t.take n) := by
  simp [xorBytes, List.take_zipWith]

/-! ## Byte order (spec/40_word_arith.md R108 to R111) -/

@[simp] theorem wordToBytesLE_length (x n : Nat) : (wordToBytesLE x n).length = n := by simp [wordToBytesLE]

@[simp] theorem wordToBytesBE_length (x n : Nat) : (wordToBytesBE x n).length = n := by simp [wordToBytesBE]

theorem wordToBytesLE_succ (x n : Nat) :
    wordToBytesLE x (n + 1) = BitVec.ofNat 8 x :: wordToBytesLE (x / 256) n := by
  simp only [wordToBytesLE, List.range_succ_eq_map, List.map_cons, List.map_map, Nat.mul_zero, Nat.shiftRight_zero]
  congr 1
  apply List.map_congr_left
  intro i _
  simp only [Function.comp]
  rw [show 8 * (i + 1) = 8 + 8 * i by omega, Nat.shiftRight_add, Nat.shiftRight_eq_div_pow x 8]

theorem bytesToWordLE_lt : ∀ s : Bytes, bytesToWordLE s < 2 ^ (8 * s.length)
  | [] => by simp [bytesToWordLE]
  | b :: s => by
    have h := bytesToWordLE_lt s
    have hb := b.isLt
    simp only [bytesToWordLE, List.length_cons]
    rw [show 8 * (s.length + 1) = 8 * s.length + 8 by omega, Nat.pow_add]
    omega

/-- A little-endian sequence is the bytes of its word. -/
theorem wordToBytesLE_bytesToWordLE : ∀ s : Bytes, wordToBytesLE (bytesToWordLE s) s.length = s
  | [] => rfl
  | b :: s => by
    have hb := b.isLt
    rw [List.length_cons, wordToBytesLE_succ]
    simp only [bytesToWordLE]
    rw [show (b.toNat + 256 * bytesToWordLE s) / 256 = bytesToWordLE s by omega, wordToBytesLE_bytesToWordLE s]
    congr 1
    apply BitVec.eq_of_toNat_eq
    simp only [BitVec.toNat_ofNat]
    omega

/-- A word is the value of its little-endian bytes. -/
theorem bytesToWordLE_wordToBytesLE : ∀ (n x : Nat), x < 2 ^ (8 * n) → bytesToWordLE (wordToBytesLE x n) = x
  | 0, x, h => by
    simp at h
    simp [wordToBytesLE, bytesToWordLE, h]
  | n + 1, x, h => by
    rw [show 8 * (n + 1) = 8 * n + 8 by omega, Nat.pow_add] at h
    rw [wordToBytesLE_succ, bytesToWordLE, bytesToWordLE_wordToBytesLE n (x / 256) (by omega)]
    simp only [BitVec.toNat_ofNat]
    omega

/-- The two byte orders are each other's reverse. -/
theorem bytesToWordBE_eq (s : Bytes) : bytesToWordBE s = bytesToWordLE s.reverse := by
  unfold bytesToWordBE
  induction s using List.reverseRecOn with
  | nil => rfl
  | append_singleton s b ih =>
    simp only [List.foldl_append, List.foldl_cons, List.foldl_nil, ih, List.reverse_append, List.reverse_cons,
      List.reverse_nil, List.nil_append, List.cons_append, bytesToWordLE]
    omega

theorem wordToBytesBE_eq (x n : Nat) : wordToBytesBE x n = (wordToBytesLE x n).reverse := by
  apply List.ext_getElem
  · simp
  · intro i h1 h2
    simp at h1
    simp [wordToBytesBE, wordToBytesLE, List.getElem_reverse, Nat.sub_sub, Nat.add_comm]

theorem wordToBytesBE_bytesToWordBE (s : Bytes) : wordToBytesBE (bytesToWordBE s) s.length = s := by
  rw [wordToBytesBE_eq, bytesToWordBE_eq]
  have h := wordToBytesLE_bytesToWordLE s.reverse
  rw [List.length_reverse] at h
  rw [h, List.reverse_reverse]

theorem bytesToWordBE_wordToBytesBE (n x : Nat) (h : x < 2 ^ (8 * n)) : bytesToWordBE (wordToBytesBE x n) = x := by
  rw [wordToBytesBE_eq, bytesToWordBE_eq, List.reverse_reverse, bytesToWordLE_wordToBytesLE n x h]

theorem bytesToWordBE_lt (s : Bytes) : bytesToWordBE s < 2 ^ (8 * s.length) := by
  rw [bytesToWordBE_eq]
  simpa using bytesToWordLE_lt s.reverse

/-! ## Rotations (R102 to R105) -/

theorem ramt_lt {w : Nat} (n : Nat) (h : 0 < w) : ramt n w < w := Nat.mod_lt _ h

/-- Bit `i` of a left rotation. -/
theorem getLsbD_rotlBy {w : Nat} (x : BitVec w) {k i : Nat} (hk : k < w) (hi : i < w) :
    (rotlBy x k).getLsbD i = x.getLsbD ((i + w - k) % w) := by
  unfold rotlBy
  split
  · subst k
    simp [Nat.mod_eq_of_lt hi]
  · simp only [BitVec.getLsbD_or, BitVec.getLsbD_shiftLeft, BitVec.getLsbD_ushiftRight, hi, decide_true, Bool.true_and]
    by_cases h : i < k
    · rw [Nat.mod_eq_of_lt (show i + w - k < w by omega)]
      simp [h, show w - k + i = i + w - k by omega]
    · rw [show i + w - k = (i - k) + w by omega, Nat.add_mod_right, Nat.mod_eq_of_lt (show i - k < w by omega)]
      simp [h, BitVec.getLsbD_of_ge x (w - k + i) (by omega)]

/-- Bit `i` of a right rotation. -/
theorem getLsbD_rotrBy {w : Nat} (x : BitVec w) {k i : Nat} (hk : k < w) (hi : i < w) :
    (rotrBy x k).getLsbD i = x.getLsbD ((i + k) % w) := by
  unfold rotrBy
  split
  · subst k
    simp [Nat.mod_eq_of_lt hi]
  · simp only [BitVec.getLsbD_or, BitVec.getLsbD_shiftLeft, BitVec.getLsbD_ushiftRight, hi, decide_true, Bool.true_and]
    by_cases h : i + k < w
    · rw [Nat.mod_eq_of_lt h]
      simp [show i < w - k by omega, Nat.add_comm]
    · rw [show i + k = (i + k - w) + w by omega, Nat.add_mod_right, Nat.mod_eq_of_lt (show i + k - w < w by omega)]
      have h2 : ¬ i < w - k := by omega
      simp [h2, BitVec.getLsbD_of_ge x (k + i) (by omega), show i - (w - k) = i + k - w by omega]

theorem rotrBy_rotlBy {w : Nat} (x : BitVec w) {k : Nat} (hk : k < w) : rotrBy (rotlBy x k) k = x := by
  apply BitVec.eq_of_getLsbD_eq
  intro i hi
  rw [getLsbD_rotrBy _ hk hi, getLsbD_rotlBy _ hk (Nat.mod_lt _ (by omega))]
  congr 1
  by_cases h : i + k < w
  · rw [Nat.mod_eq_of_lt h, show i + k + w - k = i + w by omega, Nat.add_mod_right, Nat.mod_eq_of_lt hi]
  · rw [show i + k = (i + k - w) + w by omega, Nat.add_mod_right, Nat.mod_eq_of_lt (show i + k - w < w by omega),
      show i + k - w + w - k = i by omega, Nat.mod_eq_of_lt hi]

theorem rotlBy_rotrBy {w : Nat} (x : BitVec w) {k : Nat} (hk : k < w) : rotlBy (rotrBy x k) k = x := by
  apply BitVec.eq_of_getLsbD_eq
  intro i hi
  rw [getLsbD_rotlBy _ hk hi, getLsbD_rotrBy _ hk (Nat.mod_lt _ (by omega))]
  congr 1
  by_cases h : i < k
  · rw [Nat.mod_eq_of_lt (show i + w - k < w by omega), show i + w - k + k = i + w by omega, Nat.add_mod_right,
      Nat.mod_eq_of_lt hi]
  · rw [show i + w - k = (i - k) + w by omega, Nat.add_mod_right, Nat.mod_eq_of_lt (show i - k < w by omega),
      show i - k + k = i by omega, Nat.mod_eq_of_lt hi]

/-! ## Unions of bits -/

/-- A union has a bit that one of its words has. -/
theorem getLsbD_orFold {w : Nat} (n : Nat) (f : Nat → BitVec w) (b : Nat) :
    (orFold n f).getLsbD b = (List.range n).any fun i => (f i).getLsbD b := by
  unfold orFold
  have key : ∀ (l : List Nat) (x : BitVec w),
      (l.foldl (fun acc i => acc ||| f i) x).getLsbD b = (x.getLsbD b || l.any fun i => (f i).getLsbD b) := by
    intro l
    induction l with
    | nil => simp
    | cons a l ih => intro x; simp [ih, Bool.or_assoc]
  simp [key]

theorem getLsbD_bitAt {w : Nat} (b : Bool) (i j : Nat) (hj : j < w) :
    (bitAt b i : BitVec w).getLsbD j = (b && decide (i = j)) := by
  unfold bitAt
  cases b
  · simp
  · simp only [BitVec.getLsbD_shiftLeft, hj, decide_true, Bool.true_and, BitVec.getLsbD_setWidth, BitVec.ofBool_true]
    by_cases h : i = j
    · subst h; simp; omega
    · by_cases h2 : j < i
      · simp [h2, h]
      · simp [h2, h]; omega

end Sys2Proof.Machine
end

