-- ==== Sys2Proof/Laws/Ciphers.lean ====
section
/-! SUPPORT. The laws of the two block transforms: output lengths, and the layers, rounds and block loads that undo each
other (spec/41_cipher_a.md, spec/42_cipher_b.md). -/

namespace Sys2Proof.Machine

/-! ## Cipher A -/

@[simp] theorem storeA_length (s : BitVec 64) : (storeA s).length = 8 := by simp [storeA]

@[simp] theorem encA_length (rk : List (BitVec 64)) (block : Bytes) : (encA rk block).length = 8 := by simp [encA]

@[simp] theorem decA_length (rk : List (BitVec 64)) (block : Bytes) : (decA rk block).length = 8 := by simp [decA]

theorem sboxAInv_sboxA (x : BitVec 4) : sboxAInv (sboxA x) = x := by revert x; decide

theorem sboxA_sboxAInv (x : BitVec 4) : sboxA (sboxAInv x) = x := by revert x; decide

/-- A nibble function acts on bit `b` through the nibble that holds it. -/
theorem getLsbD_onNibbles (f : BitVec 4 → BitVec 4) (s : BitVec 64) {b : Nat} (hb : b < 64) :
    (onNibbles f s).getLsbD b = (f (nibble s (b / 4))).getLsbD (b % 4) := by
  unfold onNibbles
  rw [getLsbD_orFold, Bool.eq_iff_iff, List.any_eq_true]
  simp only [List.mem_range, BitVec.getLsbD_shiftLeft, BitVec.getLsbD_setWidth, hb, decide_true, Bool.true_and]
  constructor
  · rintro ⟨i, hi, h⟩
    simp only [Bool.and_eq_true, Bool.not_eq_true', decide_eq_false_iff_not, decide_eq_true_eq] at h
    obtain ⟨h1, h2, h3⟩ := h
    have h4 := BitVec.lt_of_getLsbD h3
    rw [show b / 4 = i by omega, show b % 4 = b - 4 * i by omega]
    exact h3
  · intro h
    refine ⟨b / 4, by omega, ?_⟩
    rw [show b - 4 * (b / 4) = b % 4 by omega, h]
    simp
    omega

/-- A nibble function acts nibble by nibble. -/
theorem nibble_onNibbles (f : BitVec 4 → BitVec 4) (s : BitVec 64) {i : Nat} (hi : i < 16) :
    nibble (onNibbles f s) i = f (nibble s i) := by
  apply BitVec.eq_of_getLsbD_eq
  intro j hj
  simp only [nibble, BitVec.getLsbD_extractLsb', hj, decide_true, Bool.true_and]
  rw [getLsbD_onNibbles f s (by omega), show (4 * i + j) / 4 = i by omega, show (4 * i + j) % 4 = j by omega]
  rfl

/-- Two nibble functions that undo each other do so on the whole state. -/
theorem onNibbles_inverse {f g : BitVec 4 → BitVec 4} (h : ∀ x, g (f x) = x) (s : BitVec 64) :
    onNibbles g (onNibbles f s) = s := by
  apply BitVec.eq_of_getLsbD_eq
  intro b hb
  rw [getLsbD_onNibbles g _ hb, nibble_onNibbles f s (by omega), h]
  simp only [nibble, BitVec.getLsbD_extractLsb', Nat.mod_lt b (show 0 < 4 by omega), decide_true, Bool.true_and]
  rw [show 4 * (b / 4) + b % 4 = b by omega]

/-- `P` sends different places below 64 to different places below 64. -/
theorem permA_lt {i : Nat} (_ : i < 64) : permA i < 64 := by unfold permA; split <;> omega

theorem permA_injective {i j : Nat} (hi : i < 64) (hj : j < 64) (h : permA i = permA j) : i = j := by
  unfold permA at h
  split at h <;> split at h <;> omega

/-- The place a bit comes from (R125). -/
def permAInv (j : Nat) : Nat := if j = 63 then 63 else (4 * j) % 63

theorem permAInv_lt {j : Nat} (_ : j < 64) : permAInv j < 64 := by unfold permAInv; split <;> omega

theorem permA_permAInv {j : Nat} (h : j < 64) : permA (permAInv j) = j := by
  unfold permA permAInv
  split <;> split <;> omega

theorem permAInv_permA {j : Nat} (h : j < 64) : permAInv (permA j) = j :=
  permA_injective (permAInv_lt (permA_lt h)) h (permA_permAInv (permA_lt h))

/-- Bit `P(i)` of the permuted state is bit `i`. -/
theorem getLsbD_pLayer (s : BitVec 64) {i : Nat} (hi : i < 64) : (pLayer s).getLsbD (permA i) = s.getLsbD i := by
  unfold pLayer
  rw [getLsbD_orFold, Bool.eq_iff_iff, List.any_eq_true]
  constructor
  · rintro ⟨k, hk, h⟩
    rw [List.mem_range] at hk
    rw [getLsbD_bitAt _ _ _ (permA_lt hi), Bool.and_eq_true, decide_eq_true_eq] at h
    rw [← permA_injective hk hi h.2]
    exact h.1
  · intro h
    refine ⟨i, List.mem_range.mpr hi, ?_⟩
    rw [getLsbD_bitAt _ _ _ (permA_lt hi), h]
    simp

theorem getLsbD_pLayerInv (s : BitVec 64) {i : Nat} (hi : i < 64) :
    (pLayerInv s).getLsbD i = s.getLsbD (permA i) := by
  unfold pLayerInv
  rw [getLsbD_orFold, Bool.eq_iff_iff, List.any_eq_true]
  constructor
  · rintro ⟨k, hk, h⟩
    rw [getLsbD_bitAt _ _ _ hi, Bool.and_eq_true, decide_eq_true_eq] at h
    rw [← h.2]
    exact h.1
  · intro h
    refine ⟨i, List.mem_range.mpr hi, ?_⟩
    rw [getLsbD_bitAt _ _ _ hi, h]
    simp

theorem pLayerInv_pLayer (s : BitVec 64) : pLayerInv (pLayer s) = s := by
  apply BitVec.eq_of_getLsbD_eq
  intro i hi
  rw [getLsbD_pLayerInv _ hi, getLsbD_pLayer _ hi]

theorem pLayer_pLayerInv (s : BitVec 64) : pLayer (pLayerInv s) = s := by
  apply BitVec.eq_of_getLsbD_eq
  intro i hi
  rw [← permA_permAInv hi, getLsbD_pLayer _ (permAInv_lt hi), getLsbD_pLayerInv _ (permAInv_lt hi)]

theorem roundAInv_roundA (s rk : BitVec 64) : roundAInv (roundA s rk) rk = s := by
  unfold roundAInv roundA sLayer sLayerInv
  rw [pLayerInv_pLayer, onNibbles_inverse sboxAInv_sboxA, BitVec.xor_assoc, BitVec.xor_self, BitVec.xor_zero]

theorem roundA_roundAInv (s rk : BitVec 64) : roundA (roundAInv s rk) rk = s := by
  unfold roundAInv roundA sLayer sLayerInv
  rw [BitVec.xor_assoc, BitVec.xor_self, BitVec.xor_zero, onNibbles_inverse sboxA_sboxAInv, pLayer_pLayerInv]

/-- Loading a block and storing a state undo each other. -/
theorem loadA_storeA (s : BitVec 64) : loadA (storeA s) = s := by
  unfold loadA storeA
  rw [bytesToWordBE_wordToBytesBE 8 _ (by simpa using s.isLt)]
  simp

theorem storeA_loadA {block : Bytes} (h : block.length = 8) : storeA (loadA block) = block := by
  unfold loadA storeA
  have hlt := bytesToWordBE_lt block
  rw [h] at hlt
  rw [BitVec.toNat_ofNat, Nat.mod_eq_of_lt (by simpa using hlt), ← h]
  exact wordToBytesBE_bytesToWordBE block

/-! ## Folds that undo each other -/

/-- A fold is undone by the fold of the inverse steps over the reversed list. -/
theorem foldl_reverse_inverse {α β : Type} {f g : β → α → β} (h : ∀ s a, g (f s a) a = s) (l : List α) (s : β) :
    l.reverse.foldl g (l.foldl f s) = s := by
  induction l generalizing s with
  | nil => rfl
  | cons a l ih => simp [ih, h]

theorem roundKeysFrom_length {W : Nat} (upd : BitVec W → Nat → BitVec W) :
    ∀ (n i : Nat) (k : BitVec W), (roundKeysFrom upd n i k).length = n
  | 0, _, _ => rfl
  | n + 1, i, k => by simp [roundKeysFrom, roundKeysFrom_length upd n]

@[simp] theorem scheduleA_length (key : Bytes) : (scheduleA key).length = 32 := by
  unfold scheduleA
  split <;> exact roundKeysFrom_length _ _ _ _

/-! ## Cipher B -/

@[simp] theorem storeB_length {w : Nat} (x : RegsB w) : (storeB x).length = 4 * (w / 8) := by
  simp [storeB]
  omega

@[simp] theorem encB_length {w : Nat} (r : Nat) (s : List (BitVec w)) (block : Bytes) :
    (encB r s block).length = 4 * (w / 8) := by simp [encB]

@[simp] theorem decB_length {w : Nat} (r : Nat) (s : List (BitVec w)) (block : Bytes) :
    (decB r s block).length = 4 * (w / 8) := by simp [decB]

/-- Reading back a word of whole bytes. -/
theorem wordLE_wordToBytesLE {w : Nat} (h : w % 8 = 0) (x : BitVec w) : wordLE w (wordToBytesLE x.toNat (w / 8)) = x := by
  unfold wordLE
  rw [bytesToWordLE_wordToBytesLE _ _ (by rw [show 8 * (w / 8) = w by omega]; exact x.isLt)]
  simp

theorem wordToBytesLE_wordLE {w : Nat} (h : w % 8 = 0) {s : Bytes} (hs : s.length = w / 8) :
    wordToBytesLE (wordLE w s).toNat (w / 8) = s := by
  unfold wordLE
  have hlt := bytesToWordLE_lt s
  rw [hs, show 8 * (w / 8) = w by omega] at hlt
  rw [BitVec.toNat_ofNat, Nat.mod_eq_of_lt hlt, ← hs]
  exact wordToBytesLE_bytesToWordLE s

theorem loadB_storeB {w : Nat} (h : w % 8 = 0) (x : RegsB w) : loadB w (storeB x) = x := by
  obtain ⟨a, b, c, d⟩ := x
  have la : ∀ y : BitVec w, (wordToBytesLE y.toNat (w / 8)).length = w / 8 := fun y => wordToBytesLE_length _ _
  simp only [loadB, storeB, List.append_assoc, show 3 * (w / 8) = w / 8 + (w / 8 + w / 8) by omega,
    show 2 * (w / 8) = w / 8 + w / 8 by omega, ← List.drop_drop, List.drop_left' (la _), List.take_left' (la _),
    List.take_of_length_le (Nat.le_of_eq (la _)), wordLE_wordToBytesLE h]

theorem storeB_loadB {w : Nat} (h : w % 8 = 0) {block : Bytes} (hb : block.length = 4 * (w / 8)) :
    storeB (loadB w block) = block := by
  unfold storeB loadB
  simp only
  rw [wordToBytesLE_wordLE h (by simp; omega), wordToBytesLE_wordLE h (by simp; omega),
    wordToBytesLE_wordLE h (by simp; omega), wordToBytesLE_wordLE h (by simp; omega)]
  rw [show 3 * (w / 8) = 2 * (w / 8) + w / 8 by omega, ← List.drop_drop (i := w / 8) (j := 2 * (w / 8))]
  rw [List.take_of_length_le (l := (block.drop (2 * (w / 8))).drop (w / 8)) (by simp; omega)]
  rw [List.append_assoc, List.append_assoc, List.take_append_drop]
  rw [show 2 * (w / 8) = w / 8 + w / 8 by omega, ← List.drop_drop, List.take_append_drop, List.take_append_drop]

/-- A round of Cipher B is undone by its inverse round. -/
theorem roundBInv_roundB {w : Nat} (hw : 0 < w) (s : List (BitVec w)) (x : RegsB w) (i : Nat) :
    roundBInv s (roundB s x i) i = x := by
  obtain ⟨a, b, c, d⟩ := x
  simp only [roundBInv, roundB, BitVec.add_sub_cancel]
  simp only [rotr, rotl, rotrBy_rotlBy _ (ramt_lt _ hw), BitVec.xor_assoc, BitVec.xor_self, BitVec.xor_zero]

theorem roundB_roundBInv {w : Nat} (hw : 0 < w) (s : List (BitVec w)) (x : RegsB w) (i : Nat) :
    roundB s (roundBInv s x i) i = x := by
  obtain ⟨a, b, c, d⟩ := x
  simp only [roundBInv, roundB, BitVec.xor_assoc, BitVec.xor_self, BitVec.xor_zero]
  simp only [rotr, rotl, rotlBy_rotrBy _ (ramt_lt _ hw), BitVec.sub_add_cancel]

/-- Mixing keeps both lengths. -/
theorem mixMany_length {w : Nat} : ∀ (n : Nat) (m : MixB w),
    (mixMany n m).s.length = m.s.length ∧ (mixMany n m).l.length = m.l.length
  | 0, _ => ⟨rfl, rfl⟩
  | n + 1, m => by
    have h := mixMany_length n (mixStep m)
    simpa [mixMany, mixStep] using h

theorem arithFrom_length {w : Nat} : ∀ (n : Nat) (x : BitVec w), (arithFrom n x).length = n
  | 0, _ => rfl
  | n + 1, x => by simp [arithFrom, arithFrom_length n]

@[simp] theorem scheduleB_length (w r : Nat) (key : Bytes) : (scheduleB w r key).length = 2 * r + 4 := by
  unfold scheduleB
  simp only
  rw [(mixMany_length _ _).1]
  exact arithFrom_length _ _

end Sys2Proof.Machine
end

