-- ==== Sys2Proof/Laws/Memory.lean ====
section
/-! SUPPORT. The laws of memory: read after write, what a write leaves alone, and that every operation keeps the
canonical form. -/

namespace Sys2Proof.Machine

/-- Every listed address is at least `a`. -/
def memAbove (a : Nat) (m : List Host.Cell) : Prop := ∀ c ∈ m, a < c.1

theorem memWf_cons {c : Nat} {v : Byte} {m : List Host.Cell} :
    memWf ((c, v) :: m) = true ↔ v ≠ memDefault ∧ memAbove c m ∧ memWf m = true := by
  simp [memWf, memAbove, and_assoc]

/-- An address below every listed one reads as the default. -/
theorem memRead_above {a : Nat} : ∀ {m : List Host.Cell}, memAbove a m → memRead m a = memDefault
  | [], _ => rfl
  | (c, v) :: m, h => by
    have hc : a < c := h (c, v) (by simp)
    have hm : memAbove a m := fun d hd => h d (by simp [hd])
    simp [memRead, Nat.ne_of_lt hc, memRead_above hm]

theorem memAbove_mono {a b : Nat} {m : List Host.Cell} (hab : a ≤ b) (h : memAbove b m) : memAbove a m :=
  fun c hc => Nat.lt_of_le_of_lt hab (h c hc)

theorem memAbove_write {c a : Nat} {b : Byte} (hca : c < a) :
    ∀ {m : List Host.Cell}, memAbove c m → memAbove c (memWrite m a b)
  | [], _ => by
    unfold memWrite
    split <;> simp [memAbove, hca]
  | (d, v) :: m, h => by
    have hd : c < d := h (d, v) (by simp)
    have hm : memAbove c m := fun e he => h e (by simp [he])
    unfold memWrite
    split
    · split
      · exact h
      · intro e he
        rcases List.mem_cons.mp he with rfl | he
        · exact hca
        · exact h e he
    · split
      · split
        · exact hm
        · intro e he
          rcases List.mem_cons.mp he with rfl | he
          · exact hca
          · exact hm e he
      · intro e he
        rcases List.mem_cons.mp he with rfl | he
        · exact hd
        · exact memAbove_write hca hm e he

/-- A write keeps the canonical form. -/
theorem memWf_write (a : Nat) (b : Byte) : ∀ {m : List Host.Cell}, memWf m = true → memWf (memWrite m a b) = true
  | [], _ => by
    unfold memWrite
    split <;> simp_all [memWf]
  | (c, v) :: m, h => by
    obtain ⟨hv, hc, hm⟩ := memWf_cons.mp h
    unfold memWrite
    split
    · split
      · exact h
      · rename_i hac hb
        refine memWf_cons.mpr ⟨hb, ?_, h⟩
        intro e he
        rcases List.mem_cons.mp he with rfl | he
        · exact hac
        · exact Nat.lt_trans hac (hc e he)
    · split
      · rename_i hac
        subst hac
        split
        · exact hm
        · rename_i hb
          exact memWf_cons.mpr ⟨hb, hc, hm⟩
      · exact memWf_cons.mpr ⟨hv, memAbove_write (by omega) hc, memWf_write a b hm⟩

/-- A write, read back at any address. -/
theorem memRead_write (a x : Nat) (b : Byte) :
    ∀ {m : List Host.Cell}, memWf m = true → memRead (memWrite m a b) x = if x = a then b else memRead m x
  | [], _ => by
    unfold memWrite
    split <;> simp_all [memRead]
  | (c, v) :: m, h => by
    obtain ⟨hv, hc, hm⟩ := memWf_cons.mp h
    unfold memWrite
    split
    · rename_i hac
      have habove : memAbove a ((c, v) :: m) := by
        intro e he
        rcases List.mem_cons.mp he with rfl | he
        · exact hac
        · exact Nat.lt_trans hac (hc e he)
      split
      · rename_i hb
        by_cases hx : x = a
        · subst hx; simp [hb, memRead_above habove]
        · simp [hx]
      · simp [memRead]
    · split
      · rename_i hac
        subst hac
        split
        · rename_i hb
          by_cases hx : x = a
          · subst hx; simp [hb, memRead_above hc]
          · simp [memRead, hx]
        · by_cases hx : x = a <;> simp [memRead, hx]
      · rename_i hac hne
        by_cases hx : x = c
        · subst hx
          have : x ≠ a := fun e => hne e.symm
          simp [memRead, this]
        · simp [memRead, hx, memRead_write a x b hm]

theorem memRead_write_same {m : List Host.Cell} (h : memWf m = true) (a : Nat) (b : Byte) :
    memRead (memWrite m a b) a = b := by simp [memRead_write a a b h]

theorem memRead_write_ne {m : List Host.Cell} (h : memWf m = true) {a x : Nat} (b : Byte) (hx : x ≠ a) :
    memRead (memWrite m a b) x = memRead m x := by simp [memRead_write a x b h, hx]

/-- The listed addresses after a write are the old ones and the written one. -/
theorem mem_write_sub {a : Nat} {b : Byte} {e : Host.Cell} :
    ∀ {m : List Host.Cell}, e ∈ memWrite m a b → e ∈ m ∨ e.1 = a
  | [], h => by
    unfold memWrite at h
    split at h <;> simp_all
  | (c, v) :: m, h => by
    unfold memWrite at h
    split at h
    · split at h
      · exact .inl h
      · rcases List.mem_cons.mp h with rfl | h
        · exact .inr rfl
        · exact .inl h
    · split at h
      · split at h
        · exact .inl (List.mem_cons_of_mem _ h)
        · rcases List.mem_cons.mp h with rfl | h
          · exact .inr rfl
          · exact .inl (List.mem_cons_of_mem _ h)
      · rcases List.mem_cons.mp h with rfl | h
        · exact .inl (by simp)
        · rcases mem_write_sub h with h | h
          · exact .inl (List.mem_cons_of_mem _ h)
          · exact .inr h

/-! ## Byte sequences -/

theorem memWf_writeBytes : ∀ (s : Bytes) (a : Nat) {m : List Host.Cell}, memWf m = true →
    memWf (memWriteBytes m a s) = true
  | [], _, _, h => h
  | b :: s, a, _, h => memWf_writeBytes s (a + 1) (memWf_write a b h)

/-- A sequence written from `a` up, read back at any address. -/
theorem memRead_writeBytes : ∀ (s : Bytes) (a x : Nat) {m : List Host.Cell}, memWf m = true →
    memRead (memWriteBytes m a s) x = if a ≤ x ∧ x < a + s.length then s.getD (x - a) 0 else memRead m x
  | [], a, x, m, _ => by
    simp [memWriteBytes]
  | b :: s, a, x, m, h => by
    rw [memWriteBytes, memRead_writeBytes s (a + 1) x (memWf_write a b h), memRead_write a x b h]
    by_cases h1 : a + 1 ≤ x ∧ x < a + 1 + s.length
    · have h2 : a ≤ x ∧ x < a + (b :: s).length := by simp; omega
      obtain ⟨k, rfl⟩ : ∃ k, x = a + 1 + k := ⟨x - (a + 1), by omega⟩
      have e : a + 1 + k - a = k + 1 := by omega
      rw [if_pos h1, if_pos h2, e]
      simp
    · rw [if_neg h1]
      by_cases hx : x = a
      · subst hx
        have h2 : x ≤ x ∧ x < x + (b :: s).length := by simp
        rw [if_pos rfl, if_pos h2]
        simp
      · have h2 : ¬ (a ≤ x ∧ x < a + (b :: s).length) := by simp; omega
        rw [if_neg hx, if_neg h2]

theorem mem_writeBytes_sub {e : Host.Cell} : ∀ {s : Bytes} {a : Nat} {m : List Host.Cell},
    e ∈ memWriteBytes m a s → e ∈ m ∨ (a ≤ e.1 ∧ e.1 < a + s.length)
  | [], _, _, h => .inl h
  | b :: s, a, m, h => by
    rcases mem_writeBytes_sub (s := s) (a := a + 1) h with h | h
    · rcases mem_write_sub h with h | h
      · exact .inl h
      · exact .inr ⟨by omega, by simp; omega⟩
    · exact .inr ⟨by omega, by simp; omega⟩

/-! ## Clearing -/

theorem memAbove_clear {a lo hi : Nat} {m : List Host.Cell} (h : memAbove a m) : memAbove a (memClear m lo hi) :=
  fun c hc => h c (List.mem_of_mem_filter hc)

theorem memWf_clear (lo hi : Nat) : ∀ {m : List Host.Cell}, memWf m = true → memWf (memClear m lo hi) = true
  | [], _ => rfl
  | (c, v) :: m, h => by
    obtain ⟨hv, hc, hm⟩ := memWf_cons.mp h
    have ih := memWf_clear lo hi hm
    unfold memClear at ih ⊢
    rw [List.filter_cons]
    split
    · exact memWf_cons.mpr ⟨hv, memAbove_clear hc, ih⟩
    · exact ih

theorem memRead_clear (lo hi x : Nat) : ∀ {m : List Host.Cell}, memWf m = true →
    memRead (memClear m lo hi) x = if lo ≤ x ∧ x < hi then memDefault else memRead m x
  | [], _ => by simp [memClear, memRead]
  | (c, v) :: m, h => by
    obtain ⟨hv, hc, hm⟩ := memWf_cons.mp h
    have ih := memRead_clear lo hi x hm
    unfold memClear at ih ⊢
    rw [List.filter_cons]
    by_cases hcr : lo ≤ c ∧ c < hi
    · have : (!(decide (lo ≤ c) && decide (c < hi))) = false := by simp [hcr]
      rw [if_neg (by simp [this]), ih]
      by_cases hx : x = c
      · subst hx; simp [hcr]
      · simp [memRead, hx]
    · have : (!(decide (lo ≤ c) && decide (c < hi))) = true := by
        by_cases h1 : lo ≤ c <;> by_cases h2 : c < hi <;> simp_all
      rw [if_pos this]
      by_cases hx : x = c
      · subst hx; simp [memRead, hcr]
      · rw [memRead, if_neg hx, ih, memRead, if_neg hx]

theorem mem_clear {lo hi : Nat} {m : List Host.Cell} {e : Host.Cell} :
    e ∈ memClear m lo hi ↔ e ∈ m ∧ ¬ (lo ≤ e.1 ∧ e.1 < hi) := by
  simp only [memClear, List.mem_filter, Bool.not_eq_true', Bool.and_eq_false_iff, decide_eq_false_iff_not, not_and_or]

/-! ## OUT after a completion -/

theorem memWf_writeOut (c : Config) (out : Bytes) {m : List Host.Cell} (h : memWf m = true) :
    memWf (writeOut c m out) = true :=
  memWf_writeBytes out outBase (memWf_clear _ _ h)

/-- What a completion leaves at every address (spec/45_commands.md R232). -/
theorem memRead_writeOut (c : Config) (out : Bytes) (x : Nat) {m : List Host.Cell} (h : memWf m = true) :
    memRead (writeOut c m out) x =
      if outBase ≤ x ∧ x < outBase + out.length then out.getD (x - outBase) 0
      else if outBase ≤ x ∧ x < outBase + outSize c then 0
      else memRead m x := by
  unfold writeOut
  rw [memRead_writeBytes out outBase x (memWf_clear _ _ h), memRead_clear _ _ x h]
  rfl

theorem memBytes_length (m : List Host.Cell) (a n : Nat) : (memBytes m a n).length = n := by simp [memBytes]

theorem memBytes_getD (m : List Host.Cell) (a n i : Nat) (h : i < n) :
    (memBytes m a n).getD i 0 = memRead m (a + i) := by
  simp [memBytes, List.getD, h]

/-- Two memories that agree on a range give the same bytes there. -/
theorem memBytes_congr {m m' : List Host.Cell} {a n : Nat} (h : ∀ i < n, memRead m (a + i) = memRead m' (a + i)) :
    memBytes m a n = memBytes m' a n := by
  unfold memBytes
  exact List.map_congr_left fun i hi => h i (List.mem_range.mp hi)

end Sys2Proof.Machine
end

