-- ==== Sys2Proof/Laws/Modes.lean ====
section
/-! SUPPORT. The laws of the mode controller (spec/44_modes.md): how data splits into blocks, the lengths of the modes'
outputs, and each mode's value on a block and the rest. -/

namespace Sys2Proof.Machine

/-! ## Blocks (R201) -/

theorem blocksOf_length (bs : Nat) : ∀ (n : Nat) (data : Bytes), (blocksOf bs n data).length = n
  | 0, _ => rfl
  | n + 1, data => by simp [blocksOf, blocksOf_length bs n]

@[simp] theorem blocks_length (bs : Nat) (data : Bytes) : (blocks bs data).length = data.length / bs :=
  blocksOf_length _ _ _

theorem blocksOf_mem {bs : Nat} : ∀ {n : Nat} {data : Bytes}, n * bs ≤ data.length →
    ∀ b ∈ blocksOf bs n data, b.length = bs
  | 0, _, _, _, hb => by simp [blocksOf] at hb
  | n + 1, data, h, b, hb => by
    rw [Nat.succ_mul] at h
    simp only [blocksOf, List.mem_cons] at hb
    rcases hb with rfl | hb
    · simp; omega
    · exact blocksOf_mem (by simp; omega) b hb

/-- Every block has the block size. -/
theorem blocks_mem {bs : Nat} {data : Bytes} : ∀ b ∈ blocks bs data, b.length = bs :=
  blocksOf_mem (Nat.div_mul_le_self _ _)

theorem blocksOf_flatten {bs : Nat} : ∀ {n : Nat} {data : Bytes}, n * bs ≤ data.length →
    (blocksOf bs n data).flatten = data.take (n * bs)
  | 0, _, _ => by simp [blocksOf]
  | n + 1, data, h => by
    rw [Nat.succ_mul] at h
    rw [blocksOf, List.flatten_cons, blocksOf_flatten (by simp; omega), Nat.succ_mul, Nat.add_comm (n * bs) bs, List.take_add]

/-- The blocks of whole blocks of data join to the data. -/
theorem blocks_flatten {bs : Nat} {data : Bytes} (h : data.length % bs = 0) : (blocks bs data).flatten = data := by
  have hd := Nat.div_mul_cancel (Nat.dvd_of_mod_eq_zero h)
  rw [blocks, blocksOf_flatten (Nat.le_of_eq hd), hd, List.take_length]

theorem blocks_short {bs : Nat} {data : Bytes} (h : data.length < bs) : blocks bs data = [] := by
  simp [blocks, Nat.div_eq_of_lt h, blocksOf]

/-- A block in front of the data is the first block. -/
theorem blocks_cons {bs : Nat} (hbs : 1 ≤ bs) {b data : Bytes} (hb : b.length = bs) :
    blocks bs (b ++ data) = b :: blocks bs data := by
  unfold blocks
  rw [List.length_append, hb, Nat.add_div_left _ hbs, blocksOf, List.take_left' hb, List.drop_left' hb]

/-- The blocks of joined blocks are those blocks. -/
theorem blocks_flatten_of {bs : Nat} (hbs : 1 ≤ bs) : ∀ {l : List Bytes}, (∀ b ∈ l, b.length = bs) →
    blocks bs l.flatten = l
  | [], _ => blocks_short (data := []) hbs
  | b :: l, h => by
    rw [List.flatten_cons, blocks_cons hbs (h b (by simp)), blocks_flatten_of hbs fun c hc => h c (List.mem_cons_of_mem _ hc)]

/-- Whole blocks in front of the data split off. -/
theorem blocks_append {bs : Nat} (hbs : 1 ≤ bs) {d1 d2 : Bytes} (h : d1.length % bs = 0) :
    blocks bs (d1 ++ d2) = blocks bs d1 ++ blocks bs d2 := by
  have key : ∀ l : List Bytes, (∀ b ∈ l, b.length = bs) → blocks bs (l.flatten ++ d2) = l ++ blocks bs d2 := by
    intro l hl
    induction l with
    | nil => rfl
    | cons b l ih =>
      rw [List.flatten_cons, List.append_assoc, blocks_cons hbs (hl b (by simp)), ih fun c hc => hl c (by simp [hc])]
      rfl
  have := key (blocks bs d1) blocks_mem
  rwa [blocks_flatten h] at this

/-! ## Lengths (R201, R211) -/

theorem incBlock_length : ∀ X : Bytes, (incBlock X).length = X.length
  | [] => rfl
  | b :: s => by
    unfold incBlock
    split
    · rfl
    · simp [incBlock_length s]

theorem flatMap_length {E : Bytes → Bytes} {bs : Nat} : ∀ {l : List Bytes}, (∀ b ∈ l, (E b).length = bs) →
    (l.flatMap E).length = l.length * bs
  | [], _ => by simp
  | b :: l, h => by
    rw [List.flatMap_cons, List.length_append, h b (by simp), flatMap_length fun c hc => h c (List.mem_cons_of_mem _ hc),
      List.length_cons, Nat.succ_mul]
    omega

theorem cbcEnc_length {E : Bytes → Bytes} {bs : Nat} (hE : ∀ b : Bytes, b.length = bs → (E b).length = bs) :
    ∀ {l : List Bytes} {X : Bytes}, X.length = bs → (∀ b ∈ l, b.length = bs) → (cbcEnc E X l).length = l.length * bs
  | [], _, _, _ => by simp [cbcEnc]
  | P :: l, X, hX, h => by
    have h1 : (E (xorBytes P X)).length = bs := hE _ (by rw [xorBytes_length, h P (by simp), hX, Nat.min_self])
    simp only [cbcEnc, List.length_append, h1, cbcEnc_length hE h1 fun c hc => h c (List.mem_cons_of_mem _ hc), List.length_cons,
      Nat.succ_mul]
    omega

theorem cbcDec_length {D : Bytes → Bytes} {bs : Nat} (hD : ∀ b : Bytes, b.length = bs → (D b).length = bs) :
    ∀ {l : List Bytes} {X : Bytes}, X.length = bs → (∀ b ∈ l, b.length = bs) → (cbcDec D X l).length = l.length * bs
  | [], _, _, _ => by simp [cbcDec]
  | P :: l, X, hX, h => by
    have hP := h P (by simp)
    simp only [cbcDec, List.length_append, xorBytes_length, hD P hP, hX, Nat.min_self,
      cbcDec_length hD hP fun c hc => h c (List.mem_cons_of_mem _ hc), List.length_cons, Nat.succ_mul]
    omega

theorem cfbEnc_length {E : Bytes → Bytes} {bs : Nat} (hE : ∀ b : Bytes, b.length = bs → (E b).length = bs) :
    ∀ {l : List Bytes} {X : Bytes}, X.length = bs → (∀ b ∈ l, b.length = bs) → (cfbEnc E X l).length = l.length * bs
  | [], _, _, _ => by simp [cfbEnc]
  | P :: l, X, hX, h => by
    have h1 : (xorBytes (E X) P).length = bs := by rw [xorBytes_length, hE X hX, h P (by simp), Nat.min_self]
    simp only [cfbEnc, List.length_append, h1, cfbEnc_length hE h1 fun c hc => h c (List.mem_cons_of_mem _ hc), List.length_cons,
      Nat.succ_mul]
    omega

theorem cfbDec_length {E : Bytes → Bytes} {bs : Nat} (hE : ∀ b : Bytes, b.length = bs → (E b).length = bs) :
    ∀ {l : List Bytes} {X : Bytes}, X.length = bs → (∀ b ∈ l, b.length = bs) → (cfbDec E X l).length = l.length * bs
  | [], _, _, _ => by simp [cfbDec]
  | P :: l, X, hX, h => by
    have hP := h P (by simp)
    simp only [cfbDec, List.length_append, xorBytes_length, hE X hX, hP, Nat.min_self,
      cfbDec_length hE hP fun c hc => h c (List.mem_cons_of_mem _ hc), List.length_cons, Nat.succ_mul]
    omega

theorem ofb_length {E : Bytes → Bytes} {bs : Nat} (hE : ∀ b : Bytes, b.length = bs → (E b).length = bs) :
    ∀ {l : List Bytes} {X : Bytes}, X.length = bs → (∀ b ∈ l, b.length = bs) → (ofb E X l).length = l.length * bs
  | [], _, _, _ => by simp [ofb]
  | P :: l, X, hX, h => by
    have h1 := hE X hX
    simp only [ofb, List.length_append, xorBytes_length, h1, h P (by simp), Nat.min_self,
      ofb_length hE h1 fun c hc => h c (List.mem_cons_of_mem _ hc), List.length_cons, Nat.succ_mul]
    omega

theorem ctrMode_length {E : Bytes → Bytes} {bs : Nat} (hE : ∀ b : Bytes, b.length = bs → (E b).length = bs) :
    ∀ {l : List Bytes} {X : Bytes}, X.length = bs → (∀ b ∈ l, b.length = bs) → (ctrMode E X l).length = l.length * bs
  | [], _, _, _ => by simp [ctrMode]
  | P :: l, X, hX, h => by
    have h1 : (incBlock X).length = bs := by rw [incBlock_length, hX]
    simp only [ctrMode, List.length_append, xorBytes_length, hE X hX, h P (by simp), Nat.min_self,
      ctrMode_length hE h1 fun c hc => h c (List.mem_cons_of_mem _ hc), List.length_cons, Nat.succ_mul]
    omega

/-- A mode's encryption has the length of its whole blocks. -/
theorem modeEnc_length {E : Bytes → Bytes} {bs : Nat} (hE : ∀ b : Bytes, b.length = bs → (E b).length = bs)
    (mode : Mode) (data : Bytes) {iv : Bytes} (hiv : mode = .ecb ∨ iv.length = bs) :
    (modeEnc mode E bs data iv).length = data.length / bs * bs := by
  rw [← blocks_length]
  cases mode
  · exact flatMap_length fun b hb => hE b (blocks_mem b hb)
  all_goals simp only [reduceCtorEq, false_or] at hiv
  · exact cbcEnc_length hE hiv blocks_mem
  · exact cfbEnc_length hE hiv blocks_mem
  · exact ofb_length hE hiv blocks_mem
  · exact ctrMode_length hE hiv blocks_mem

/-- A mode's decryption has the length of its whole blocks. -/
theorem modeDec_length {E D : Bytes → Bytes} {bs : Nat} (hE : ∀ b : Bytes, b.length = bs → (E b).length = bs)
    (hD : ∀ b : Bytes, b.length = bs → (D b).length = bs) (mode : Mode) (data : Bytes) {iv : Bytes}
    (hiv : mode = .ecb ∨ iv.length = bs) : (modeDec mode E D bs data iv).length = data.length / bs * bs := by
  rw [← blocks_length]
  cases mode
  · exact flatMap_length fun b hb => hD b (blocks_mem b hb)
  all_goals simp only [reduceCtorEq, false_or] at hiv
  · exact cbcDec_length hD hiv blocks_mem
  · exact cfbDec_length hE hiv blocks_mem
  · exact ofb_length hE hiv blocks_mem
  · exact ctrMode_length hE hiv blocks_mem

/-- A stream mode works on whole blocks. -/
theorem zeroExtend_length {bs : Nat} (hbs : 1 ≤ bs) (m : Bytes) : (zeroExtend bs m).length % bs = 0 := by
  simp only [zeroExtend, List.length_append, zeros_length]
  have h := Nat.mod_lt m.length hbs
  have hd := Nat.div_add_mod m.length bs
  by_cases h0 : m.length % bs = 0
  · simp [h0]
  · rw [Nat.mod_eq_of_lt (show bs - m.length % bs < bs by omega),
      show m.length + (bs - m.length % bs) = bs * (m.length / bs) + bs by omega]
    simp

/-! ## The modes over joined blocks -/

theorem flatMap_append' (E : Bytes → Bytes) (l1 l2 : List Bytes) :
    (l1 ++ l2).flatMap E = l1.flatMap E ++ l2.flatMap E := by simp

/-- CBC over two parts: the second starts from the last output block of the first. -/
theorem cbcEnc_append (E : Bytes → Bytes) : ∀ (l1 l2 : List Bytes) (X : Bytes),
    cbcEnc E X (l1 ++ l2) =
      cbcEnc E X l1 ++ cbcEnc E (l1.foldl (fun X P => E (xorBytes P X)) X) l2
  | [], _, _ => rfl
  | P :: l1, l2, X => by simp [cbcEnc, cbcEnc_append E l1 l2, List.append_assoc]

theorem cfbEnc_append (E : Bytes → Bytes) : ∀ (l1 l2 : List Bytes) (X : Bytes),
    cfbEnc E X (l1 ++ l2) =
      cfbEnc E X l1 ++ cfbEnc E (l1.foldl (fun X P => xorBytes (E X) P) X) l2
  | [], _, _ => rfl
  | P :: l1, l2, X => by simp [cfbEnc, cfbEnc_append E l1 l2, List.append_assoc]

theorem ofb_append (E : Bytes → Bytes) : ∀ (l1 l2 : List Bytes) (X : Bytes),
    ofb E X (l1 ++ l2) = ofb E X l1 ++ ofb E (l1.foldl (fun X _ => E X) X) l2
  | [], _, _ => rfl
  | P :: l1, l2, X => by simp [ofb, ofb_append E l1 l2, List.append_assoc]

theorem ctrMode_append (E : Bytes → Bytes) : ∀ (l1 l2 : List Bytes) (X : Bytes),
    ctrMode E X (l1 ++ l2) = ctrMode E X l1 ++ ctrMode E (l1.foldl (fun X _ => incBlock X) X) l2
  | [], _, _ => rfl
  | P :: l1, l2, X => by simp [ctrMode, ctrMode_append E l1 l2, List.append_assoc]

/-- CBC decryption over two parts: the second starts from the last block of the first. -/
theorem cbcDec_append (D : Bytes → Bytes) : ∀ (l1 l2 : List Bytes) (X : Bytes),
    cbcDec D X (l1 ++ l2) = cbcDec D X l1 ++ cbcDec D (l1.foldl (fun _ P => P) X) l2
  | [], _, _ => rfl
  | P :: l1, l2, X => by simp [cbcDec, cbcDec_append D l1 l2, List.append_assoc]

theorem cfbDec_append (E : Bytes → Bytes) : ∀ (l1 l2 : List Bytes) (X : Bytes),
    cfbDec E X (l1 ++ l2) = cfbDec E X l1 ++ cfbDec E (l1.foldl (fun _ P => P) X) l2
  | [], _, _ => rfl
  | P :: l1, l2, X => by simp [cfbDec, cfbDec_append E l1 l2, List.append_assoc]

/-- Whole blocks in front of a stream mode's message stay in front of its zero extension (R211). -/
theorem zeroExtend_append {bs : Nat} (m1 m2 : Bytes) (h : m1.length % bs = 0) :
    zeroExtend bs (m1 ++ m2) = m1 ++ zeroExtend bs m2 := by
  have hl : (m1.length + m2.length) % bs = m2.length % bs := by rw [Nat.add_mod, h, Nat.zero_add, Nat.mod_mod]
  simp [zeroExtend, hl]

end Sys2Proof.Machine
end

