-- ==== Sys2Proof/Laws/Padding.lean ====
section
/-! SUPPORT. The laws of the padding unit (spec/43_padding.md): the ranges of the pad lengths, the padded length, and what
removal can answer. -/

namespace Sys2Proof.Machine

/-- A full pad makes whole blocks (R180). -/
theorem add_pad_mod {bs : Nat} (hbs : 1 ≤ bs) (len : Nat) : (len + (bs - len % bs)) % bs = 0 := by
  have h := Nat.mod_lt len hbs
  have hd := Nat.div_add_mod len bs
  rw [show len + (bs - len % bs) = bs * (len / bs) + bs by omega]
  simp

theorem add_pad_mod' {bs : Nat} (hbs : 1 ≤ bs) (len : Nat) : (len + (bs - len % bs) % bs) % bs = 0 := by
  rw [Nat.add_mod_mod]
  exact add_pad_mod hbs len

/-- Every padded message is whole blocks (R180). -/
theorem padLen_mod {bs : Nat} (hbs : 1 ≤ bs) (len : Nat) {p : Padding} (hp : p ≠ .no) :
    (len + padLen len p bs) % bs = 0 := by
  cases p
  · exact absurd rfl hp
  · exact add_pad_mod hbs len
  · exact add_pad_mod' hbs len
  · exact add_pad_mod' hbs len
  · exact add_pad_mod hbs len

/-- No scheme appends more than a block (R180). -/
theorem padLen_le {bs : Nat} (hbs : 1 ≤ bs) (len : Nat) (p : Padding) : padLen len p bs ≤ bs := by
  cases p
  · exact Nat.zero_le _
  · exact Nat.sub_le _ _
  · exact Nat.le_of_lt (Nat.mod_lt _ hbs)
  · exact Nat.le_of_lt (Nat.mod_lt _ hbs)
  · exact Nat.sub_le _ _

/-- Everything `applyPadding` can answer (R180 to R185): NO fails on a partial block, and a success appends exactly
`padLen` bytes. -/
theorem applyPadding_cases {bs : Nat} (hbs : 1 ≤ bs) (m : Bytes) (p : Padding) (draw : Nat → Byte) :
    (p = .no ∧ m.length % bs ≠ 0 ∧ applyPadding m p bs draw = .error .noPaddingMismatch) ∨
    ((p = .no → m.length % bs = 0) ∧ ∃ tail, applyPadding m p bs draw = .ok (m ++ tail) ∧
      tail.length = padLen m.length p bs ∧ (m ++ tail).length % bs = 0) := by
  have hlt := Nat.mod_lt m.length hbs
  have close : ∀ (tail : Bytes), p ≠ .no → applyPadding m p bs draw = .ok (m ++ tail) →
      tail.length = padLen m.length p bs →
      (p = .no → m.length % bs = 0) ∧ ∃ tail, applyPadding m p bs draw = .ok (m ++ tail) ∧
        tail.length = padLen m.length p bs ∧ (m ++ tail).length % bs = 0 := fun tail hp h1 h2 =>
    ⟨fun h => absurd h hp, tail, h1, h2, by rw [List.length_append, h2]; exact padLen_mod hbs _ hp⟩
  cases p
  · by_cases h : m.length % bs = 0
    · refine .inr ⟨fun _ => h, [], ?_, rfl, ?_⟩
      · simp [applyPadding, h]
      · simpa using h
    · exact .inl ⟨rfl, h, by simp [applyPadding, h]⟩
  · exact .inr (close _ (by simp) rfl (by simp))
  · exact .inr (close _ (by simp) rfl (by simp))
  · exact .inr (close _ (by simp) rfl (by simp))
  · refine .inr (close _ (by simp) rfl ?_)
    simp only [List.length_cons, zeros_length, padLen]
    omega

/-- `draw` matters to RANDOM only (R184). -/
theorem applyPadding_draw (m : Bytes) {p : Padding} (bs : Nat) (d d' : Nat → Byte) (h : p ≠ .random) :
    applyPadding m p bs d = applyPadding m p bs d' := by
  cases p <;> first | rfl | exact absurd rfl h

/-- Everything `removePadding` can answer (R186 to R188): the message itself or a beginning of it, or, for PKCS5 and BIT,
PaddingVerificationFailure. -/
theorem removePadding_cases (m : Bytes) (p : Padding) (bs : Nat) :
    (∃ r, removePadding m p bs = .ok r ∧ r.length ≤ m.length) ∨
    ((p = .pkcs5 ∨ p = .bit) ∧ removePadding m p bs = .error .paddingVerificationFailure) := by
  cases p
  · exact .inl ⟨m, rfl, Nat.le_refl _⟩
  · change (∃ r, removePkcs5 m bs = .ok r ∧ _) ∨ (_ ∧ removePkcs5 m bs = _)
    unfold removePkcs5
    dsimp only
    split
    · exact .inr ⟨.inl rfl, rfl⟩
    · split
      · exact .inr ⟨.inl rfl, rfl⟩
      · split
        · exact .inl ⟨_, rfl, by simp⟩
        · exact .inr ⟨.inl rfl, rfl⟩
  · exact .inl ⟨m, rfl, Nat.le_refl _⟩
  · exact .inl ⟨m, rfl, Nat.le_refl _⟩
  · change (∃ r, removeBit m bs = .ok r ∧ _) ∨ (_ ∧ removeBit m bs = _)
    unfold removeBit
    dsimp only
    split
    · exact .inr ⟨.inr rfl, rfl⟩
    · split
      · rename_i b before hb _
        refine .inl ⟨_, rfl, ?_⟩
        have := congrArg List.length hb
        simp at this
        simp
        omega
      · exact .inr ⟨.inr rfl, rfl⟩

/-- Zeros and then a byte that is none: the scan stops at that byte (R188). -/
theorem zeroRun_zeros (n limit : Nat) {b : Byte} (hb : b ≠ 0) (s : Bytes) (h : n ≤ limit) :
    zeroRun limit (zeros n ++ b :: s) = n := by
  induction n generalizing limit with
  | zero =>
    cases limit with
    | zero => rfl
    | succ l => exact if_neg hb
  | succ n ih =>
    obtain ⟨limit, rfl⟩ : ∃ k, limit = k + 1 := ⟨limit - 1, by omega⟩
    have := ih limit (by omega)
    exact (if_pos rfl).trans (congrArg (· + 1) this)

/-- What the scan skips is zeros, within its limit (R188). -/
theorem zeroRun_spec : ∀ (limit : Nat) (s : Bytes),
    zeroRun limit s ≤ limit ∧ s.take (zeroRun limit s) = zeros (zeroRun limit s)
  | 0, s => by simp [zeroRun, zeros]
  | limit + 1, [] => by simp [zeroRun, zeros]
  | limit + 1, b :: s => by
    have h := zeroRun_spec limit s
    unfold zeroRun
    split
    · subst b
      refine ⟨by omega, ?_⟩
      rw [List.take_succ_cons, h.2]
      rfl
    · simp [zeros]

/-- Whole blocks in front do not change the pad (R180). -/
theorem padLen_add {bs : Nat} (a b : Nat) (p : Padding) (h : a % bs = 0) : padLen (a + b) p bs = padLen b p bs := by
  have : (a + b) % bs = b % bs := by rw [Nat.add_mod, h, Nat.zero_add, Nat.mod_mod]
  cases p <;> simp [padLen, this]

/-- Whole blocks in front of a message stay in front of the padded message (R181 to R185). -/
theorem applyPadding_append {bs : Nat} (m1 m2 : Bytes) (p : Padding) (draw : Nat → Byte) (h : m1.length % bs = 0) :
    applyPadding (m1 ++ m2) p bs draw = (applyPadding m2 p bs draw).map (m1 ++ ·) := by
  have hl : (m1.length + m2.length) % bs = m2.length % bs := by rw [Nat.add_mod, h, Nat.zero_add, Nat.mod_mod]
  cases p <;> simp only [applyPadding, List.length_append, padLen_add _ _ _ h, hl, Except.map, List.append_assoc]
  split <;> rfl

/-- A scan whose limit is within the first part sees nothing of the second. -/
theorem zeroRun_append (limit : Nat) : ∀ (a b : Bytes), limit ≤ a.length →
    zeroRun limit (a ++ b) = zeroRun limit a := by
  induction limit with
  | zero => intros; simp [zeroRun]
  | succ n ih =>
    intro a b h
    cases a with
    | nil => simp at h
    | cons x a =>
      simp only [List.cons_append, zeroRun]
      rw [ih a b (by simpa using h)]

/-- What stands in front of a last whole block stays in front of the message with its pad removed (R186 to R188). -/
theorem removePadding_append {bs : Nat} (hbs : 1 ≤ bs) (m1 m2 : Bytes) (p : Padding)
    (h : p = .pkcs5 ∨ p = .bit → bs ≤ m2.length) :
    removePadding (m1 ++ m2) p bs = (removePadding m2 p bs).map (m1 ++ ·) := by
  cases p
  case no => rfl
  case zero => rfl
  case random => rfl
  case pkcs5 =>
    have h := h (.inl rfl)
    change removePkcs5 _ _ = (removePkcs5 _ _).map _
    unfold removePkcs5
    rw [List.getLast?_append_of_ne_nil _ (by rintro rfl; simp at h; omega)]
    cases hg : m2.getLast? with
    | none => rfl
    | some b =>
      dsimp only
      by_cases hn : b.toNat = 0 ∨ b.toNat > bs
      · rw [if_pos (by omega), if_pos (by omega)]
        rfl
      · have e : (m1 ++ m2).length - b.toNat = m1.length + (m2.length - b.toNat) := by
          simp
          omega
        rw [if_neg (show ¬ (b.toNat = 0 ∨ b.toNat > bs ∨ b.toNat > (m1 ++ m2).length) by rw [List.length_append]; omega),
          if_neg (show ¬ (b.toNat = 0 ∨ b.toNat > bs ∨ b.toNat > m2.length) by omega), e, List.drop_length_add_append,
          List.take_length_add_append]
        split <;> rfl
  case bit =>
    have h := h (.inr rfl)
    change removeBit _ _ = (removeBit _ _).map _
    unfold removeBit
    dsimp only
    have hz := (zeroRun_spec (bs - 1) m2.reverse).1
    rw [List.reverse_append, zeroRun_append _ _ _ (by simp; omega), List.drop_append_of_le_length (by simp; omega)]
    cases hd : m2.reverse.drop (zeroRun (bs - 1) m2.reverse) with
    | nil =>
      have := congrArg List.length hd
      simp at this
      omega
    | cons b before =>
      simp only [List.cons_append]
      split <;> simp [Except.map]

end Sys2Proof.Machine
end

