-- ==== Sys2Proof/Laws/State.lean ====
section
/-! SUPPORT. One lemma per field per update of the state, each true by `rfl`, so that no proof unfolds an update. -/

namespace Sys2Proof.Machine

variable (s : State)

/-! ## `accept` -/

@[simp] theorem accept_config (v : Word32) : (s.accept v).config = s.config := rfl
@[simp] theorem accept_keylen (v : Word32) : (s.accept v).keylen = s.keylen := rfl
@[simp] theorem accept_ivlen (v : Word32) : (s.accept v).ivlen = s.ivlen := rfl
@[simp] theorem accept_inlen (v : Word32) : (s.accept v).inlen = s.inlen := rfl
@[simp] theorem accept_outlen (v : Word32) : (s.accept v).outlen = s.outlen := rfl
@[simp] theorem accept_done (v : Word32) : (s.accept v).done = false := rfl
@[simp] theorem accept_err (v : Word32) : (s.accept v).err = none := rfl
@[simp] theorem accept_seq (v : Word32) : (s.accept v).seq = .busy (latchOf s v) := rfl
@[simp] theorem accept_mem (v : Word32) : (s.accept v).mem = s.mem := rfl
@[simp] theorem accept_stores (v : Word32) : (s.accept v).stores = s.stores := rfl
@[simp] theorem accept_serial (v : Word32) : (s.accept v).serial = s.serial := rfl
@[simp] theorem accept_hostFault (v : Word32) : (s.accept v).hostFault = s.hostFault := rfl
@[simp] theorem accept_responses (v : Word32) : (s.accept v).responses = s.responses := rfl
@[simp] theorem accept_inputs (v : Word32) : (s.accept v).inputs = s.inputs := rfl

/-! ## `answer` -/

@[simp] theorem answer_config (r : BusResponse) : (s.answer r).config = s.config := rfl
@[simp] theorem answer_keylen (r : BusResponse) : (s.answer r).keylen = s.keylen := rfl
@[simp] theorem answer_ivlen (r : BusResponse) : (s.answer r).ivlen = s.ivlen := rfl
@[simp] theorem answer_inlen (r : BusResponse) : (s.answer r).inlen = s.inlen := rfl
@[simp] theorem answer_outlen (r : BusResponse) : (s.answer r).outlen = s.outlen := rfl
@[simp] theorem answer_done (r : BusResponse) : (s.answer r).done = s.done := rfl
@[simp] theorem answer_err (r : BusResponse) : (s.answer r).err = s.err := rfl
@[simp] theorem answer_seq (r : BusResponse) : (s.answer r).seq = s.seq := rfl
@[simp] theorem answer_mem (r : BusResponse) : (s.answer r).mem = s.mem := rfl
@[simp] theorem answer_stores (r : BusResponse) : (s.answer r).stores = s.stores := rfl
@[simp] theorem answer_serial (r : BusResponse) : (s.answer r).serial = s.serial := rfl
@[simp] theorem answer_hostFault (r : BusResponse) : (s.answer r).hostFault = s.hostFault := rfl
@[simp] theorem answer_responses (r : BusResponse) : (s.answer r).responses = r :: s.responses := rfl
@[simp] theorem answer_inputs (r : BusResponse) : (s.answer r).inputs = s.inputs := rfl

/-! ## `refuse` -/

@[simp] theorem refuse_config (a : Access) : (s.refuse a).config = s.config := rfl
@[simp] theorem refuse_keylen (a : Access) : (s.refuse a).keylen = s.keylen := rfl
@[simp] theorem refuse_ivlen (a : Access) : (s.refuse a).ivlen = s.ivlen := rfl
@[simp] theorem refuse_inlen (a : Access) : (s.refuse a).inlen = s.inlen := rfl
@[simp] theorem refuse_outlen (a : Access) : (s.refuse a).outlen = s.outlen := rfl
@[simp] theorem refuse_done (a : Access) : (s.refuse a).done = s.done := rfl
@[simp] theorem refuse_err (a : Access) : (s.refuse a).err = s.err := rfl
@[simp] theorem refuse_seq (a : Access) : (s.refuse a).seq = s.seq := rfl
@[simp] theorem refuse_mem (a : Access) : (s.refuse a).mem = s.mem := rfl
@[simp] theorem refuse_stores (a : Access) : (s.refuse a).stores = s.stores := rfl
@[simp] theorem refuse_serial (a : Access) : (s.refuse a).serial = s.serial := rfl
@[simp] theorem refuse_hostFault (a : Access) : (s.refuse a).hostFault = some a := rfl
@[simp] theorem refuse_responses (a : Access) : (s.refuse a).responses = { error := true, data := 0 } :: s.responses := rfl
@[simp] theorem refuse_inputs (a : Access) : (s.refuse a).inputs = s.inputs := rfl

/-! ## `answerRead` -/

@[simp] theorem answerRead_config (v : Word32) : (s.answerRead v).config = s.config := rfl
@[simp] theorem answerRead_keylen (v : Word32) : (s.answerRead v).keylen = s.keylen := rfl
@[simp] theorem answerRead_ivlen (v : Word32) : (s.answerRead v).ivlen = s.ivlen := rfl
@[simp] theorem answerRead_inlen (v : Word32) : (s.answerRead v).inlen = s.inlen := rfl
@[simp] theorem answerRead_outlen (v : Word32) : (s.answerRead v).outlen = s.outlen := rfl
@[simp] theorem answerRead_done (v : Word32) : (s.answerRead v).done = s.done := rfl
@[simp] theorem answerRead_err (v : Word32) : (s.answerRead v).err = s.err := rfl
@[simp] theorem answerRead_seq (v : Word32) : (s.answerRead v).seq = s.seq := rfl
@[simp] theorem answerRead_mem (v : Word32) : (s.answerRead v).mem = s.mem := rfl
@[simp] theorem answerRead_stores (v : Word32) : (s.answerRead v).stores = s.stores := rfl
@[simp] theorem answerRead_serial (v : Word32) : (s.answerRead v).serial = s.serial := rfl
@[simp] theorem answerRead_hostFault (v : Word32) : (s.answerRead v).hostFault = s.hostFault := rfl
@[simp] theorem answerRead_responses (v : Word32) : (s.answerRead v).responses = { error := false, data := v } :: s.responses := rfl
@[simp] theorem answerRead_inputs (v : Word32) : (s.answerRead v).inputs = s.inputs := rfl

/-! ## `completeOk` -/

@[simp] theorem completeOk_config (out : Bytes) : (s.completeOk out).config = s.config := rfl
@[simp] theorem completeOk_keylen (out : Bytes) : (s.completeOk out).keylen = s.keylen := rfl
@[simp] theorem completeOk_ivlen (out : Bytes) : (s.completeOk out).ivlen = s.ivlen := rfl
@[simp] theorem completeOk_inlen (out : Bytes) : (s.completeOk out).inlen = s.inlen := rfl
@[simp] theorem completeOk_outlen (out : Bytes) : (s.completeOk out).outlen = BitVec.ofNat 32 out.length := rfl
@[simp] theorem completeOk_done (out : Bytes) : (s.completeOk out).done = true := rfl
@[simp] theorem completeOk_err (out : Bytes) : (s.completeOk out).err = none := rfl
@[simp] theorem completeOk_seq (out : Bytes) : (s.completeOk out).seq = .idle := rfl
@[simp] theorem completeOk_mem (out : Bytes) : (s.completeOk out).mem = writeOut s.config s.mem out := rfl
@[simp] theorem completeOk_stores (out : Bytes) : (s.completeOk out).stores = Config.unspecifiedStores s.serial := rfl
@[simp] theorem completeOk_serial (out : Bytes) : (s.completeOk out).serial = s.serial + 1 := rfl
@[simp] theorem completeOk_hostFault (out : Bytes) : (s.completeOk out).hostFault = s.hostFault := rfl
@[simp] theorem completeOk_responses (out : Bytes) : (s.completeOk out).responses = s.responses := rfl
@[simp] theorem completeOk_inputs (out : Bytes) : (s.completeOk out).inputs = s.inputs := rfl

/-! ## `completeError` -/

@[simp] theorem completeError_config (e : CmdError) : (s.completeError e).config = s.config := rfl
@[simp] theorem completeError_keylen (e : CmdError) : (s.completeError e).keylen = s.keylen := rfl
@[simp] theorem completeError_ivlen (e : CmdError) : (s.completeError e).ivlen = s.ivlen := rfl
@[simp] theorem completeError_inlen (e : CmdError) : (s.completeError e).inlen = s.inlen := rfl
@[simp] theorem completeError_outlen (e : CmdError) : (s.completeError e).outlen = 0 := rfl
@[simp] theorem completeError_done (e : CmdError) : (s.completeError e).done = true := rfl
@[simp] theorem completeError_err (e : CmdError) : (s.completeError e).err = some e := rfl
@[simp] theorem completeError_seq (e : CmdError) : (s.completeError e).seq = .idle := rfl
@[simp] theorem completeError_mem (e : CmdError) : (s.completeError e).mem = writeOut s.config s.mem [] := rfl
@[simp] theorem completeError_stores (e : CmdError) : (s.completeError e).stores = Config.unspecifiedStores s.serial := rfl
@[simp] theorem completeError_serial (e : CmdError) : (s.completeError e).serial = s.serial + 1 := rfl
@[simp] theorem completeError_hostFault (e : CmdError) : (s.completeError e).hostFault = s.hostFault := rfl
@[simp] theorem completeError_responses (e : CmdError) : (s.completeError e).responses = s.responses := rfl
@[simp] theorem completeError_inputs (e : CmdError) : (s.completeError e).inputs = s.inputs := rfl

/-! ## `rst` -/

@[simp] theorem rst_config : s.rst.config = s.config := rfl
@[simp] theorem rst_keylen : s.rst.keylen = 0 := rfl
@[simp] theorem rst_ivlen : s.rst.ivlen = 0 := rfl
@[simp] theorem rst_inlen : s.rst.inlen = 0 := rfl
@[simp] theorem rst_outlen : s.rst.outlen = 0 := rfl
@[simp] theorem rst_done : s.rst.done = false := rfl
@[simp] theorem rst_err : s.rst.err = none := rfl
@[simp] theorem rst_seq : s.rst.seq = .idle := rfl
@[simp] theorem rst_mem : s.rst.mem = [] := rfl
@[simp] theorem rst_stores : s.rst.stores = Config.unspecifiedStores s.serial := rfl
@[simp] theorem rst_serial : s.rst.serial = s.serial + 1 := rfl
@[simp] theorem rst_hostFault : s.rst.hostFault = s.hostFault := rfl
@[simp] theorem rst_responses : s.rst.responses = s.responses := rfl
@[simp] theorem rst_inputs : s.rst.inputs = s.inputs := rfl

/-! ## BUSY -/

@[simp] theorem isBusy_accept (v : Word32) : (s.accept v).isBusy = true := rfl
@[simp] theorem isBusy_completeOk (out : Bytes) : (s.completeOk out).isBusy = false := rfl
@[simp] theorem isBusy_completeError (e : CmdError) : (s.completeError e).isBusy = false := rfl
@[simp] theorem isBusy_rst : s.rst.isBusy = false := rfl

theorem isBusy_of_busy {s : State} {l : Latch} (h : s.seq = .busy l) : s.isBusy = true := by
  simp [State.isBusy, h]

theorem isBusy_of_idle {s : State} (h : s.seq = .idle) : s.isBusy = false := by
  simp [State.isBusy, h]

theorem busy_of_isBusy {s : State} (h : s.isBusy = true) : ∃ l, s.seq = .busy l := by
  unfold State.isBusy at h
  split at h
  · cases h
  · exact ⟨_, ‹_›⟩

theorem idle_of_not_isBusy {s : State} (h : s.isBusy = false) : s.seq = .idle := by
  unfold State.isBusy at h
  split at h
  · assumption
  · cases h

/-! ## `complete` -/

@[simp] theorem complete_ok (out : Bytes) : s.complete (.ok out) = s.completeOk out := rfl
@[simp] theorem complete_error (e : CmdError) : s.complete (.error e) = s.completeError e := rfl

/-- The bytes a completion leaves in OUT: the output, or nothing (spec/45_commands.md R232). -/
def outBytesOf : Except CmdError Bytes → Bytes
  | .ok out => out
  | .error _ => []

/-- The error a completion leaves in STATUS.ERR (spec/45_commands.md R232). -/
def errOf : Except CmdError Bytes → Option CmdError
  | .ok _ => none
  | .error e => some e

/-- A completion in one form for both cases: everything it writes. -/
theorem complete_eq (r : Except CmdError Bytes) :
    s.complete r =
      { s with
        seq := .idle
        done := true
        err := errOf r
        outlen := BitVec.ofNat 32 (outBytesOf r).length
        mem := writeOut s.config s.mem (outBytesOf r)
        stores := Config.unspecifiedStores s.serial
        serial := s.serial + 1 } := by
  cases r <;> rfl

/-! ## Writes of the window change only what they name -/

/-- A byte write changes the memory, if anything. -/
theorem writeByte_eq (off : Nat) (b : Byte) :
    writeByte s off b = { s with mem := if isInput s.config off then memWrite s.mem off b else s.mem } := by
  unfold writeByte
  split <;> rfl

@[simp] theorem writeByte_config (off : Nat) (b : Byte) : (writeByte s off b).config = s.config := by
  rw [writeByte_eq]

/-- A 32-bit write of the buffers changes the memory, if anything. -/
theorem writeWord_buffers (off : Nat) (v : Word32) (h : regEnd ≤ off) :
    writeWord s off v = { s with mem := (writeWord s off v).mem } := by
  have h' : ¬ off < regEnd := by omega
  unfold writeWord
  rw [if_neg h']
  simp only [writeByte_eq]

end Sys2Proof.Machine
end

