-- ==== Sys2Proof/Laws/Window.lean ====
section
/-! SUPPORT. The laws of the register window: its ranges as numbers, reads after writes, the byte lanes
(spec/20_memory.md R51), and OUT after a completion (spec/45_commands.md R232). -/

namespace Sys2Proof.Machine

/-! ## Ranges -/

theorem isInput_iff (c : Config) (off : Nat) :
    isInput c off = true ↔
      (0x100 ≤ off ∧ off < 0x200) ∨ (0x200 ≤ off ∧ off < 0x240) ∨ (0x10000 ≤ off ∧ off < 0x10000 + c.msgMax) := by
  simp only [isInput, Bool.or_eq_true, Bool.and_eq_true, decide_eq_true_eq, or_assoc]
  rfl

theorem isOutput_iff (c : Config) (off : Nat) :
    isOutput c off = true ↔ (0x20000 ≤ off ∧ off < 0x20000 + c.msgMax + 64) := by
  simp only [isOutput, Bool.and_eq_true, decide_eq_true_eq]
  rfl

/-- No offset is both an input and an output. -/
theorem isOutput_of_isInput {c : Config} (hc : c.WF) {off : Nat} (h : isInput c off = true) : isOutput c off = false := by
  rw [← Bool.not_eq_true, isOutput_iff]
  rw [isInput_iff] at h
  have := hc.2.1
  omega

theorem isInput_of_isOutput {c : Config} (hc : c.WF) {off : Nat} (h : isOutput c off = true) : isInput c off = false := by
  rw [← Bool.not_eq_true, isInput_iff]
  rw [isOutput_iff] at h
  have := hc.2.1
  omega

/-- Which addresses an 8-bit access is admitted at (20_memory.md R52). -/
theorem admit8_eq_none (c : Config) (x : Nat) :
    admit8 c x = none ↔ ¬ (c.engineBase + 0x100 ≤ x ∧ x < c.engineBase + 0x40000) := by
  unfold admit8 windowOffset windowSize regEnd
  split
  · split at * <;> simp_all
    omega
  · rename_i off h
    split at h <;> simp_all
    subst h
    omega

/-- Which addresses a 32-bit access is admitted at, for a window on its boundary (20_memory.md R50, R52). -/
theorem admit32_eq_none {c : Config} (hc : c.WF) (x : Nat) :
    admit32 c x = none ↔ ¬ (c.engineBase ≤ x ∧ x < c.engineBase + 0x40000 ∧ x % 4 = 0) := by
  have h3 := hc.2.2
  unfold admit32 windowOffset windowSize
  split
  · split at * <;> simp_all
  · rename_i off h
    split at h <;> simp_all
    subst h
    omega

/-! ## Byte writes -/

theorem memWf_writeByte {s : State} (h : memWf s.mem = true) (off : Nat) (b : Byte) :
    memWf (writeByte s off b).mem = true := by
  rw [writeByte_eq]
  simp only
  split
  · exact memWf_write _ _ h
  · exact h

/-- A 32-bit write keeps the canonical form. -/
theorem memWf_writeWord {s : State} (h : memWf s.mem = true) (off : Nat) (v : Word32) :
    memWf (writeWord s off v).mem = true := by
  unfold writeWord
  split
  · unfold writeReg
    repeat' split
    all_goals exact h
  · exact memWf_writeByte (memWf_writeByte (memWf_writeByte (memWf_writeByte h _ _) _ _) _ _) _ _

/-- The host reads the byte it wrote, and every other byte as before. -/
theorem readByte_writeByte {s : State} (hm : memWf s.mem = true) {off : Nat} (hi : isInput s.config off = true)
    (x : Nat) (b : Byte) : readByte (writeByte s off b) x = if x = off then b else readByte s x := by
  rw [writeByte_eq, hi]
  unfold readByte
  simp only [if_true]
  by_cases hx : x = off
  · subst hx
    simp [hi, memRead_write_same hm]
  · simp only [hx, if_false, memRead_write_ne hm b hx]
    rfl

/-- A byte write leaves every other address of memory alone. -/
theorem memRead_writeByte_ne {s : State} (hm : memWf s.mem = true) {off x : Nat} (b : Byte) (hx : x ≠ off) :
    memRead (writeByte s off b).mem x = memRead s.mem x := by
  rw [writeByte_eq]
  simp only
  split
  · exact memRead_write_ne hm b hx
  · rfl

/-- A 32-bit write of the buffers leaves every address but its four alone. -/
theorem memRead_writeWord_ne {s : State} (hm : memWf s.mem = true) {off x : Nat} (v : Word32) (ho : regEnd ≤ off)
    (hx : ¬ (off ≤ x ∧ x < off + 4)) : memRead (writeWord s off v).mem x = memRead s.mem x := by
  have h : ¬ off < regEnd := by omega
  unfold writeWord
  rw [if_neg h]
  have h1 := memWf_writeByte hm off (v.extractLsb' 0 8)
  have h2 := memWf_writeByte h1 (off + 1) (v.extractLsb' 8 8)
  have h3 := memWf_writeByte h2 (off + 2) (v.extractLsb' 16 8)
  rw [memRead_writeByte_ne h3 _ (by omega), memRead_writeByte_ne h2 _ (by omega), memRead_writeByte_ne h1 _ (by omega),
    memRead_writeByte_ne hm _ (by omega)]

/-! ## Byte lanes (20_memory.md R51) -/

/-- Bit `j` of a word joined from four bytes. -/
theorem getLsbD_append4 (b3 b2 b1 b0 : Byte) (j : Nat) :
    BitVec.getLsbD (b3 ++ b2 ++ b1 ++ b0) j =
      if j < 8 then b0.getLsbD j else if j - 8 < 8 then b1.getLsbD (j - 8)
      else if j - 8 - 8 < 8 then b2.getLsbD (j - 8 - 8) else b3.getLsbD (j - 8 - 8 - 8) := by
  rw [BitVec.getLsbD_append, BitVec.getLsbD_append, BitVec.getLsbD_append]

/-- Byte `k` of a word joined from four bytes. -/
theorem lane_append (b3 b2 b1 b0 : Byte) {k : Nat} (hk : k < 4) :
    (b3 ++ b2 ++ b1 ++ b0 : BitVec 32).extractLsb' (8 * k) 8 =
      if k = 0 then b0 else if k = 1 then b1 else if k = 2 then b2 else b3 := by
  apply BitVec.eq_of_getLsbD_eq
  intro i hi
  have h : k = 0 ∨ k = 1 ∨ k = 2 ∨ k = 3 := by omega
  rw [BitVec.getLsbD_extractLsb', decide_eq_true hi, Bool.true_and]
  refine (getLsbD_append4 b3 b2 b1 b0 _).trans ?_
  rcases h with rfl | rfl | rfl | rfl
  · rw [if_pos (by omega), Nat.mul_zero, Nat.zero_add]
    rfl
  · rw [if_neg (by omega), if_pos (by omega), show 8 * 1 + i - 8 = i by omega]
    rfl
  · rw [if_neg (by omega), if_neg (by omega), if_pos (by omega), show 8 * 2 + i - 8 - 8 = i by omega]
    rfl
  · rw [if_neg (by omega), if_neg (by omega), if_neg (by omega), show 8 * 3 + i - 8 - 8 - 8 = i by omega]
    rfl

/-- Byte `k` of a 32-bit read of the buffers is the byte at `off + k`. -/
theorem lane_readWord (s : State) {off k : Nat} (ho : regEnd ≤ off) (hk : k < 4) :
    (readWord s off).extractLsb' (8 * k) 8 = readByte s (off + k) := by
  have h : ¬ off < regEnd := by omega
  unfold readWord
  rw [if_neg h, lane_append _ _ _ _ hk]
  have h4 : k = 0 ∨ k = 1 ∨ k = 2 ∨ k = 3 := by omega
  rcases h4 with rfl | rfl | rfl | rfl <;> simp

/-- Words with equal bytes are equal. -/
theorem word_ext_lanes {v w : Word32} (h : ∀ k < 4, v.extractLsb' (8 * k) 8 = w.extractLsb' (8 * k) 8) : v = w := by
  apply BitVec.eq_of_getLsbD_eq
  intro i hi
  have := congrArg (fun x => x.getLsbD (i % 8)) (h (i / 8) (by omega))
  simpa [show i % 8 < 8 by omega, show 8 * (i / 8) + i % 8 = i by omega] using this

/-! ## OUT after a completion (45_commands.md R232) -/

/-- Byte `k` of OUT: the output, then zeros. -/
theorem memRead_writeOut_out (c : Config) (out : Bytes) {m : List Host.Cell} (h : memWf m = true) {k : Nat}
    (hk : k < outSize c) : memRead (writeOut c m out) (outBase + k) = out.getD k 0 := by
  rw [memRead_writeOut c out _ h]
  by_cases ho : k < out.length
  · rw [if_pos ⟨by omega, by omega⟩, Nat.add_sub_cancel_left]
  · rw [if_neg (by omega), if_pos ⟨by omega, by omega⟩, List.getD_eq_default _ _ (by omega)]

/-- A completion writes nothing but OUT. -/
theorem memRead_writeOut_outside (c : Config) {out : Bytes} {m : List Host.Cell} (h : memWf m = true)
    (hl : out.length ≤ outSize c) {x : Nat} (hx : ¬ (outBase ≤ x ∧ x < outBase + outSize c)) :
    memRead (writeOut c m out) x = memRead m x := by
  rw [memRead_writeOut c out _ h, if_neg (by omega), if_neg hx]

/-! ## Everything a write of the buffers can do -/

/-- A byte write changes nothing but memory. -/
theorem writeByte_mem (s : State) (off : Nat) (b : Byte) : ∃ m, writeByte s off b = { s with mem := m } := by
  unfold writeByte
  split
  · exact ⟨_, rfl⟩
  · exact ⟨s.mem, rfl⟩

/-- A word write of the buffers changes nothing but memory. -/
theorem writeWord_mem (s : State) (off : Nat) (v : Word32) (h : regEnd ≤ off) :
    ∃ m, writeWord s off v = { s with mem := m } := by
  unfold writeWord
  rw [if_neg (by omega)]
  obtain ⟨m0, h0⟩ := writeByte_mem s off (v.extractLsb' 0 8)
  rw [h0]
  obtain ⟨m0, h0⟩ := writeByte_mem { s with mem := m0 } (off + 1) (v.extractLsb' 8 8)
  rw [h0]
  obtain ⟨m0, h0⟩ := writeByte_mem { s with mem := m0 } (off + 2) (v.extractLsb' 16 8)
  rw [h0]
  obtain ⟨m0, h0⟩ := writeByte_mem { s with mem := m0 } (off + 3) (v.extractLsb' 24 8)
  exact ⟨m0, h0⟩

/-- What every offset reads after a byte write (20_memory.md R53, R54). -/
theorem readByte_writeByte_all (s : State) (off : Nat) (b : Byte) (hm : memWf s.mem = true) (x : Nat) :
    readByte (writeByte s off b) x = if x = off ∧ isInput s.config off = true then b else readByte s x := by
  by_cases hi : isInput s.config off = true
  · by_cases hx : x = off
    · subst hx
      simp [hi, readByte_writeByte hm hi]
    · rw [if_neg (by tauto)]
      unfold readByte
      obtain ⟨m, h⟩ := writeByte_mem s off b
      have := memRead_writeByte_ne hm b hx
      rw [h] at this ⊢
      simp only at this
      rw [this]
      rfl
  · rw [if_neg (by tauto)]
    unfold writeByte
    rw [if_neg hi]

/-- What every offset reads after a word write: each byte of KEY, IV or IN that it covers is its lane (20_memory.md R51). -/
theorem readByte_writeWord (s : State) (off : Nat) (v : Word32) (ho : regEnd ≤ off) (hm : memWf s.mem = true) (x : Nat) :
    readByte (writeWord s off v) x =
      if x = off + 3 ∧ isInput s.config (off + 3) = true then v.extractLsb' 24 8
      else if x = off + 2 ∧ isInput s.config (off + 2) = true then v.extractLsb' 16 8
      else if x = off + 1 ∧ isInput s.config (off + 1) = true then v.extractLsb' 8 8
      else if x = off ∧ isInput s.config off = true then v.extractLsb' 0 8 else readByte s x := by
  have hc : ∀ (s : State) o b, (writeByte s o b).config = s.config := fun s o b => by
    obtain ⟨m, h⟩ := writeByte_mem s o b
    rw [h]
  unfold writeWord
  rw [if_neg (by omega)]
  have m1 := memWf_writeByte hm off (v.extractLsb' 0 8)
  have m2 := memWf_writeByte m1 (off + 1) (v.extractLsb' 8 8)
  have m3 := memWf_writeByte m2 (off + 2) (v.extractLsb' 16 8)
  rw [readByte_writeByte_all _ _ _ m3, readByte_writeByte_all _ _ _ m2, readByte_writeByte_all _ _ _ m1,
    readByte_writeByte_all _ _ _ hm]
  simp only [hc]

end Sys2Proof.Machine
end

