-- ==== Sys2Proof/Laws/Commands.lean ====
section
/-! SUPPORT. The laws of the commands: the fourteen meanings in one form, what `Run` answers and how long its output is
(spec/45_commands.md R231, R232), and what a latch of the invariant holds. -/

namespace Sys2Proof.Machine

/-! ## The fourteen meanings in one form -/

/-- The operands of a command as `Run` takes them. -/
def requestOf : Instr → Request
  | .aEncEcb p => { op := .enc, cipher := .a, mode := .block .ecb p }
  | .aEncCbc p => { op := .enc, cipher := .a, mode := .block .cbc p }
  | .aDecEcb p => { op := .dec, cipher := .a, mode := .block .ecb p }
  | .aDecCbc p => { op := .dec, cipher := .a, mode := .block .cbc p }
  | .bEncEcb p w r => { op := .enc, cipher := .b w r, mode := .block .ecb p }
  | .bEncCbc p w r => { op := .enc, cipher := .b w r, mode := .block .cbc p }
  | .bEncCfb w r => { op := .enc, cipher := .b w r, mode := .stream .cfb }
  | .bEncOfb w r => { op := .enc, cipher := .b w r, mode := .stream .ofb }
  | .bEncCtr w r => { op := .enc, cipher := .b w r, mode := .stream .ctr }
  | .bDecEcb p w r => { op := .dec, cipher := .b w r, mode := .block .ecb p }
  | .bDecCbc p w r => { op := .dec, cipher := .b w r, mode := .block .cbc p }
  | .bDecCfb w r => { op := .dec, cipher := .b w r, mode := .stream .cfb }
  | .bDecOfb w r => { op := .dec, cipher := .b w r, mode := .stream .ofb }
  | .bDecCtr w r => { op := .dec, cipher := .b w r, mode := .stream .ctr }

theorem exec_eq (i : Instr) (s : State) : exec i s = runCommand (requestOf i) s := by cases i <;> rfl

theorem runCommand_idle (q : Request) {s : State} (h : s.seq = .idle) : runCommand q s = .next s := by
  simp [runCommand, h]

theorem runCommand_busy (q : Request) {s : State} {l : Latch} (h : s.seq = .busy l) :
    runCommand q s = .next (s.complete (run q s.config.msgMax l (Config.entropy s.serial))) := by
  simp [runCommand, h]

/-- Everything a command can do: nothing from IDLE, a completion of the latch from BUSY. -/
theorem exec_cases {i : Instr} {s t : State} (h : exec i s = .next t) :
    (s.seq = .idle ∧ t = s) ∨
    ∃ l, s.seq = .busy l ∧ t = s.complete (run (requestOf i) s.config.msgMax l (Config.entropy s.serial)) := by
  rw [exec_eq] at h
  unfold runCommand at h
  split at h
  · cases h
    exact .inl ⟨‹_›, rfl⟩
  · cases h
    exact .inr ⟨_, ‹_›, rfl⟩

/-- Everything the engine's turn can do (spec/10_state.md R35): nothing from IDLE, a completion from BUSY. -/
theorem engineStep_cases (s : State) :
    (s.seq = .idle ∧ engineStep s = .next s) ∨
    ∃ l, s.seq = .busy l ∧
      ((∃ i, decode l.cmd = .ok i ∧ engineStep s = exec i s ∧
        engineStep s = .next (s.complete (run (requestOf i) s.config.msgMax l (Config.entropy s.serial)))) ∨
      (∃ e, decode l.cmd = .error e ∧ engineStep s = .next (s.completeError e))) := by
  unfold engineStep
  cases h : s.seq with
  | idle => exact .inl ⟨rfl, rfl⟩
  | busy l =>
    refine .inr ⟨l, rfl, ?_⟩
    simp only
    cases hd : decode l.cmd with
    | ok i => exact .inl ⟨i, rfl, rfl, by simp only [exec_eq]; exact runCommand_busy _ h⟩
    | error e => exact .inr ⟨e, rfl, rfl⟩

/-! ## Block sizes and block functions -/

/-- A command of a legal word size has a block of 4 to 64 bytes (spec/00_scope.md R7). -/
theorem blockSize_bounds {c : CipherArgs} (h : c.wordSizeOk = true) : 1 ≤ c.blockSize ∧ c.blockSize ≤ 64 := by
  cases c with
  | a => exact ⟨by decide, by decide⟩
  | b wsel r =>
    cases wsel with
    | size z => cases z <;> simp [CipherArgs.blockSize, wselWidth, WselField.code, WordSize.code]
    | unsupported c => simp [CipherArgs.wordSizeOk] at h

/-- Both block functions answer blocks. -/
theorem blockFns_length (c : CipherArgs) (key block : Bytes) :
    ((c.blockFns key).enc block).length = c.blockSize ∧ ((c.blockFns key).dec block).length = c.blockSize := by
  cases c with
  | a => exact ⟨encA_length _ _, decA_length _ _⟩
  | b wsel r => exact ⟨encB_length _ _ _, decB_length _ _ _⟩

/-! ## Validate -/

/-- What holds of a command that passes `Validate` (spec/60_exceptions.md R271). -/
theorem validate_none {q : Request} {msgMax : Nat} {l : Latch} (h : validate q msgMax l = none) :
    q.cipher.wordSizeOk = true ∧ q.mode.paddingOk = true ∧ q.cipher.keyLengthOk l.keylen.toNat = true ∧
      q.mode.ivLengthOk l.ivlen.toNat q.cipher.blockSize = true ∧ l.inlen.toNat ≤ msgMax ∧
      q.ciphertextLengthOk l.inlen.toNat = true ∧ q.noPaddingOk l.inlen.toNat = true := by
  unfold validate at h
  split at h
  · cases h
  split at h
  · cases h
  split at h
  · cases h
  split at h
  · cases h
  split at h
  · cases h
  split at h
  · cases h
  split at h
  · cases h
  simp_all

/-- `Validate` raises no PaddingVerificationFailure (spec/60_exceptions.md R262). -/
theorem validate_ne_padding (q : Request) (msgMax : Nat) (l : Latch) :
    validate q msgMax l ≠ some .paddingVerificationFailure := by
  unfold validate
  repeat' split
  all_goals simp

/-! ## Run -/

/-- A latch whose byte sequences have the lengths that acceptance gives them (spec/45_commands.md R230). -/
def LatchSized (msgMax : Nat) (l : Latch) : Prop :=
  l.key.length = min l.keylen.toNat 256 ∧ l.iv.length = min l.ivlen.toNat 64 ∧ l.msg.length = min l.inlen.toNat msgMax

theorem latchOf_sized (s : State) (cmd : Word32) : LatchSized s.config.msgMax (latchOf s cmd) := by
  simp [LatchSized, latchOf, keySize, ivSize, memBytes_length]

/-- In a state of the invariant the latch is what acceptance would latch now. -/
theorem latch_of_inv {s : State} {l : Latch} (h : s.Inv) (hb : s.seq = .busy l) : l = latchOf s l.cmd := by
  have := h.2.2.2.2.2.2.2.2.2
  simpa [latchCurrent, hb] using this

theorem sized_of_inv {s : State} {l : Latch} (h : s.Inv) (hb : s.seq = .busy l) : LatchSized s.config.msgMax l := by
  rw [latch_of_inv h hb]
  exact latchOf_sized s _

/-- The output of a block mode is at most one block longer than the message. -/
theorem runBlock_length {op : Op} {m : Mode} {p : Padding} {f : BlockFns} {bs : Nat} {msg iv out : Bytes}
    {draw : Nat → Byte} (hbs : 1 ≤ bs) (hE : ∀ b : Bytes, b.length = bs → (f.enc b).length = bs)
    (hD : ∀ b : Bytes, b.length = bs → (f.dec b).length = bs) (hiv : m = .ecb ∨ iv.length = bs)
    (h : runBlock op m p f bs msg iv draw = .ok out) : out.length ≤ msg.length + bs := by
  unfold runBlock at h
  cases op with
  | enc =>
    rcases applyPadding_cases hbs msg p draw with ⟨_, _, ha⟩ | ⟨_, tail, ha, ht, _⟩
    · simp [ha] at h
    · simp only [ha, Except.ok.injEq] at h
      rw [← h, modeEnc_length hE m _ hiv]
      refine Nat.le_trans (Nat.div_mul_le_self _ _) ?_
      rw [List.length_append, ht]
      exact Nat.add_le_add_left (padLen_le hbs _ _) _
  | dec =>
    rcases removePadding_cases (modeDec m f.enc f.dec bs msg iv) p bs with ⟨r, hr, hl⟩ | ⟨_, hr⟩
    · simp only [hr, Except.ok.injEq] at h
      rw [← h]
      rw [modeDec_length hE hD m _ hiv] at hl
      have := Nat.div_mul_le_self msg.length bs
      omega
    · simp [hr] at h

/-- The output of a stream mode is as long as the message (spec/44_modes.md R211). -/
theorem runStream_length {op : Op} {m : Mode} {f : BlockFns} {bs : Nat} {msg iv : Bytes} (hbs : 1 ≤ bs)
    (hE : ∀ b : Bytes, b.length = bs → (f.enc b).length = bs)
    (hD : ∀ b : Bytes, b.length = bs → (f.dec b).length = bs) (hiv : m = .ecb ∨ iv.length = bs) :
    (runStream op m f bs msg iv).length = msg.length := by
  have hz := zeroExtend_length hbs msg
  have hd := Nat.div_mul_cancel (Nat.dvd_of_mod_eq_zero hz)
  have hle : msg.length ≤ (zeroExtend bs msg).length := by simp [zeroExtend]
  cases op
  · rw [runStream, List.length_take, modeEnc_length hE m _ hiv, hd, Nat.min_eq_left hle]
  · rw [runStream, List.length_take, modeDec_length hE hD m _ hiv, hd, Nat.min_eq_left hle]

/-- `len(out) <= MSG_MAX + 64` (spec/45_commands.md R232). -/
theorem run_length {q : Request} {msgMax : Nat} {l : Latch} {draw : Nat → Byte} {out : Bytes}
    (hl : LatchSized msgMax l) (h : run q msgMax l draw = .ok out) : out.length ≤ msgMax + 64 := by
  unfold run at h
  split at h
  · cases h
  rename_i hv
  obtain ⟨hw, -, -, hiv, -, -, -⟩ := validate_none hv
  have hb := blockSize_bounds hw
  have hf := fun b => blockFns_length q.cipher l.key b
  have hm : l.msg.length ≤ msgMax := by rw [hl.2.2]; exact Nat.min_le_right _ _
  have hivl : l.ivlen.toNat = q.cipher.blockSize → (l.iv.take q.cipher.blockSize).length = q.cipher.blockSize := by
    intro he
    rw [List.length_take, hl.2.1, he]
    omega
  cases hmode : q.mode with
  | block m p =>
    rw [hmode] at h hiv
    cases p with
    | unrecognized c => cases h
    | scheme p =>
      have := runBlock_length hb.1 (fun b _ => (hf b).1) (fun b _ => (hf b).2) (by
        cases m
        · exact .inl rfl
        · exact .inr (hivl (by simpa [ModeArgs.ivLengthOk] using hiv))) h
      omega
  | stream m =>
    rw [hmode] at h hiv
    simp only [Except.ok.injEq] at h
    rw [← h, runStream_length hb.1 (fun b _ => (hf b).1) (fun b _ => (hf b).2)
      (.inr (hivl (by simpa [ModeArgs.ivLengthOk] using hiv)))]
    omega

/-- The engine's turn in one form: nothing from IDLE, else a completion whose output fits OUT. -/
theorem engineStep_complete (s : State) :
    (s.seq = .idle ∧ engineStep s = .next s) ∨
    ∃ l r, s.seq = .busy l ∧ engineStep s = .next (s.complete r) ∧
      (LatchSized s.config.msgMax l → (outBytesOf r).length ≤ outSize s.config) := by
  rcases engineStep_cases s with h | ⟨l, hs, ⟨i, _, _, h⟩ | ⟨e, _, h⟩⟩
  · exact .inl h
  · refine .inr ⟨l, _, hs, h, fun hl => ?_⟩
    generalize hr : run (requestOf i) s.config.msgMax l (Config.entropy s.serial) = r
    cases r with
    | ok out => exact run_length hl hr
    | error e => exact Nat.zero_le _
  · exact .inr ⟨l, .error e, hs, h, fun _ => Nat.zero_le _⟩

/-! ## The output that a host reads after a completion -/

/-- The output that a completion leaves to read is what `Run` gave. -/
theorem output_complete {s : State} {r : Except CmdError Bytes} (hm : memWf s.mem = true) (hc : s.config.WF)
    (hl : (outBytesOf r).length ≤ outSize s.config) :
    memBytes (s.complete r).mem outBase (s.complete r).outlen.toNat = outBytesOf r := by
  have hn : (outBytesOf r).length < 2 ^ 32 := by
    have := hc.2.1
    simp only [outSize] at hl
    omega
  have key : ∀ out : Bytes, out.length ≤ outSize s.config → out.length < 2 ^ 32 →
      memBytes (writeOut s.config s.mem out) outBase (BitVec.ofNat 32 out.length).toNat = out := by
    intro out h1 h2
    rw [BitVec.toNat_ofNat, Nat.mod_eq_of_lt h2]
    refine List.ext_getElem (memBytes_length _ _ _) fun k hk hk' => ?_
    rw [← List.getD_eq_getElem _ 0 hk, ← List.getD_eq_getElem _ 0 hk', memBytes_getD _ _ _ _ hk',
      memRead_writeOut_out _ _ hm (by omega)]
  cases r with
  | ok out => exact key out hl hn
  | error e => exact key [] (Nat.zero_le _) (by decide)

end Sys2Proof.Machine
end

