-- ==== Sys2Proof/Laws/Decode.lean ====
section
/-! SUPPORT. The laws of the encoding tables: each field of a packed word, and that each code table is read back. -/

namespace Sys2Proof

/-! ## The fields of a packed word (spec/30_encoding.md R70) -/

section
variable (o : Op) (c : Cipher) (m : Mode) (p w : BitVec 3) (r : BitVec 8)

@[simp] theorem fieldOp_packWord : fieldOp (packWord o c m p w r) = o.code := by
  unfold fieldOp packWord
  ext i hi
  simp only [BitVec.getElem_extractLsb', BitVec.getLsbD_append]
  rcases i with _|_|i
  all_goals first | omega | simp

@[simp] theorem fieldCipher_packWord : fieldCipher (packWord o c m p w r) = c.code := by
  unfold fieldCipher packWord
  ext i hi
  simp only [BitVec.getElem_extractLsb', BitVec.getLsbD_append]
  rcases i with _|i
  all_goals first | omega | simp

@[simp] theorem fieldMode_packWord : fieldMode (packWord o c m p w r) = m.code := by
  unfold fieldMode packWord
  ext i hi
  simp only [BitVec.getElem_extractLsb', BitVec.getLsbD_append]
  rcases i with _|_|_|i
  all_goals first | omega | simp

@[simp] theorem fieldPad_packWord : fieldPad (packWord o c m p w r) = p := by
  unfold fieldPad packWord
  ext i hi
  simp only [BitVec.getElem_extractLsb', BitVec.getLsbD_append]
  rcases i with _|_|_|i
  all_goals first | omega | simp

@[simp] theorem fieldWsel_packWord : fieldWsel (packWord o c m p w r) = w := by
  unfold fieldWsel packWord
  ext i hi
  simp only [BitVec.getElem_extractLsb', BitVec.getLsbD_append]
  rcases i with _|_|_|i
  all_goals first | omega | simp

@[simp] theorem fieldRes0_packWord : fieldRes0 (packWord o c m p w r) = 0 := by
  unfold fieldRes0 packWord
  ext i hi
  simp only [BitVec.getElem_extractLsb', BitVec.getLsbD_append]
  rcases i with _|_|_|_|i
  all_goals first | omega | simp

@[simp] theorem fieldRounds_packWord : fieldRounds (packWord o c m p w r) = r := by
  unfold fieldRounds packWord
  ext i hi
  simp only [BitVec.getElem_extractLsb', BitVec.getLsbD_append]
  rcases i with _|_|_|_|_|_|_|_|i
  all_goals first | omega | simp

@[simp] theorem fieldRes1_packWord : fieldRes1 (packWord o c m p w r) = 0 := by
  unfold fieldRes1 packWord
  ext i hi
  simp only [BitVec.getElem_extractLsb', BitVec.getLsbD_append]
  rcases i with _|_|_|_|_|_|_|_|i
  all_goals first | omega | simp

end

/-! ## The code tables -/

@[simp] theorem opOfCode_code (o : Op) : opOfCode o.code = some o := by cases o <;> decide
@[simp] theorem cipherOfCode_code (c : Cipher) : cipherOfCode c.code = c := by cases c <;> decide
@[simp] theorem modeOfCode_code (m : Mode) : modeOfCode m.code = some m := by cases m <;> decide

theorem padOfCode_code {p : PadField} (h : p.wf = true) : padOfCode p.code = p := by
  cases p with
  | scheme p => cases p <;> decide
  | unrecognized c => revert c; decide

theorem wselOfCode_code {w : WselField} (h : w.wf = true) : wselOfCode w.code = w := by
  cases w with
  | size w => cases w <;> decide
  | unsupported c => revert c; decide

@[simp] theorem code_padOfCode (c : BitVec 3) : (padOfCode c).code = c := by revert c; decide
@[simp] theorem code_wselOfCode (c : BitVec 3) : (wselOfCode c).code = c := by revert c; decide
@[simp] theorem wf_padOfCode (c : BitVec 3) : (padOfCode c).wf = true := by revert c; decide
@[simp] theorem wf_wselOfCode (c : BitVec 3) : (wselOfCode c).wf = true := by revert c; decide

/-- A packed word decodes as its row. -/
theorem decode_packWord (o : Op) (c : Cipher) (m : Mode) (p w : BitVec 3) (r : BitVec 8) :
    decode (packWord o c m p w r) = decodeRow o c m (packWord o c m p w r) := by
  simp [decode]

/-! ## Bytes -/

/-- The bus's four bytes of a word are the word again. -/
theorem word_of_wordBytes (w : Word32) :
    (w.extractLsb' 24 8 ++ w.extractLsb' 16 8 ++ w.extractLsb' 8 8 ++ w.extractLsb' 0 8 : Word32) = w := by
  ext i hi
  simp only [BitVec.getElem_append, BitVec.getElem_extractLsb']
  split
  · simp [BitVec.getLsbD_eq_getElem hi]
  · split
    · rw [show 8 + (i - 8) = i by omega, BitVec.getLsbD_eq_getElem hi]
    · split
      · rw [show 16 + (i - 8 - 8) = i by omega, BitVec.getLsbD_eq_getElem hi]
      · rw [show 24 + (i - 8 - 8 - 8) = i by omega, BitVec.getLsbD_eq_getElem hi]

/-- Decoding a word's bytes is decoding the word. -/
theorem decodeBytes_wordBytes (w : Word32) (rest : Bytes) :
    decodeBytes (wordBytes w ++ rest) =
      match decode w with
      | .ok i => .ok (i, rest)
      | .error e => .error (.word e) := by
  cases h : decode w <;> simp [wordBytes, decodeBytes, word_of_wordBytes, h]

end Sys2Proof
end

