-- ==== Sys2Proof/Laws/Step.lean ====
section
/-! SUPPORT. The laws of the step: everything an access of the host can do (spec/20_memory.md R52 to R54, 70 R296), and
everything a step can do. -/

namespace Sys2Proof.Machine

/-! ## Accesses -/

/-- What an admitted write changes while IDLE: a command is accepted, a length register is written, or input bytes are
written. -/
inductive Written (s : State) : State → Prop where
  | accept (v : Word32) : Written s (s.accept v)
  | keylen (v : Word32) : Written s { s with keylen := v }
  | ivlen (v : Word32) : Written s { s with ivlen := v }
  | inlen (v : Word32) : Written s { s with inlen := v }
  | none : Written s s
  | byte (off : Nat) (b : Byte) : Written s (writeByte s off b)
  | word (off : Nat) (v : Word32) (h : regEnd ≤ off) : Written s (writeWord s off v)

theorem writeReg_written (s : State) (off : Nat) (v : Word32) : Written s (writeReg s off v) := by
  unfold writeReg
  split
  · exact .accept v
  split
  · exact .keylen v
  split
  · exact .ivlen v
  split
  · exact .inlen v
  · exact .none

theorem writeWord_written (s : State) (off : Nat) (v : Word32) : Written s (writeWord s off v) := by
  by_cases h : off < regEnd
  · have : writeWord s off v = writeReg s off v := by unfold writeWord; exact if_pos h
    rw [this]
    exact writeReg_written s off v
  · exact .word off v (by omega)

/-- Everything an access can do: a bus error, an answer alone, or, while IDLE, an admitted write and its answer. -/
theorem portAccess_cases (a : Access) (s : State) :
    portAccess a s = s.refuse a ∨
    (∃ v, portAccess a s = s.answer { error := false, data := v }) ∨
    (s.seq = .idle ∧ ∃ t, Written s t ∧ portAccess a s = t.answer { error := false, data := 0 }) := by
  have write : ∀ t, Written s t → s.answerWrite t = s.refuse a ∨
      (∃ v, s.answerWrite t = s.answer { error := false, data := v }) ∨
      (s.seq = .idle ∧ ∃ t', Written s t' ∧ s.answerWrite t = t'.answer { error := false, data := 0 }) := by
    intro t ht
    unfold State.answerWrite
    cases hs : s.seq with
    | idle => exact .inr (.inr ⟨rfl, t, ht, rfl⟩)
    | busy l => exact .inr (.inl ⟨0, rfl⟩)
  cases a with
  | read16 _ => exact .inl rfl
  | read64 _ => exact .inl rfl
  | write16 _ _ => exact .inl rfl
  | write64 _ _ => exact .inl rfl
  | read8 addr =>
    simp only [portAccess]
    split
    · exact .inl rfl
    · exact .inr (.inl ⟨_, rfl⟩)
  | read32 addr =>
    simp only [portAccess]
    split
    · exact .inl rfl
    · exact .inr (.inl ⟨_, rfl⟩)
  | write8 addr v =>
    simp only [portAccess]
    split
    · exact .inl rfl
    · exact write _ (.byte _ v)
  | write32 addr v =>
    simp only [portAccess]
    split
    · exact .inl rfl
    · exact write _ (writeWord_written s _ v)

/-- An access whose address the engine admits is not refused. -/
theorem portAccess_admitted {a : Access} {s : State} (h : admitted s.config a = true) :
    (portAccess a s).hostFault = s.hostFault := by
  have write : ∀ t, t.hostFault = s.hostFault → (s.answerWrite t).hostFault = s.hostFault := by
    intro t ht
    unfold State.answerWrite
    split <;> simp [ht]
  cases a with
  | read16 _ => cases h
  | read64 _ => cases h
  | write16 _ _ => cases h
  | write64 _ _ => cases h
  | read8 addr =>
    obtain ⟨off, ho⟩ := Option.isSome_iff_exists.mp h
    simp [portAccess, ho]
  | read32 addr =>
    obtain ⟨off, ho⟩ := Option.isSome_iff_exists.mp h
    simp [portAccess, ho]
  | write8 addr v =>
    obtain ⟨off, ho⟩ := Option.isSome_iff_exists.mp h
    simp only [portAccess, ho]
    exact write _ (by rw [writeByte_eq])
  | write32 addr v =>
    obtain ⟨off, ho⟩ := Option.isSome_iff_exists.mp h
    simp only [portAccess, ho]
    refine write _ ?_
    have hw := writeWord_written s off v
    generalize writeWord s off v = t at hw
    cases hw with
    | byte off b => rw [writeByte_eq]
    | word off v h => rw [writeWord_buffers s off v h]
    | _ => rfl

/-! ## Steps -/

/-- Everything a step that goes on can do. -/
theorem step_cases {s t : State} (h : step s = .next t) :
    ((s.inputs = [] ∨ ∃ rest, s.inputs = .engine :: rest) ∧
      engineStep { s with inputs := s.inputs.tail } = .next t) ∨
    (∃ a rest, s.inputs = .access a :: rest ∧ s.hostFault = none ∧ t = portAccess a { s with inputs := rest }) ∨
    (∃ rest, s.inputs = .rst :: rest ∧ t = State.rst { s with inputs := rest }) := by
  unfold step at h
  cases hi : s.inputs with
  | nil =>
    simp only [hi] at h
    refine .inl ⟨.inl rfl, ?_⟩
    rw [← h]
    congr 1
    cases s
    simp_all
  | cons i rest =>
    cases i with
    | engine =>
      simp only [hi] at h
      exact .inl ⟨.inr ⟨rest, rfl⟩, h⟩
    | access a =>
      simp only [hi, hostAccess] at h
      cases hf : s.hostFault with
      | some b => simp [hf] at h
      | none =>
        simp only [hf] at h
        cases h
        exact .inr (.inl ⟨a, rest, rfl, rfl, rfl⟩)
    | rst =>
      simp only [hi] at h
      cases h
      exact .inr (.inr ⟨rest, rfl, rfl⟩)

end Sys2Proof.Machine
end

