-- ==== Sys2Proof/Laws/Invariant.lean ====
section
/-! SUPPORT. Each shared operation keeps the invariant of the machine: completion, an admitted write, an answer, a bus
error, reset. -/

namespace Sys2Proof.Machine

/-- The listed addresses after a completion are old ones outside OUT, or within the output. -/
theorem mem_writeOut_sub {c : Config} {m : List Host.Cell} {out : Bytes} {e : Host.Cell} (h : e ∈ writeOut c m out) :
    (e ∈ m ∧ ¬ (outBase ≤ e.1 ∧ e.1 < outBase + outSize c)) ∨ (outBase ≤ e.1 ∧ e.1 < outBase + out.length) := by
  rcases mem_writeBytes_sub h with h | h
  · exact .inl (mem_clear.mp h)
  · exact .inr h

theorem inv_complete {s : State} {r : Except CmdError Bytes} (hi : s.Inv)
    (hl : (outBytesOf r).length ≤ outSize s.config) : (s.complete r).Inv := by
  rw [complete_eq]
  obtain ⟨h1, h2, h3, -, h5, -⟩ := hi
  have hsz : outSize s.config ≤ 65536 := by
    have := h1.2.1
    simp [outSize]
    omega
  have hn : (BitVec.ofNat 32 (outBytesOf r).length).toNat = (outBytesOf r).length := by
    simp
    omega
  rw [List.all_eq_true] at h3 h5
  refine ⟨h1, memWf_writeOut _ _ h2, ?_, by simp only [hn]; exact hl, ?_, by simp [State.isBusy], by simp, ?_, by simp,
    by simp [latchCurrent]⟩
  · rw [List.all_eq_true]
    intro c hc
    rcases mem_writeOut_sub hc with ⟨h, _⟩ | h
    · exact h3 c h
    · simp only [Bool.or_eq_true]
      right
      rw [isOutput_iff]
      simp only [outBase, outSize] at *
      omega
  · rw [List.all_eq_true]
    intro c hc
    rw [decide_eq_true_eq]
    simp only [hn]
    rcases mem_writeOut_sub hc with ⟨h, hx⟩ | h
    · have := h3 c h
      simp only [Bool.or_eq_true] at this
      rcases this with this | this
      · rw [isInput_iff] at this
        have := h1.2.1
        simp only [outBase]
        omega
      · rw [isOutput_iff] at this
        simp only [outBase, outSize] at *
        omega
    · exact h.2
  · cases r with
    | ok o => simp [errOf]
    | error e => simp [outBytesOf]

theorem inv_rst {s : State} (h : s.config.WF) : s.rst.Inv :=
  ⟨h, rfl, rfl, Nat.zero_le _, rfl, by simp, fun _ => rfl, by simp, by simp, rfl⟩

theorem inv_answer {s : State} (r : BusResponse) (h : s.Inv) : (s.answer r).Inv := h

theorem inv_refuse {s : State} (a : Access) (h : s.Inv) : (s.refuse a).Inv := h

theorem inv_inputs {s : State} (l : List Input) (h : s.Inv) : ({ s with inputs := l } : State).Inv := h

theorem inv_writeByte {s : State} (h : s.Inv) (hs : s.seq = .idle) (off : Nat) (b : Byte) :
    (writeByte s off b).Inv := by
  rw [writeByte_eq]
  split
  · rename_i hin
    obtain ⟨h1, h2, h3, h4, h5, h6, h7, h8, h9, -⟩ := h
    refine ⟨h1, memWf_write _ _ h2, ?_, h4, ?_, h6, h7, h8, h9, by simp [latchCurrent, hs]⟩
    · rw [List.all_eq_true] at h3 ⊢
      intro c hc
      rcases mem_write_sub hc with h | h
      · exact h3 c h
      · subst h
        simp [hin]
    · rw [List.all_eq_true] at h5 ⊢
      intro c hc
      rcases mem_write_sub hc with h | h
      · exact h5 c h
      · subst h
        rw [isInput_iff] at hin
        have := h1.2.1
        rw [decide_eq_true_eq]
        simp only [outBase]
        omega
  · exact h

theorem inv_written {s t : State} (h : s.Inv) (hs : s.seq = .idle) (ht : Written s t) : t.Inv := by
  have hw := h
  obtain ⟨h1, h2, h3, h4, h5, h6, h7, h8, h9, -⟩ := h
  cases ht with
  | accept v =>
    exact ⟨h1, h2, h3, h4, h5, by simp, by simp, by simp, by simp, by simp only [latchCurrent, accept_seq]; exact decide_eq_true rfl⟩
  | keylen v => exact ⟨h1, h2, h3, h4, h5, h6, h7, h8, h9, by simp [latchCurrent, hs]⟩
  | ivlen v => exact ⟨h1, h2, h3, h4, h5, h6, h7, h8, h9, by simp [latchCurrent, hs]⟩
  | inlen v => exact ⟨h1, h2, h3, h4, h5, h6, h7, h8, h9, by simp [latchCurrent, hs]⟩
  | none => exact hw
  | byte off b => exact inv_writeByte hw hs off b
  | word off v ho =>
    have h6 : ¬ off < regEnd := by omega
    have sq : ∀ (s : State) (off : Nat) (b : Byte), (writeByte s off b).seq = s.seq := by
      intro s off b
      rw [writeByte_eq]
    unfold writeWord
    rw [if_neg h6]
    exact inv_writeByte (inv_writeByte (inv_writeByte (inv_writeByte hw hs _ _) (by simp [sq, hs]) _ _)
      (by simp [sq, hs]) _ _) (by simp [sq, hs]) _ _

end Sys2Proof.Machine
end

