-- ==== Sys2Proof/Laws/PerInstr.lean ====
section
/-! SUPPORT. Statements made per instruction: `EncodeInRow`, that a command's word matches its row of the opcode table
(spec/30_encoding.md R80) and no other. -/

namespace Sys2Proof.Laws

/-- The row's "match" in opcode_table.json. -/
def rowMatch : Instr → Word32
  | .aEncEcb _ => 0x00000001
  | .aEncCbc _ => 0x00000009
  | .aDecEcb _ => 0x00000002
  | .aDecCbc _ => 0x0000000A
  | .bEncEcb _ _ _ => 0x00000005
  | .bEncCbc _ _ _ => 0x0000000D
  | .bEncCfb _ _ => 0x00000015
  | .bEncOfb _ _ => 0x0000001D
  | .bEncCtr _ _ => 0x00000025
  | .bDecEcb _ _ _ => 0x00000006
  | .bDecCbc _ _ _ => 0x0000000E
  | .bDecCfb _ _ => 0x00000016
  | .bDecOfb _ _ => 0x0000001E
  | .bDecCtr _ _ => 0x00000026

/-- Every row's "mask" in opcode_table.json. -/
def rowMask : Word32 := 0xFF00F03F

/-- The mask keeps OP, CIPHER, MODE and the reserved fields. -/
theorem packWord_masked (o : Op) (c : Cipher) (m : Mode) (p w : BitVec 3) (r : BitVec 8) :
    packWord o c m p w r &&& rowMask = packWord o c m 0 0 0 := by
  unfold packWord rowMask
  apply BitVec.eq_of_getLsbD_eq
  intro i hi
  simp only [BitVec.getLsbD_and, BitVec.getLsbD_append]
  rcases i with _|_|_|_|_|_|_|_|_|_|_|_|_|_|_|_|_|_|_|_|_|_|_|_|_|_|_|_|_|_|_|_|i
  all_goals first | omega | simp

namespace EncodeInRow

/-- The command's word matches its row. -/
def Statement (i : Instr) : Prop := encode i &&& rowMask = rowMatch i

theorem aEncEcb (pad : PadField) : Statement (.aEncEcb pad) := by
  unfold Statement encode
  rw [packWord_masked]
  rfl

theorem aEncCbc (pad : PadField) : Statement (.aEncCbc pad) := by
  unfold Statement encode
  rw [packWord_masked]
  rfl

theorem aDecEcb (pad : PadField) : Statement (.aDecEcb pad) := by
  unfold Statement encode
  rw [packWord_masked]
  rfl

theorem aDecCbc (pad : PadField) : Statement (.aDecCbc pad) := by
  unfold Statement encode
  rw [packWord_masked]
  rfl

theorem bEncEcb (pad : PadField) (wsel : WselField) (rounds : BitVec 8) : Statement (.bEncEcb pad wsel rounds) := by
  unfold Statement encode
  rw [packWord_masked]
  rfl

theorem bEncCbc (pad : PadField) (wsel : WselField) (rounds : BitVec 8) : Statement (.bEncCbc pad wsel rounds) := by
  unfold Statement encode
  rw [packWord_masked]
  rfl

theorem bEncCfb (wsel : WselField) (rounds : BitVec 8) : Statement (.bEncCfb wsel rounds) := by
  unfold Statement encode
  rw [packWord_masked]
  rfl

theorem bEncOfb (wsel : WselField) (rounds : BitVec 8) : Statement (.bEncOfb wsel rounds) := by
  unfold Statement encode
  rw [packWord_masked]
  rfl

theorem bEncCtr (wsel : WselField) (rounds : BitVec 8) : Statement (.bEncCtr wsel rounds) := by
  unfold Statement encode
  rw [packWord_masked]
  rfl

theorem bDecEcb (pad : PadField) (wsel : WselField) (rounds : BitVec 8) : Statement (.bDecEcb pad wsel rounds) := by
  unfold Statement encode
  rw [packWord_masked]
  rfl

theorem bDecCbc (pad : PadField) (wsel : WselField) (rounds : BitVec 8) : Statement (.bDecCbc pad wsel rounds) := by
  unfold Statement encode
  rw [packWord_masked]
  rfl

theorem bDecCfb (wsel : WselField) (rounds : BitVec 8) : Statement (.bDecCfb wsel rounds) := by
  unfold Statement encode
  rw [packWord_masked]
  rfl

theorem bDecOfb (wsel : WselField) (rounds : BitVec 8) : Statement (.bDecOfb wsel rounds) := by
  unfold Statement encode
  rw [packWord_masked]
  rfl

theorem bDecCtr (wsel : WselField) (rounds : BitVec 8) : Statement (.bDecCtr wsel rounds) := by
  unfold Statement encode
  rw [packWord_masked]
  rfl

end EncodeInRow

end Sys2Proof.Laws
end

