-- ==== Sys2Proof/Tests/Slice0.lean ====
section
/-! SUPPORT. The model's own tests: ill-formed terms, words written out from the encoding, one step of each command on
the spec's own vectors (spec/95_test_vectors.md, 45_commands.md), and a witness for the hypotheses of each statement. -/

namespace Sys2Proof.Tests

-- One evaluation after another: side by side they need gigabytes more.
set_option Elab.async false

open Sys2Proof Sys2Proof.Machine Sys2Proof.Spec

/-! ## Helpers -/

/-- Reset, with the inputs of a command written (70 R294). The length registers are those of the sequences. -/
def prep (key iv msg : Bytes) : State :=
  { State.reset with
    keylen := BitVec.ofNat 32 key.length
    ivlen := BitVec.ofNat 32 iv.length
    inlen := BitVec.ofNat 32 msg.length
    mem := memWriteBytes (memWriteBytes (memWriteBytes [] keyBase key) ivBase iv) inBase msg }

/-- Reset, with length registers and all buffers zero (95 §5.2). -/
def prepLen (keylen ivlen inlen : Nat) : State :=
  { State.reset with
    keylen := BitVec.ofNat 32 keylen
    ivlen := BitVec.ofNat 32 ivlen
    inlen := BitVec.ofNat 32 inlen }

/-- STATUS and the output after a step. -/
def seen (o : Host.Outcome State Fault Refusal) : Option (Word32 × Bytes) :=
  match o with
  | .next t => some (t.status, memBytes t.mem outBase t.outlen.toNat)
  | .fault _ => none
  | .refused _ => none

/-- STATUS alone. -/
def seenStatus (o : Host.Outcome State Fault Refusal) : Option Word32 :=
  match o with
  | .next t => some t.status
  | .fault _ => none
  | .refused _ => none

/-- What the bus answered last. -/
def seenAnswer (o : Host.Outcome State Fault Refusal) : Option BusResponse :=
  match o with
  | .next t => t.responses.head?
  | .fault _ => none
  | .refused _ => none

/-- `n` bytes counting up from `b`. -/
def upFrom (b n : Nat) : Bytes := (List.range n).map fun i => BitVec.ofNat 8 (b + i)

/-! ## WellFormed: each check refuses an ill-formed term -/

theorem test_wf_pad_refused : (Instr.aEncEcb (.unrecognized 4)).wf = false := by decide
theorem test_wf_pad_refused_b : (Instr.bDecCbc (.unrecognized 0) (.size .w8) 0).wf = false := by decide
theorem test_wf_wsel_refused : (Instr.bEncCtr (.unsupported 4) 20).wf = false := by decide
theorem test_wf_wsel_refused_b : (Instr.bEncEcb (.scheme .no) (.unsupported 1) 20).wf = false := by decide
theorem test_wf_pad_accepted : (Instr.aEncEcb (.unrecognized 5)).wf = true := by decide
theorem test_wf_wsel_accepted : (Instr.bEncCtr (.unsupported 7) 255).wf = true := by decide

/-! ## Decode: words written out from 30_encoding.md R70, field by field:
RES1 8, ROUNDS 8, RES0 4, WSEL 3, PAD 3, MODE 3, CIPHER 1, OP 2 -/

theorem test_decode_a_enc_ecb : decode 0b00000000_00000000_0000_000_000_000_0_01 = .ok (.aEncEcb (.scheme .no)) := by decide
theorem test_decode_a_enc_cbc : decode 0b00000000_00000000_0000_000_001_001_0_01 = .ok (.aEncCbc (.scheme .pkcs5)) := by decide
theorem test_decode_a_dec_ecb : decode 0b00000000_00000000_0000_000_100_000_0_10 = .ok (.aDecEcb (.scheme .bit)) := by decide
theorem test_decode_a_dec_cbc : decode 0b00000000_00000000_0000_000_011_001_0_10 = .ok (.aDecCbc (.scheme .random)) := by decide
theorem test_decode_b_enc_ecb :
    decode 0b00000000_00001100_0000_000_010_000_1_01 = .ok (.bEncEcb (.scheme .zero) (.size .w8) 12) := by decide
theorem test_decode_b_enc_cbc :
    decode 0b00000000_00010100_0000_010_101_001_1_01 = .ok (.bEncCbc (.unrecognized 5) (.size .w32) 20) := by decide
theorem test_decode_b_enc_cfb : decode 0b00000000_00010000_0000_001_000_010_1_01 = .ok (.bEncCfb (.size .w16) 16) := by decide
theorem test_decode_b_enc_ofb : decode 0b00000000_00010100_0000_011_000_011_1_01 = .ok (.bEncOfb (.size .w64) 20) := by decide
theorem test_decode_b_enc_ctr : decode 0b00000000_00010100_0000_101_111_100_1_01 = .ok (.bEncCtr (.unsupported 5) 20) := by decide
theorem test_decode_b_dec_ecb :
    decode 0b00000000_10000000_0000_010_000_000_1_10 = .ok (.bDecEcb (.scheme .no) (.size .w32) 128) := by decide
theorem test_decode_b_dec_cbc :
    decode 0b00000000_00011000_0000_011_001_001_1_10 = .ok (.bDecCbc (.scheme .pkcs5) (.size .w64) 24) := by decide
theorem test_decode_b_dec_cfb : decode 0b00000000_00000001_0000_000_000_010_1_10 = .ok (.bDecCfb (.size .w8) 1) := by decide
theorem test_decode_b_dec_ofb : decode 0b00000000_11111111_0000_100_000_011_1_10 = .ok (.bDecOfb (.size .w128) 255) := by decide
theorem test_decode_b_dec_ctr : decode 0b00000000_00000000_0000_000_000_100_1_10 = .ok (.bDecCtr (.size .w8) 0) := by decide

/-- R71, R77, R73: the words that match no row. -/
theorem test_decode_illegal :
    decode 0b00000000_00000000_0000_000_000_000_0_00 = .error .illegalCommand ∧
    decode 0b00000000_00000000_0000_000_000_000_0_11 = .error .illegalCommand ∧
    decode 0b00000000_00000000_1000_000_000_000_0_01 = .error .illegalCommand ∧
    decode 0b10000000_00000000_0000_000_000_000_0_01 = .error .illegalCommand ∧
    decode 0b00000000_00000000_0000_000_000_010_0_01 = .error .unsupportedMode ∧
    decode 0b00000000_00000000_0000_000_000_101_1_01 = .error .unsupportedMode := by decide

/-- 95 §5.1 and R84: the words that mnemonics assemble to. -/
theorem test_encode_words :
    encode (.aEncEcb (.scheme .pkcs5)) = 0x00000041 ∧ encode (.aDecCbc (.scheme .pkcs5)) = 0x0000004A ∧
    encode (.bEncEcb (.scheme .no) (.size .w8) 12) = 0x000C0005 ∧ encode (.bEncCfb (.size .w16) 16) = 0x00100215 ∧
    encode (.bDecOfb (.size .w128) 255) = 0x00FF081E ∧ encode (.bEncCtr (.size .w32) 20) = 0x00140425 := by decide

/-- R83: fewer than four bytes are no command; the bytes after the word are handed back. -/
theorem test_decode_bytes :
    decodeBytes [0x49, 0, 0] = .error .truncated ∧
    decodeBytes [0x05, 0x04, 0x14, 0x00, 0xAA] = .ok (.bEncEcb (.scheme .no) (.size .w32) 20, [0xAA]) := by decide

theorem test_decode_table_word : decodeTableWord 32 0x0000000D = some (.bEncCbc (.scheme .no) (.size .w8) 0) := by decide

/-! ## One step of each command (45_commands.md R234 to R247, the examples) -/

theorem test_a_enc_ecb :
    seen (exec (.aEncEcb (.scheme .no)) ((prep (zeros 10) [] (zeros 8)).accept 1)) =
      some (2, [0x55, 0x79, 0xC1, 0x38, 0x7B, 0x22, 0x84, 0x45]) := by decide +kernel

/-- 95 §1.1 A5: the 128-bit key. -/
theorem test_a_enc_ecb_128 :
    seen (exec (.aEncEcb (.scheme .no)) ((prep (zeros 16) [] (zeros 8)).accept 1)) =
      some (2, [0x96, 0xDB, 0x70, 0x2A, 0x2E, 0x69, 0x00, 0xAF]) := by decide +kernel

theorem test_a_enc_cbc :
    seen (exec (.aEncCbc (.scheme .pkcs5)) ((prep (upFrom 0 10) (upFrom 0xA0 8) [0x61, 0x62, 0x63]).accept 0x49)) =
      some (2, [0xF5, 0xF4, 0x2B, 0xC1, 0x3D, 0x0C, 0x1E, 0xEF]) := by decide +kernel

theorem test_a_dec_ecb :
    seen (exec (.aDecEcb (.scheme .no))
      ((prep (zeros 10) [] [0x55, 0x79, 0xC1, 0x38, 0x7B, 0x22, 0x84, 0x45]).accept 2)) = some (2, zeros 8) := by
  decide +kernel

/-- 95 §5.4 step 2: a wrong pad shows no plaintext. -/
theorem test_a_dec_ecb_bad_pad :
    seen (exec (.aDecEcb (.scheme .pkcs5))
      ((prep (upFrom 0 10) [] [0xBA, 0xB6, 0xA0, 0xC0, 0x12, 0x1F, 0x32, 0x30]).accept 0x42)) = some (0x62, []) := by
  decide +kernel

theorem test_a_dec_cbc :
    seen (exec (.aDecCbc (.scheme .pkcs5))
      ((prep (upFrom 0 10) (upFrom 0xA0 8) [0xF5, 0xF4, 0x2B, 0xC1, 0x3D, 0x0C, 0x1E, 0xEF]).accept 0x4A)) =
      some (2, [0x61, 0x62, 0x63]) := by decide +kernel

theorem test_b_enc_ecb :
    seen (exec (.bEncEcb (.scheme .no) (.size .w32) 20) ((prep (upFrom 0 16) [] (upFrom 0 16)).accept 0x140405)) =
      some (2, [0x3A, 0x96, 0xF9, 0xC7, 0xF6, 0x75, 0x5C, 0xFE, 0x46, 0xF0, 0x0E, 0x3D, 0xCD, 0x5D, 0x2A, 0x3C]) := by
  decide +kernel

theorem test_b_enc_cbc :
    seen (exec (.bEncCbc (.scheme .pkcs5) (.size .w32) 20)
      ((prep (upFrom 0 16) (upFrom 0x10 16) (upFrom 0x20 20)).accept 0x14044D)) =
      some (2, [0x63, 0xC8, 0xB1, 0xF0, 0xFA, 0x41, 0x7C, 0x8D, 0xC4, 0x7E, 0xFA, 0xCF, 0xC5, 0x4A, 0x6E, 0x66,
        0xD1, 0x5F, 0xFF, 0x8F, 0x23, 0x58, 0x37, 0x1C, 0xFE, 0x3C, 0xD9, 0xF5, 0x14, 0x39, 0x64, 0xBA]) := by
  decide +kernel

theorem test_b_enc_cfb :
    seen (exec (.bEncCfb (.size .w32) 20) ((prep (upFrom 0 16) (upFrom 0x10 16) (upFrom 0x20 20)).accept 0x140415)) =
      some (2, [0xE8, 0x45, 0xCA, 0x88, 0xA4, 0x15, 0x54, 0x20, 0xB4, 0x45, 0xA9, 0x6B, 0x3B, 0xAF, 0xF0, 0xFC,
        0x05, 0x5E, 0xE0, 0x46]) := by decide +kernel

theorem test_b_enc_ofb :
    seen (exec (.bEncOfb (.size .w32) 20) ((prep (upFrom 0 16) (upFrom 0x10 16) (upFrom 0x20 20)).accept 0x14041D)) =
      some (2, [0xE8, 0x45, 0xCA, 0x88, 0xA4, 0x15, 0x54, 0x20, 0xB4, 0x45, 0xA9, 0x6B, 0x3B, 0xAF, 0xF0, 0xFC,
        0x4F, 0x9E, 0x70, 0x49]) := by decide +kernel

theorem test_b_enc_ctr :
    seen (exec (.bEncCtr (.size .w32) 20) ((prep (upFrom 0 16) (upFrom 0x10 16) (upFrom 0x20 20)).accept 0x140425)) =
      some (2, [0xE8, 0x45, 0xCA, 0x88, 0xA4, 0x15, 0x54, 0x20, 0xB4, 0x45, 0xA9, 0x6B, 0x3B, 0xAF, 0xF0, 0xFC,
        0xDD, 0x7C, 0x4F, 0xE7]) := by decide +kernel

theorem test_b_dec_ecb :
    seen (exec (.bDecEcb (.scheme .no) (.size .w32) 20)
      ((prep (upFrom 0 16) []
        [0x3A, 0x96, 0xF9, 0xC7, 0xF6, 0x75, 0x5C, 0xFE, 0x46, 0xF0, 0x0E, 0x3D, 0xCD, 0x5D, 0x2A, 0x3C]).accept
        0x140406)) = some (2, upFrom 0 16) := by decide +kernel

/-- 95 §5.4 step 4: a last byte of 0 is no pad length. -/
theorem test_b_dec_ecb_bad_pad :
    seen (exec (.bDecEcb (.scheme .pkcs5) (.size .w8) 12)
      ((prep (upFrom 0 4) [] [0x2E, 0xE0, 0x29, 0xCA]).accept 0x0C0046)) = some (0x62, []) := by decide +kernel

theorem test_b_dec_cbc :
    seen (exec (.bDecCbc (.scheme .pkcs5) (.size .w32) 20)
      ((prep (upFrom 0 16) (upFrom 0x10 16)
        [0x63, 0xC8, 0xB1, 0xF0, 0xFA, 0x41, 0x7C, 0x8D, 0xC4, 0x7E, 0xFA, 0xCF, 0xC5, 0x4A, 0x6E, 0x66,
        0xD1, 0x5F, 0xFF, 0x8F, 0x23, 0x58, 0x37, 0x1C, 0xFE, 0x3C, 0xD9, 0xF5, 0x14, 0x39, 0x64, 0xBA]).accept
        0x14044E)) = some (2, upFrom 0x20 20) := by decide +kernel

theorem test_b_dec_cfb :
    seen (exec (.bDecCfb (.size .w32) 20)
      ((prep (upFrom 0 16) (upFrom 0x10 16)
        [0xE8, 0x45, 0xCA, 0x88, 0xA4, 0x15, 0x54, 0x20, 0xB4, 0x45, 0xA9, 0x6B, 0x3B, 0xAF, 0xF0, 0xFC,
        0x05, 0x5E, 0xE0, 0x46]).accept 0x140416)) = some (2, upFrom 0x20 20) := by decide +kernel

theorem test_b_dec_ofb :
    seen (exec (.bDecOfb (.size .w32) 20)
      ((prep (upFrom 0 16) (upFrom 0x10 16)
        [0xE8, 0x45, 0xCA, 0x88, 0xA4, 0x15, 0x54, 0x20, 0xB4, 0x45, 0xA9, 0x6B, 0x3B, 0xAF, 0xF0, 0xFC,
        0x4F, 0x9E, 0x70, 0x49]).accept 0x14041E)) = some (2, upFrom 0x20 20) := by decide +kernel

theorem test_b_dec_ctr :
    seen (exec (.bDecCtr (.size .w32) 20)
      ((prep (upFrom 0 16) (upFrom 0x10 16)
        [0xE8, 0x45, 0xCA, 0x88, 0xA4, 0x15, 0x54, 0x20, 0xB4, 0x45, 0xA9, 0x6B, 0x3B, 0xAF, 0xF0, 0xFC,
        0xDD, 0x7C, 0x4F, 0xE7]).accept 0x140426)) = some (2, upFrom 0x20 20) := by decide +kernel

/-! ## Errors and their priority: one engine turn on a row of 95 §5.2 -/

theorem test_errors :
    seenStatus (engineStep ((prepLen 9 0 8).accept 0x00000001)) = some 0x12 ∧
    seenStatus (engineStep ((prepLen 256 0 16).accept 0x00140405)) = some 0x12 ∧
    seenStatus (engineStep ((prepLen 10 7 8).accept 0x00000009)) = some 0x22 ∧
    seenStatus (engineStep ((prepLen 16 16 15).accept 0x0014040E)) = some 0x32 ∧
    seenStatus (engineStep ((prepLen 10 8 8).accept 0x00000011)) = some 0x42 ∧
    seenStatus (engineStep ((prepLen 10 0 8).accept 0x00000141)) = some 0x52 ∧
    seenStatus (engineStep ((prepLen 10 0 7).accept 0x00000001)) = some 0x72 ∧
    seenStatus (engineStep ((prepLen 10 0 8).accept 0x00000000)) = some 0x82 ∧
    seenStatus (engineStep ((prepLen 10 0 8).accept 0x01000001)) = some 0x82 ∧
    seenStatus (engineStep ((prepLen 16 0 16).accept 0x00140A05)) = some 0x92 ∧
    seenStatus (engineStep ((prepLen 10 0 4097).accept 0x00000001)) = some 0xA2 := by decide +kernel

theorem test_error_priority :
    seenStatus (engineStep ((prepLen 9 0 7).accept 0x00000002)) = some 0x12 ∧
    seenStatus (engineStep ((prepLen 10 0 8).accept 0x00001039)) = some 0x82 ∧
    seenStatus (engineStep ((prepLen 16 16 16).accept 0x00140E2D)) = some 0x42 ∧
    seenStatus (engineStep ((prepLen 16 0 16).accept 0x00140BC5)) = some 0x92 ∧
    seenStatus (engineStep ((prepLen 9 0 8).accept 0x000001C1)) = some 0x52 ∧
    seenStatus (engineStep ((prepLen 10 0 4097).accept 0x00000009)) = some 0x22 := by decide +kernel

/-- 95 §5.2 E32, E33 and §5.3: empty messages, and a stream mode's ignored PAD. -/
theorem test_empty_and_ignored :
    seen (engineStep ((prepLen 16 16 0).accept 0x0014040D)) = some (2, []) ∧
    seen (engineStep ((prepLen 10 0 0).accept 0x00000042)) = some (0x62, []) ∧
    (seen (engineStep ((prepLen 16 16 5).accept 0x001405E5))).map (fun r => (r.1, r.2.length)) = some (2, 5) := by
  decide +kernel

/-! ## The host's accesses (95 P1, P2, P5; 20_memory.md R51 to R53) -/

/-- P1: STATUS, OUTLEN and OUT while BUSY. -/
theorem test_reads_while_busy :
    seenAnswer (hostAccess (.read32 0x04) ((prepLen 10 0 8).accept 1)) = some { error := false, data := 1 } ∧
    seenAnswer (hostAccess (.read32 0x14) ((prepLen 10 0 8).accept 1)) = some { error := false, data := 0 } ∧
    seenAnswer (hostAccess (.read32 0x20000) ((prepLen 10 0 8).accept 1)) = some { error := false, data := 0 } := by
  decide

/-- R51: `0x44332211` at 0x10000 puts 0x11 first. -/
theorem test_lanes :
    (List.range 4).map (fun i => readByte (writeWord State.reset 0x10000 0x44332211) (0x10000 + i)) =
      [0x11, 0x22, 0x33, 0x44] := by decide

/-- P5: an 8-bit read of a register and a misaligned 32-bit write are refused. -/
theorem test_refused :
    hostAccess (.read8 0x04) State.reset =
      .next { State.reset with hostFault := some (.read8 0x04), responses := [{ error := true, data := 0 }] } ∧
    hostAccess (.write32 0x102 1) State.reset =
      .next { State.reset with hostFault := some (.write32 0x102 1), responses := [{ error := true, data := 0 }] } := by
  exact ⟨rfl, rfl⟩

/-- P5: reset while BUSY. -/
theorem test_reset_while_busy :
    seenStatus (step { (prepLen 10 0 8).accept 1 with inputs := [.rst] }) = some 0 := by decide

/-! ## Units, on the tables of 95 -/

/-- 95 §2.1. -/
theorem test_rotations :
    ramt 33 32 = 1 ∧ ramt 0xFFFFFFFF 32 = 31 ∧ ramt 200 128 = 72 ∧
    rotl (0x12345678 : BitVec 32) 36 = 0x23456781 ∧ rotr (0x12345678 : BitVec 32) 4 = 0x81234567 ∧
    rotlK (1 : BitVec 80) 61 = 0x00002000000000000000 ∧ rotlK (0x80000 : BitVec 80) 61 = 1 := by decide

/-- 41_cipher_a.md R123 to R125, R127, R128. -/
theorem test_layers :
    sLayer 0x0123456789ABCDEF = 0xC56B90AD3EF84712 ∧ pLayer 0x0123456789ABCDEF = 0x00FF0F0F33335555 ∧
    pLayerInv 0x0000000000010000 = 0x0000000000000002 ∧ upd80 0 1 = 0xC0000000000000008000 ∧
    upd128 0 1 = 0xCC000000000000004000000000000000 := by decide +kernel

/-- 41_cipher_a.md R129: round keys of the zero key. -/
theorem test_round_keys :
    (scheduleA (zeros 10)).take 3 = [0, 0xC000000000000000, 0x5000180000000001] ∧
    (scheduleA (zeros 10)).getD 31 0 = 0x6DAB31744F41D700 := by decide +kernel

/-- 42_cipher_b.md R155, R157. -/
theorem test_subkeys :
    keyWordsB 32 (upFrom 0 16) = [0x03020100, 0x07060504, 0x0B0A0908, 0x0F0E0D0C] ∧
    (scheduleB 32 20 (zeros 16)).take 4 = [0x2A66311C, 0x9B17852D, 0x8108B207, 0x39D14185] ∧
    (scheduleB 32 20 (zeros 16)).drop 42 = [0x05B4016A, 0x4B38AC83] := by decide +kernel

/-- 95 §1.1 B1, both ways. -/
theorem test_cipher_b_w8 :
    encB 12 (scheduleB 8 12 (upFrom 0 4)) (upFrom 0 4) = [0xAE, 0xFC, 0x46, 0x12] ∧
    decB 12 (scheduleB 8 12 (upFrom 0 4)) [0xAE, 0xFC, 0x46, 0x12] = upFrom 0 4 := by decide +kernel

/-- 95 §4.2. -/
theorem test_apply_padding :
    applyPadding [0x61, 0x62, 0x63] .no 8 (fun _ => 0) = .error .noPaddingMismatch ∧
    applyPadding [] .pkcs5 8 (fun _ => 0) = .ok (rep 8 8) ∧
    applyPadding [0x61, 0x62, 0x63] .zero 8 (fun _ => 0) = .ok [0x61, 0x62, 0x63, 0, 0, 0, 0, 0] ∧
    applyPadding [0x61, 0x62, 0x63] .random 8 (fun k => BitVec.ofNat 8 (0xA1 + k)) =
      .ok [0x61, 0x62, 0x63, 0xA1, 0xA2, 0xA3, 0xA4, 0xA5] ∧
    applyPadding (upFrom 0 7) .bit 8 (fun _ => 0) = .ok (upFrom 0 7 ++ [0x80]) := by decide

/-- 95 §4.3 and 43_padding.md R188. -/
theorem test_remove_padding :
    removePadding [0x61, 0x62, 0x63, 5, 5, 5, 5, 5] .pkcs5 8 = .ok [0x61, 0x62, 0x63] ∧
    removePadding [0x61, 0x62, 0x63, 5, 5, 5, 4, 5] .pkcs5 8 = .error .paddingVerificationFailure ∧
    removePadding (rep 9 16) .pkcs5 8 = .error .paddingVerificationFailure ∧
    removePadding [0x61, 0x62, 0x63, 0x80, 0, 0, 0, 0] .bit 8 = .ok [0x61, 0x62, 0x63] ∧
    removePadding (0x80 :: zeros 8) .bit 8 = .error .paddingVerificationFailure := by decide

/-- 44_modes.md R210. -/
theorem test_inc :
    incBlock (zeros 8) = 1 :: zeros 7 ∧ incBlock (0xFF :: zeros 7) = 0 :: 1 :: zeros 6 ∧ incBlock (rep 0xFF 8) = zeros 8 := by
  decide

/-! ## Witnesses: for each statement with hypotheses, concrete values that meet them all, at the edges of their ranges -/

/-- A window away from address 0, and a small MSG_MAX. -/
def small : Config := { msgMax := 16, engineBase := 0x40000 }

/-- IDLE after reset, at the small parameters. -/
def idleS : State := State.resetWith small

/-- BUSY with A.ENC.ECB pad=NO on one zero block. -/
def busyA : State := (prep (zeros 10) [] (zeros 8)).accept 0x00000001

/-- The latch of a state the engine has accepted a word in. -/
def latchIn (s : State) : Latch := latchOf s
  (match s.seq with
  | .idle => 0
  | .busy l => l.cmd)

theorem witness_RstGivesResetState : ({ busyA with inputs := [.rst, .engine] } : State).inputs = .rst :: [.engine] := rfl

theorem witness_StatusWord : busyA.Inv ∧ field busyA.status 0 0 = 1 ∧
    (busyA.completeError .messageTooLong).done = true := by decide

theorem witness_LengthRegistersHoldWhatIsWritten : idleS.seq = .idle ∧ idleS.hostFault = none ∧
    admit32 idleS.config 0x40008 = some 0x08 ∧ admit32 idleS.config 0x4000C = some 0x0C ∧
    admit32 idleS.config 0x40010 = some 0x10 := by decide

/-- The edges of what is admitted. -/
theorem witness_RefusedAccessChangesNothing : idleS.hostFault = none ∧ idleS.config.WF ∧ busyA.hostFault = none ∧
    busyA.config.WF ∧ Config.WF { msgMax := 1, engineBase := 0 } ∧ Config.WF { msgMax := 65472, engineBase := 0x80000 } ∧
    (hostAccess (.read8 0x400FF) idleS = .next (idleS.refuse (.read8 0x400FF))) ∧
    (hostAccess (.read8 0x40100) idleS = .next (idleS.answerRead 0)) ∧
    (hostAccess (.read8 0x7FFFF) idleS = .next (idleS.answerRead 0)) ∧
    (hostAccess (.read8 0x80000) idleS = .next (idleS.refuse (.read8 0x80000))) ∧
    (hostAccess (.read32 0x7FFFC) idleS = .next (idleS.answerRead 0)) ∧
    (hostAccess (.read32 0x7FFFD) idleS = .next (idleS.refuse (.read32 0x7FFFD))) ∧
    (hostAccess (.write16 0x40100 1) idleS = .next (idleS.refuse (.write16 0x40100 1))) := by
  exact ⟨rfl, by decide, rfl, by decide, by decide, by decide, rfl, rfl, rfl, rfl, rfl, rfl, rfl⟩

theorem witness_HostFaultIsNeverCleared :
    step { idleS with hostFault := some (.read8 0), inputs := [.rst] } =
      .next (State.rst { idleS with hostFault := some (.read8 0) }) ∧
    step { idleS with hostFault := some (.read8 0), inputs := [.access (.read32 0x40004)] } =
      .fault (.hostFaulted (.read32 0x40004)) := ⟨rfl, rfl⟩

theorem witness_ReservedLocations : small.WF ∧
    readWord idleS 0x18 = 0 ∧ readWord idleS 0xFC = 0 ∧ readByte idleS 0x240 = 0 ∧ readByte idleS 0xFFFF = 0 ∧
    readByte idleS 0x10010 = 0 ∧ readByte idleS 0x1FFFF = 0 ∧ readByte idleS 0x20050 = 0 ∧ readByte idleS 0x2FFFF = 0 ∧
    writeByte idleS 0x3FFFF 1 = idleS ∧ writeWord idleS 0x10010 1 = idleS ∧ writeWord idleS 0x2FFFC 1 = idleS :=
  ⟨by decide, rfl, rfl, rfl, rfl, rfl, rfl, rfl, rfl, rfl, rfl, rfl⟩

/-- A write at each edge of a buffer, and one across the end of an IN buffer of 17 bytes. -/
def oddS : State := State.resetWith { msgMax := 17, engineBase := 0x40000 }

theorem witness_LittleEndianLanes : memWf idleS.mem = true ∧ regEnd ≤ 0x100 ∧ regEnd ≤ 0x1FC ∧ regEnd ≤ 0x1000C ∧
    (∀ k < 4, isInput idleS.config (0x1FC + k) = true) ∧ (∀ k < 4, isInput idleS.config (0x1000C + k) = true) ∧
    memWf oddS.mem = true ∧ isInput oddS.config (0x10010 + 0) = true ∧ isInput oddS.config (0x10010 + 1) = false := by decide

/-- Across the end of the IN buffer (log entry 10; 20_memory.md R51, R53): the first byte lands, the tail reads 0. -/
theorem test_straddling_write :
    (List.range 4).map (fun i => readByte (writeWord oddS 0x10010 0x44332211) (0x10010 + i)) = [0x11, 0, 0, 0] := by decide

theorem witness_ByteWriteChangesItsLane : memWf idleS.mem = true ∧ regEnd ≤ 0x100 ∧
    isInput idleS.config (0x100 + 0) = true ∧ isInput idleS.config (0x1000C + 3) = true ∧
    isInput idleS.config (0x23C + 3) = true := by decide

theorem witness_HostAccessTouchesItsLocationOnly : memWf busyA.mem = true ∧
    admit32 busyA.config 0x04 = some 0x04 ∧ admit32 busyA.config 0xFC = some 0xFC ∧ admit8 busyA.config 0x100 = some 0x100 ∧
    admit8 busyA.config 0x3FFFF = some 0x3FFFF ∧ admit32 busyA.config 0x3FFFC = some 0x3FFFC ∧
    admit32 busyA.config 0 = some 0 ∧ busyA.seq = .busy (latchIn busyA) ∧ idleS.seq = .idle ∧
    admit32 idleS.config 0x40000 = some 0 := by decide

theorem witness_BufferBytesReadBack : memWf idleS.mem = true ∧ idleS.seq = .idle ∧ idleS.hostFault = none ∧
    admit8 idleS.config 0x40100 = some 0x100 ∧ isInput idleS.config 0x100 = true ∧
    admit8 idleS.config 0x4023F = some 0x23F ∧ isInput idleS.config 0x23F = true ∧
    admit8 idleS.config 0x5000F = some 0x1000F ∧ isInput idleS.config 0x1000F = true ∧
    admit32 idleS.config 0x40100 = some 0x100 ∧ admit32 idleS.config 0x401FC = some 0x1FC ∧
    admit32 idleS.config 0x4023C = some 0x23C ∧ admit32 idleS.config 0x5000C = some 0x1000C ∧ regEnd ≤ 0x100 ∧
    (∀ k < 4, isInput idleS.config (0x1000C + k) = true) ∧
    memWf oddS.mem = true ∧ oddS.seq = .idle ∧ oddS.hostFault = none ∧ admit32 oddS.config 0x50010 = some 0x10010 ∧
    isInput oddS.config (0x10010 + 0) = true ∧ isInput oddS.config (0x10010 + 3) = false := by decide

theorem witness_WritesWhileBusyIgnored : busyA.seq = .busy (latchIn busyA) ∧ busyA.hostFault = none ∧
    admit32 busyA.config 0 = some 0 ∧ admit8 busyA.config 0x10000 = some 0x10000 ∧
    admitted busyA.config (.write32 0x102 1) = false ∧ admitted busyA.config (.read8 0x04) = false ∧
    admitted busyA.config (.read64 0x100) = false := by decide

theorem witness_ReadsWhileBusy : busyA.Inv ∧ busyA.seq = .busy (latchIn busyA) ∧ (latchIn busyA).key.length = 10 ∧
    (latchIn busyA).msg.length = 8 ∧
    (latchIn ((prepLen 300 64 4097).accept 0)).key.length = 256 ∧ (latchIn ((prepLen 300 64 4097).accept 0)).iv.length = 64 ∧
    isInput busyA.config 0x10FFF = true ∧ isInput busyA.config 0x11000 = false ∧
    isInput busyA.config 0x30000 = false := by decide +kernel

theorem witness_AcceptanceLatchesTheInputs : idleS.seq = .idle ∧ idleS.hostFault = none ∧
    admit32 idleS.config 0x40000 = some 0 ∧ 255 < (latchOf (prepLen 300 300 0) 0).key.length ∧
    63 < (latchOf (prepLen 300 300 0) 0).iv.length ∧ 0 < (latchOf (prepLen 0 0 1) 0).msg.length := by decide +kernel

theorem witness_StepRunsDecodedCommand : busyA.seq = .busy (latchIn busyA) ∧
    decode (latchIn busyA).cmd = .ok (.aEncEcb (.scheme .no)) ∧ busyA.inputs = [] ∧
    ({ busyA with inputs := [.engine, .rst] } : State).inputs = .engine :: [.rst] ∧
    decodeTableWord 32 0x00FF081E = some (.bDecOfb (.size .w128) 255) := by decide

/-- Acceptance, completion and reset each change STATUS. -/
theorem witness_OnlyThreeEventsWriteStatus :
    (seenStatus (step { idleS with inputs := [.access (.write32 0x40000 1)] }) = some 1 ∧ idleS.status = 0) ∧
    (seenStatus (step ((prepLen 9 0 8).accept 1)) = some 0x12 ∧ ((prepLen 9 0 8).accept 1).status = 1) ∧
    (seenStatus (step { busyA with inputs := [.rst] }) = some 0 ∧ busyA.status = 1) := by decide +kernel

theorem witness_OutputStaysUntilTheNextCommand : busyA.Inv ∧ idleS.Inv ∧ idleS.seq = .idle ∧
    seenStatus (step { idleS with inputs := [.access (.write32 0x50000 1)] }) = some 0 := by decide

theorem witness_EngineNeverWritesInputs : busyA.Inv ∧ seenStatus (engineStep busyA) = some 2 ∧
    isInput busyA.config 0x100 = true ∧ isInput busyA.config 0x10FFF = true ∧ idleS.Inv ∧
    seenStatus (engineStep idleS) = some 0 := by decide +kernel

theorem witness_EveryAcceptedCommandCompletes : busyA.seq = .busy (latchIn busyA) ∧
    seenStatus (hostAccess (.write32 0 2) busyA) = some 1 ∧ seenStatus (step busyA) = some 2 := by decide +kernel

theorem witness_CompletionWritesOutOutlenStatus : busyA.Inv ∧ busyA.seq = .busy (latchIn busyA) ∧
    ((prepLen 9 0 8).accept 1).Inv ∧ rawValidate 4096 (latchIn busyA) = none ∧
    rawValidate 4096 (latchIn ((prepLen 9 0 8).accept 1)) = some .invalidKeyLength := by decide

theorem witness_EngineStepRefinesRun : busyA.seq = .busy (latchIn busyA) := by decide

/-- An error of `Validate`, none, and PaddingVerificationFailure. -/
theorem witness_ErrorPriority :
    (busyA.Inv ∧ busyA.seq = .busy (latchIn busyA) ∧ rawValidate busyA.config.msgMax (latchIn busyA) = none) ∧
    (((prepLen 10 0 0).accept 0x42).Inv ∧ rawValidate 4096 (latchIn ((prepLen 10 0 0).accept 0x42)) = none ∧
      seenStatus (engineStep ((prepLen 10 0 0).accept 0x42)) = some 0x62) ∧
    rawValidate 4096 (latchIn ((prepLen 10 0 7).accept 1)) = some .noPaddingMismatch := by decide +kernel

/-- Each class, and a word of none. -/
theorem witness_IllegalClasses : idleS.seq = .idle ∧ idleS.hostFault = none ∧ admit32 idleS.config 0x40000 = some 0 ∧
    field 0x00000003 1 0 = 3 ∧ field 0x00008001 15 12 = 8 ∧ field 0x01000001 31 24 = 1 ∧
    (field 0x0014042D 5 3 = 5 ∧ field 0x0014042D 1 0 = 1 ∧ field 0x0014042D 15 12 = 0 ∧ field 0x0014042D 31 24 = 0) ∧
    (field 0x00140A05 11 9 = 5 ∧ field 0x00140A05 2 2 = 1 ∧ field 0x00140A05 5 3 = 0) ∧
    (field 0x00000141 8 6 = 5 ∧ field 0x00000141 5 3 = 0) := by decide

theorem witness_DecodeEncodeRoundTrip : (Instr.bEncCbc (.unrecognized 7) (.unsupported 5) 255).WellFormed ∧
    (Instr.aDecEcb (.scheme .bit)).WellFormed := by decide

theorem witness_IgnoredFields :
    (field 0x00000001 2 2 = 0 ∧ (0x00FF0E01 : Word32) &&& 0xFF00F1FF = 0x00000001 &&& 0xFF00F1FF) ∧
    (2 ≤ field 0x00140415 5 3 ∧ (0x001405D5 : Word32) &&& 0xFFFFFE3F = 0x00140415 &&& 0xFFFFFE3F) ∧
    field 0x00140405 5 3 = 0 := by decide

theorem witness_CommandFrame : busyA.Inv ∧ seenStatus (exec (.aEncEcb (.scheme .no)) busyA) = some 2 ∧ idleS.Inv ∧
    seenStatus (exec (.bDecCtr (.size .w8) 0) idleS) = some 0 ∧ idleS.seq = .idle := by decide +kernel

theorem witness_CommandsAreDeterministic : drawsEntropy (.aEncEcb (.scheme .no)) = false ∧ busyA.Inv ∧
    ({ busyA with serial := 7 } : State).Inv ∧ busyA.isBusy = true := by decide

/-- An access, the engine's turn and reset. -/
theorem witness_StepKeepsInvariant : idleS.Inv ∧
    seenStatus (step { idleS with inputs := [.access (.write32 0x50000 1)] }) = some 0 ∧ busyA.Inv ∧
    seenStatus (step busyA) = some 2 ∧ seenStatus (step { busyA with inputs := [.rst] }) = some 0 := by decide +kernel

theorem witness_AdmittedHostNeverFaults :
    ({ idleS with inputs := .rst :: .engine :: wr32 small 0x08 10 ++ rd8 small 0x100 } : State).Inv ∧
    ({ idleS with inputs := .rst :: .engine :: wr32 small 0x08 10 ++ rd8 small 0x100 } : State).HostSafe := by decide

/-- Each branch of A.ENC.ECB and A.ENC.CBC: key length, IV length, message length, partial block, success. -/
theorem witness_CipherAEncryptCommands : busyA.seq = .busy (latchIn busyA) ∧
    (latchIn ((prepLen 9 0 0).accept 1)).keylen ≠ 10 ∧ (latchIn ((prepLen 17 0 0).accept 1)).keylen ≠ 16 ∧
    ((latchIn ((prepLen 16 9 0).accept 9)).keylen = 16 ∧ (latchIn ((prepLen 16 9 0).accept 9)).ivlen ≠ 8) ∧
    ((latchIn ((prepLen 10 8 4097).accept 9)).ivlen = 8 ∧ 4096 < (latchIn ((prepLen 10 8 4097).accept 9)).inlen.toNat) ∧
    (latchIn ((prepLen 10 8 7).accept 9)).inlen.toNat % 8 ≠ 0 ∧
    ((latchIn busyA).keylen = 10 ∧ (latchIn busyA).inlen.toNat ≤ busyA.config.msgMax ∧
      (latchIn busyA).msg.length = (latchIn busyA).inlen.toNat ∧ (latchIn busyA).inlen.toNat % 8 = 0) ∧
    ((latchIn ((prep (zeros 16) (zeros 8) [1, 2, 3]).accept 0x49)).ivlen = 8 ∧
      (latchIn ((prep (zeros 16) (zeros 8) [1, 2, 3]).accept 0x49)).msg.length = 3) := by decide

theorem witness_CipherADecryptCommands : busyA.seq = .busy (latchIn busyA) ∧
    (latchIn ((prepLen 11 0 0).accept 2)).keylen ≠ 10 ∧ (latchIn ((prepLen 10 7 0).accept 0xA)).ivlen ≠ 8 ∧
    4096 < (latchIn ((prepLen 10 8 4097).accept 0xA)).inlen.toNat ∧
    (latchIn ((prepLen 10 8 9).accept 0xA)).inlen.toNat % 8 = 1 ∧
    ((latchIn ((prepLen 10 8 4096).accept 0xA)).inlen.toNat ≤ 4096 ∧
      (latchIn ((prepLen 10 8 4096).accept 0xA)).inlen.toNat % 8 = 0 ∧ (latchIn ((prepLen 10 8 4096).accept 0xA)).ivlen = 8) := by
  decide +kernel

theorem witness_CipherBEncryptCommands : ((prepLen 255 4 0).accept 0xD).seq = .busy (latchIn ((prepLen 255 4 0).accept 0xD)) ∧
    255 < (latchIn ((prepLen 256 4 0).accept 0xD)).keylen.toNat ∧ (latchIn ((prepLen 255 4 0).accept 0xD)).keylen.toNat = 255 ∧
    (latchIn ((prepLen 255 4 0).accept 0xD)).ivlen.toNat = 4 * (8 * 2 ^ WordSize.w8.code.toNat / 8) ∧
    (latchIn ((prepLen 0 64 0).accept 0x80D)).ivlen.toNat = 4 * (8 * 2 ^ WordSize.w128.code.toNat / 8) ∧
    (latchIn ((prepLen 0 3 0).accept 0xD)).ivlen.toNat ≠ 4 * (8 * 2 ^ WordSize.w8.code.toNat / 8) ∧
    4096 < (latchIn ((prepLen 0 4 4097).accept 0xD)).inlen.toNat ∧ (latchIn ((prepLen 0 4 5).accept 0xD)).inlen.toNat % 4 ≠ 0 ∧
    ((latchIn ((prepLen 0 4 8).accept 0xD)).msg.length = 8 ∧ (latchIn ((prepLen 0 4 8).accept 0xD)).inlen.toNat = 8) := by decide +kernel

theorem witness_CipherBDecryptCommands : ((prepLen 255 4 8).accept 0xE).seq = .busy (latchIn ((prepLen 255 4 8).accept 0xE)) ∧
    255 < (latchIn ((prepLen 256 4 0).accept 0xE)).keylen.toNat ∧ (latchIn ((prepLen 255 4 8).accept 0xE)).keylen.toNat = 255 ∧
    (latchIn ((prepLen 255 4 8).accept 0xE)).ivlen.toNat = 4 * (8 * 2 ^ WordSize.w8.code.toNat / 8) ∧
    (latchIn ((prepLen 0 5 8).accept 0xE)).ivlen.toNat ≠ 4 * (8 * 2 ^ WordSize.w8.code.toNat / 8) ∧
    4096 < (latchIn ((prepLen 0 4 4097).accept 0xE)).inlen.toNat ∧ (latchIn ((prepLen 0 4 7).accept 0xE)).inlen.toNat % 4 ≠ 0 ∧
    (latchIn ((prepLen 255 4 8).accept 0xE)).inlen.toNat % 4 = 0 := by decide +kernel

theorem witness_CipherBStreamCommands : ((prepLen 0 16 5).accept 0x140425).seq = .busy (latchIn ((prepLen 0 16 5).accept 0x140425)) ∧
    255 < (latchIn ((prepLen 256 16 5).accept 0x140425)).keylen.toNat ∧
    (latchIn ((prepLen 0 16 5).accept 0x140425)).ivlen.toNat = 4 * (8 * 2 ^ WordSize.w32.code.toNat / 8) ∧
    (latchIn ((prepLen 0 15 5).accept 0x140425)).ivlen.toNat ≠ 4 * (8 * 2 ^ WordSize.w32.code.toNat / 8) ∧
    4096 < (latchIn ((prepLen 0 16 4097).accept 0x140425)).inlen.toNat ∧
    (latchIn ((prepLen 0 16 5).accept 0x140425)).inlen.toNat ≤ 4096 := by decide

/-- BUSY with the encryption, and then the decryption, of "abc" (45_commands.md R235, R237). -/
def encS : State := (prep (upFrom 0 10) (upFrom 0xA0 8) [0x61, 0x62, 0x63]).accept 0x49
def decS : State := (prep (upFrom 0 10) (upFrom 0xA0 8) [0xF5, 0xF4, 0x2B, 0xC1, 0x3D, 0x0C, 0x1E, 0xEF]).accept 0x4A

theorem witness_DecryptGivesBackTheMessage : ∃ t : State,
    reversible (.aEncCbc (.scheme .pkcs5)) = true ∧ encS.Inv ∧ encS.seq = .busy (latchIn encS) ∧
    exec (.aEncCbc (.scheme .pkcs5)) encS = .next t ∧ t.err = none ∧
    decS.Inv ∧ decS.seq = .busy (latchIn decS) ∧ decS.config = encS.config ∧ (latchIn decS).key = (latchIn encS).key ∧
    (latchIn decS).keylen = (latchIn encS).keylen ∧ (latchIn decS).iv = (latchIn encS).iv ∧
    (latchIn decS).ivlen = (latchIn encS).ivlen ∧ (latchIn decS).inlen = t.outlen ∧
    (latchIn decS).msg = memBytes t.mem outBase t.outlen.toNat ∧ t.outlen.toNat ≤ encS.config.msgMax :=
  ⟨encS.complete (run { op := .enc, cipher := .a, mode := .block .cbc (.scheme .pkcs5) } encS.config.msgMax (latchIn encS)
      (Config.entropy encS.serial)),
    by decide, by decide, by decide, rfl, by decide +kernel, by decide, by decide, rfl, by decide, rfl, by decide, rfl,
    by decide +kernel, by decide +kernel, by decide +kernel⟩

theorem witness_Rotations : 8 ∈ wordSizes ∧ 128 ∈ wordSizes ∧ ramt 33 32 ≠ 0 ∧ ramt 32 32 = 0 ∧ 79 < 80 := by decide

theorem witness_ByteOrderConversions : 0 < 2 ^ (8 * 0) ∧ 0xFFFF < 2 ^ (8 * 2) := by decide

theorem witness_KeyRegisterUpdates : 1 ≤ 1 ∧ 31 ≤ 31 := by decide

theorem witness_RoundKeys : (zeros 10).length = 10 ∧ (zeros 16).length = 16 := by decide

theorem witness_CipherABlockTransforms : (List.replicate 32 (0 : BitVec 64)).length = 32 ∧ (zeros 8).length = 8 := by decide

theorem witness_KeyWords : 128 ∈ wordSizes ∧ (zeros 255).length ≤ 255 ∧ (zeros 1) ≠ [] := ⟨by decide, by decide +kernel, by decide⟩

theorem witness_KeyMixing : 8 ∈ wordSizes ∧ 255 ≤ 255 ∧ (zeros 255).length ≤ 255 := ⟨by decide, by decide, by decide +kernel⟩

theorem witness_CipherBRounds : 1 ≤ 1 ∧ 8 ∈ wordSizes ∧ (List.replicate 4 (0 : BitVec 8)).length = 2 * 0 + 4 ∧
    (zeros 4).length = 4 * (8 / 8) ∧ 0 < 8 / 8 ∧ 128 ∈ wordSizes ∧ (zeros 64).length = 4 * (128 / 8) ∧ 15 < 128 / 8 := by
  decide

/-- 42_cipher_b.md R151: the example. -/
theorem test_load_block : loadB 32 (upFrom 0 16) = { a := 0x03020100, b := 0x07060504, c := 0x0B0A0908, d := 0x0F0E0D0C } := by
  decide

theorem witness_CipherBDecryptInvertsEncrypt : 128 ∈ wordSizes ∧ 255 ≤ 255 ∧ (zeros 255).length ≤ 255 ∧
    (zeros 64).length = 4 * (128 / 8) :=
  ⟨by decide, by decide, by decide +kernel, by decide +kernel⟩

/-- The empty key and a zero byte (42_cipher_b.md R160). -/
theorem witness_TrailingZeroKeyBytes : 32 ∈ wordSizes ∧
    (keyWordsB 32 ([] ++ zeros 4)).length = (keyWordsB 32 []).length := by decide

theorem witness_PaddingAppends : 1 ≤ 8 ∧ ([] : Bytes).length % 8 = 0 ∧ ([1] : Bytes).length % 8 ≠ 0 ∧ Padding.bit ≠ .no := by
  decide

theorem witness_PaddingRemoval : 1 ≤ 1 ∧ 64 ≤ 64 ∧ removePadding (rep 8 8) .pkcs5 8 = .ok [] ∧
    removePadding (0x80 :: zeros 7) .bit 8 = .ok [] ∧ removePadding [] .bit 8 = .error .paddingVerificationFailure := by decide

theorem witness_PaddingRoundTrip : 64 ∈ [4, 8, 16, 32, 64] ∧ applyPadding [1] .bit 4 (fun _ => 0) = .ok [1, 0x80, 0, 0] ∧
    applyPadding [] .no 4 (fun _ => 0) = .ok [] ∧ ([1] : Bytes).length % 4 ≠ 0 ∧
    applyPadding [1] .zero 4 (fun _ => 0) = .ok [1, 0, 0, 0] := by decide

theorem witness_ModeRules : (zeros 8).length = (upFrom 1 8).length ∧ 7 < (zeros 8).length ∧ 1 ≤ 4 ∧
    (zeros 8).length = 2 * 4 := by decide

theorem witness_ModesInvert : ∃ E D : Bytes → Bytes, (∀ b : Bytes, b.length = 4 → (E b).length = 4) ∧
    (∀ b : Bytes, b.length = 4 → D (E b) = b) ∧ (zeros 8).length % 4 = 0 ∧ (zeros 4).length = 4 :=
  ⟨List.reverse, List.reverse, fun _ h => by simpa using h, fun _ _ => List.reverse_reverse _, by decide, by decide⟩

theorem witness_StreamModesTruncate : ∃ E : Bytes → Bytes, (∀ b : Bytes, (E b).length = 4) ∧
    (rep 1 3).length = (4 - (zeros 5).length % 4) % 4 :=
  ⟨fun _ => zeros 4, fun _ => by simp [zeros], by decide⟩

theorem witness_ChainingAcrossCommands_modes : ∃ E : Bytes → Bytes, (∀ b : Bytes, (E b).length = 4) ∧
    (zeros 4).length = 4 ∧ (zeros 8).length = (1 + 1) * 4 := ⟨fun _ => zeros 4, fun _ => by simp [zeros], by decide, by decide⟩

/-- BUSY with a command on a message. -/
def busyWith (i : Instr) (key iv msg : Bytes) : State := (prep key iv msg).accept (encode i)

/-- The state after a completed command. -/
def doneOf (i : Instr) (s : State) : State :=
  s.complete (match s.seq with
    | .idle => .ok []
    | .busy l => run (requestOf i) s.config.msgMax l (Config.entropy s.serial))

/-- BUSY with the rest of a split message, under the next IV. -/
def busyRest (i i1 : Instr) (key iv m1 m2 : Bytes) : State :=
  busyWith i key (nextIv i m1 (output (doneOf i1 (busyWith i1 key iv m1))) iv) m2

/-- The hypotheses of ChainingAcrossCommands on a split of `m1 ++ m2`. -/
def ChainHyps (i i1 : Instr) (key iv m1 m2 : Bytes) : Prop :=
  let s := busyWith i key iv (m1 ++ m2)
  let s1 := busyWith i1 key iv m1
  let s2 := busyRest i i1 key iv m1 m2
  let t1 := doneOf i1 s1
  let l := latchIn s
  let l1 := latchIn s1
  let l2 := latchIn s2
  firstPart i = some i1 ∧ s.Inv ∧ s1.Inv ∧ s2.Inv ∧ (s.seq = .busy l ∧ s1.seq = .busy l1 ∧ s2.seq = .busy l2) ∧
  (s1.config = s.config ∧ s2.config = s.config ∧
    l1.key = l.key ∧ l1.keylen = l.keylen ∧ l2.key = l.key ∧ l2.keylen = l.keylen ∧
    l1.iv = l.iv ∧ l1.ivlen = l.ivlen ∧ l2.ivlen = l.ivlen) ∧
  (l.msg = l1.msg ++ l2.msg ∧ l.inlen.toNat = l1.inlen.toNat + l2.inlen.toNat ∧ l.inlen.toNat ≤ s.config.msgMax ∧
    l1.msg.length % blockSizeOf i = 0 ∧ (needsLastBlock i = true → l2.msg ≠ [])) ∧
  exec i1 s1 = .next t1 ∧ (t1.err = none ∧ l2.iv = nextIv i l1.msg (output t1) l.iv) ∧
  (∀ k, Config.entropy s2.serial k = Config.entropy s.serial k)

/-- Encryption and decryption in a CBC command with PKCS5 padding, and a stream command on a partial last block. -/
theorem witness_ChainingAcrossCommands :
    ChainHyps (.bEncCbc (.scheme .pkcs5) (.size .w8) 0) (.bEncCbc (.scheme .no) (.size .w8) 0) [] (upFrom 0 4) (upFrom 9 8) [7] ∧
    ChainHyps (.bDecCbc (.scheme .pkcs5) (.size .w8) 0) (.bDecCbc (.scheme .no) (.size .w8) 0) [1] (upFrom 0 4) (upFrom 9 4)
      (upFrom 20 4) ∧
    ChainHyps (.bEncOfb (.size .w8) 1) (.bEncOfb (.size .w8) 1) [1, 2] (upFrom 0 4) (upFrom 9 4) [7, 8] ∧
    ChainHyps (.bDecCtr (.size .w8) 1) (.bDecCtr (.size .w8) 1) [1, 2] (upFrom 0 4) (upFrom 9 8) [7, 8] :=
  ⟨⟨rfl, by decide +kernel, by decide +kernel, by decide +kernel, ⟨rfl, rfl, rfl⟩, by decide +kernel,
      by decide +kernel, rfl, by decide +kernel, fun _ => rfl⟩,
    ⟨rfl, by decide +kernel, by decide +kernel, by decide +kernel, ⟨rfl, rfl, rfl⟩, by decide +kernel,
      by decide +kernel, rfl, by decide +kernel, fun _ => rfl⟩,
    ⟨rfl, by decide +kernel, by decide +kernel, by decide +kernel, ⟨rfl, rfl, rfl⟩, by decide +kernel,
      by decide +kernel, rfl, by decide +kernel, fun _ => rfl⟩,
    ⟨rfl, by decide +kernel, by decide +kernel, by decide +kernel, ⟨rfl, rfl, rfl⟩, by decide +kernel,
      by decide +kernel, rfl, by decide +kernel, fun _ => rfl⟩⟩

theorem witness_OpcodeTable : decode 0x0014052E = .error .unsupportedMode ∧
    decode 0x001404AE = .error .unsupportedMode ∧ decode 0x00140446 = .ok (.bDecEcb (.scheme .pkcs5) (.size .w32) 20) := by
  decide

theorem witness_SubstitutionLayer : 0 < 16 ∧ 15 < 16 := by decide

theorem witness_PermutationLayer : 0 < 63 ∧ 62 < 63 := by decide

theorem witness_CipherBConstants : 8 ∈ wordSizes ∧ 128 ∈ wordSizes := by decide

end Sys2Proof.Tests
end

section
/-! PROOFS. The statements of spec/10_state.md: reset, STATUS, the length registers, the buffers read back, the step's
dispatch, which events write STATUS, and that every step keeps the invariant. -/

namespace Sys2Proof.Machine

open Sys2Proof.Spec

/-! ## The invariant -/

/-- The engine's turn keeps the invariant: the output of a completion fits OUT because the latch is one that acceptance
gives (spec/45_commands.md R232). -/
theorem inv_engineStep {s t : State} (hi : s.Inv) (h : engineStep s = .next t) : t.Inv := by
  rcases engineStep_complete s with ⟨-, he⟩ | ⟨l, r, hb, he, hfit⟩
  · cases he.symm.trans h
    exact hi
  · cases he.symm.trans h
    exact inv_complete hi (hfit (sized_of_inv hi hb))

/-- An access of the host keeps the invariant, admitted or refused, in IDLE and in BUSY. -/
theorem inv_portAccess {s : State} (hi : s.Inv) (a : Access) : (portAccess a s).Inv := by
  rcases portAccess_cases a s with h | ⟨v, h⟩ | ⟨hs, w, hw, h⟩ <;> rw [h]
  · exact inv_refuse a hi
  · exact inv_answer _ hi
  · exact inv_answer _ (inv_written hi hs hw)

/-- Settles O32: each of the three events of a step keeps the invariant. -/
theorem stepKeepsInvariant : Obligations.StepKeepsInvariant := by
  intro s t hi h
  rcases step_cases h with ⟨-, he⟩ | ⟨a, rest, -, -, rfl⟩ | ⟨rest, -, rfl⟩
  · exact inv_engineStep (inv_inputs _ hi) he
  · exact inv_portAccess (inv_inputs rest hi) a
  · exact inv_rst hi.1

/-! ## What the host reads -/

@[simp] theorem readByte_answer (s : State) (r : BusResponse) (x : Nat) : readByte (s.answer r) x = readByte s x := rfl
@[simp] theorem readReg_answer (s : State) (r : BusResponse) (x : Nat) : readReg (s.answer r) x = readReg s x := rfl
@[simp] theorem readWord_answer (s : State) (r : BusResponse) (x : Nat) : readWord (s.answer r) x = readWord s x := rfl

@[simp] theorem readReg_writeByte (s : State) (off : Nat) (b : Byte) (x : Nat) :
    readReg (writeByte s off b) x = readReg s x := by
  obtain ⟨m, h⟩ := writeByte_mem s off b
  rw [h]
  rfl

theorem readReg_writeWord_buffers (s : State) {off : Nat} (ho : regEnd ≤ off) (v : Word32) (x : Nat) :
    readReg (writeWord s off v) x = readReg s x := by
  obtain ⟨m, h⟩ := writeWord_mem s off v ho
  rw [h]
  rfl

theorem readWord_reg (s : State) {off : Nat} (h : off < regEnd) : readWord s off = readReg s off := if_pos h

theorem writeWord_reg (s : State) {off : Nat} (h : off < regEnd) (v : Word32) : writeWord s off v = writeReg s off v :=
  if_pos h

/-- A byte of KEY, IV or IN that a 32-bit write covers reads its lane of the word (spec/20_memory.md R51). -/
theorem readByte_writeWord_lane {s : State} {off k : Nat} (hm : memWf s.mem = true) (ho : regEnd ≤ off) (hk : k < 4)
    (hi : isInput s.config (off + k) = true) (v : Word32) :
    readByte (writeWord s off v) (off + k) = v.extractLsb' (8 * k) 8 := by
  rw [readByte_writeWord s off v ho hm]
  obtain rfl | rfl | rfl | rfl : k = 0 ∨ k = 1 ∨ k = 2 ∨ k = 3 := by omega
  · simp [show isInput s.config off = true from hi]
  all_goals simp [hi]

/-- A 32-bit write of the buffers changes no byte that it does not cover, and none outside KEY, IV and IN. -/
theorem readByte_writeWord_frame {s : State} {off x : Nat} (hm : memWf s.mem = true) (ho : regEnd ≤ off)
    (hx : isInput s.config x = false ∨ x < off ∨ off + 4 ≤ x) (v : Word32) :
    readByte (writeWord s off v) x = readByte s x := by
  have miss : ∀ o, off ≤ o → o < off + 4 → ¬ (x = o ∧ isInput s.config o = true) := by
    rintro o _ _ ⟨rfl, hin⟩
    rcases hx with h | h | h
    · simp [hin] at h
    · omega
    · omega
  rw [readByte_writeWord s off v ho hm, if_neg (miss _ (by omega) (by omega)),
    if_neg (miss _ (by omega) (by omega)), if_neg (miss _ (by omega) (by omega)),
    if_neg (miss _ (by omega) (by omega))]

/-- A word of four input bytes reads back as it was written. -/
theorem readWord_writeWord {s : State} {off : Nat} (hm : memWf s.mem = true) (ho : regEnd ≤ off)
    (hi : ∀ k < 4, isInput s.config (off + k) = true) (v : Word32) : readWord (writeWord s off v) off = v :=
  word_ext_lanes fun k hk => by rw [lane_readWord _ ho hk, readByte_writeWord_lane hm ho hk (hi k hk)]

/-! ## Admitted writes while IDLE -/

/-- An admitted 8-bit write while IDLE is the byte's write and a normal answer. -/
theorem hostAccess_write8_idle {s : State} {addr off : Nat} (hs : s.seq = .idle) (hf : s.hostFault = none)
    (ha : admit8 s.config addr = some off) (b : Byte) :
    hostAccess (.write8 addr b) s = .next ((writeByte s off b).answer { error := false, data := 0 }) := by
  simp [hostAccess, hf, portAccess, ha, State.answerWrite, hs]

/-- An admitted 32-bit write while IDLE is the word's write and a normal answer. -/
theorem hostAccess_write32_idle {s : State} {addr off : Nat} (hs : s.seq = .idle) (hf : s.hostFault = none)
    (ha : admit32 s.config addr = some off) (v : Word32) :
    hostAccess (.write32 addr v) s = .next ((writeWord s off v).answer { error := false, data := 0 }) := by
  simp [hostAccess, hf, portAccess, ha, State.answerWrite, hs]

/-- Settles O12: the byte write at its own offset, the word write lane by lane. -/
theorem bufferBytesReadBack : Obligations.BufferBytesReadBack := by
  constructor
  · intro s addr off b hm hs hf ha hi
    refine ⟨_, hostAccess_write8_idle hs hf ha b, ?_, fun x hx => ?_, fun x => ?_⟩
    · simp [readByte_writeByte hm hi]
    · simp [readByte_writeByte hm hi, hx]
    · simp
  · intro s addr off v hm hs hf ha ho
    refine ⟨_, hostAccess_write32_idle hs hf ha v, fun k hk hi => ?_, fun hi => ?_, fun x hx => ?_, fun x => ?_⟩
    · rw [readByte_answer, readByte_writeWord_lane hm ho hk hi]
    · rw [readWord_answer, readWord_writeWord hm ho hi]
    · rw [readByte_answer, readByte_writeWord_frame hm ho hx]
    · rw [readReg_answer, readReg_writeWord_buffers s ho]

/-- Settles O5: each of the three offsets is one branch of the register write. -/
theorem lengthRegistersHoldWhatIsWritten : Obligations.LengthRegistersHoldWhatIsWritten := by
  intro s addr v off hs hf ha hoff
  have hreg : off < regEnd := by
    simp only [List.mem_cons, List.not_mem_nil, or_false] at hoff
    unfold regEnd
    omega
  refine ⟨_, hostAccess_write32_idle hs hf ha v, ?_⟩
  rw [readWord_answer, readWord_reg _ hreg, writeWord_reg s hreg]
  simp only [List.mem_cons, List.not_mem_nil, or_false] at hoff
  obtain rfl | rfl | rfl := hoff <;> exact ⟨rfl, rfl⟩

/-! ## Which events write STATUS -/

/-- BUSY, DONE and ERR are the same in both states. -/
def SameStatus (s t : State) : Prop := t.isBusy = s.isBusy ∧ t.done = s.done ∧ t.err = s.err

theorem sameStatus_of_fields {s t : State} (hq : t.seq = s.seq) (hd : t.done = s.done) (he : t.err = s.err) :
    SameStatus s t :=
  ⟨by unfold State.isBusy; rw [hq], hd, he⟩

/-- A byte write leaves STATUS alone. -/
theorem sameStatus_writeByte (s : State) (off : Nat) (b : Byte) : SameStatus s (writeByte s off b) := by
  rw [writeByte_eq]
  exact sameStatus_of_fields rfl rfl rfl

/-- A word write leaves STATUS alone, unless it is to CMD. -/
theorem sameStatus_writeWord (s : State) {off : Nat} (h0 : off ≠ 0) (v : Word32) : SameStatus s (writeWord s off v) := by
  by_cases h : off < regEnd
  · rw [writeWord_reg s h]
    unfold writeReg
    rw [if_neg h0]
    repeat' split
    all_goals exact sameStatus_of_fields rfl rfl rfl
  · rw [writeWord_buffers s off v (by omega)]
    exact sameStatus_of_fields rfl rfl rfl

/-- A write that leaves STATUS alone still does when it is answered, and it is ignored while BUSY. -/
theorem sameStatus_answerWrite {s w : State} (h : s.seq = .idle → SameStatus s w) : SameStatus s (s.answerWrite w) := by
  unfold State.answerWrite
  cases hs : s.seq with
  | idle => exact h hs
  | busy l => exact sameStatus_of_fields rfl rfl rfl

/-- An access leaves STATUS alone, unless it is the admitted 32-bit write to CMD while IDLE. -/
theorem portAccess_status (a : Access) (s : State) :
    SameStatus s (portAccess a s) ∨
    ∃ addr v, a = .write32 addr v ∧ admit32 s.config addr = some 0 ∧ s.seq = .idle ∧ (portAccess a s).isBusy = true := by
  have refused : SameStatus s (s.refuse a) := sameStatus_of_fields rfl rfl rfl
  have read : ∀ v, SameStatus s (s.answerRead v) := fun v => sameStatus_of_fields rfl rfl rfl
  cases a with
  | read16 _ => exact .inl refused
  | read64 _ => exact .inl refused
  | write16 _ _ => exact .inl refused
  | write64 _ _ => exact .inl refused
  | read8 addr =>
    left
    simp only [portAccess]
    split
    · exact refused
    · exact read _
  | read32 addr =>
    left
    simp only [portAccess]
    split
    · exact refused
    · exact read _
  | write8 addr b =>
    left
    simp only [portAccess]
    split
    · exact refused
    · exact sameStatus_answerWrite fun _ => sameStatus_writeByte s _ b
  | write32 addr v =>
    simp only [portAccess]
    cases ha : admit32 s.config addr with
    | none => exact .inl refused
    | some off =>
      by_cases hcmd : s.seq = .idle ∧ off = 0
      · obtain ⟨hs, rfl⟩ := hcmd
        exact .inr ⟨addr, v, rfl, ha, hs, by simp only [State.answerWrite, hs]; rfl⟩
      · exact .inl (sameStatus_answerWrite fun hs => sameStatus_writeWord s (fun h0 => hcmd ⟨hs, h0⟩) v)

/-- Settles O17: the engine's turn from IDLE and every access but the acceptance leave the three fields alone. -/
theorem onlyThreeEventsWriteStatus : Obligations.OnlyThreeEventsWriteStatus := by
  intro s t h hchange
  rcases step_cases h with ⟨hturn, he⟩ | ⟨a, rest, hin, -, rfl⟩ | ⟨rest, hin, -⟩
  · rcases engineStep_complete { s with inputs := s.inputs.tail } with ⟨-, hn⟩ | ⟨l, r, hb, hn, -⟩
    · cases hn.symm.trans he
      exact absurd ⟨rfl, rfl, rfl⟩ hchange
    · cases hn.symm.trans he
      exact .inr (.inl ⟨⟨l, hb⟩, hturn, by rw [complete_eq], by rw [complete_eq]⟩)
  · rcases portAccess_status a { s with inputs := rest } with hsame | ⟨addr, v, rfl, hadm, hs, hb⟩
    · exact absurd hsame hchange
    · exact .inl ⟨addr, v, rest, hin, hadm, hs, hb⟩
  · exact .inr (.inr ⟨rest, hin⟩)

/-! ## Reset -/

/-- Nothing is stored at reset, so every byte of the buffers reads 0. -/
theorem readByte_reset (off : Nat) : readByte State.reset off = 0 := by
  unfold readByte
  split
  · rfl
  · split <;> rfl

theorem readReg_reset (off : Nat) : readReg State.reset off = 0 := by
  unfold readReg
  repeat' split
  all_goals rfl

/-- Settles O1. -/
theorem resetValues : Obligations.ResetValues :=
  ⟨rfl, rfl, rfl, rfl, rfl, rfl, fun _ => rfl, readByte_reset, fun off _ => readReg_reset off⟩

/-! ## STATUS -/

/-- The STATUS word as a number (spec/10_state.md R26). -/
theorem status_toNat (s : State) :
    s.status.toNat = 16 * (errField s.err).toNat + 2 * s.done.toNat + s.isBusy.toNat := by
  unfold State.status
  generalize errField s.err = e, s.done = d, s.isBusy = b
  revert e d b
  decide

theorem field_status_busy (s : State) : field s.status 0 0 = s.isBusy.toNat := by
  have := Bool.toNat_le s.isBusy
  simp only [field, status_toNat]
  omega

theorem field_status_done (s : State) : field s.status 1 1 = s.done.toNat := by
  have := Bool.toNat_le s.isBusy
  have := Bool.toNat_le s.done
  simp only [field, status_toNat]
  omega

theorem field_status_err (s : State) : field s.status 7 4 = (errField s.err).toNat := by
  have := Bool.toNat_le s.isBusy
  have := Bool.toNat_le s.done
  have := (errField s.err).isLt
  simp only [field, status_toNat]
  omega

/-- The reserved bits of STATUS read 0. -/
theorem field_status_reserved (s : State) : field s.status 3 2 = 0 ∧ field s.status 31 8 = 0 := by
  have := Bool.toNat_le s.isBusy
  have := Bool.toNat_le s.done
  have := (errField s.err).isLt
  simp only [field, status_toNat]
  omega

theorem isBusy_iff (s : State) : s.isBusy = true ↔ ∃ l, s.seq = .busy l :=
  ⟨busy_of_isBusy, fun ⟨_, h⟩ => isBusy_of_busy h⟩

/-- Settles O3: the fields are those of the word as a number; the exclusions are the invariant's. -/
theorem statusWord : Obligations.StatusWord := by
  constructor
  · intro s
    refine ⟨rfl, ?_, ?_, (field_status_reserved s).1, field_status_err s, (field_status_reserved s).2, fun v => rfl⟩
    · rw [field_status_busy, Bool.toNat_eq_one, isBusy_iff]
    · rw [field_status_done, Bool.toNat_eq_one]
  · intro s hi
    obtain ⟨-, -, -, -, -, hdone, herr, -⟩ := hi
    rw [field_status_busy, field_status_done, field_status_err, Bool.toNat_eq_one, Bool.toNat_eq_one]
    constructor
    · rintro ⟨hb, hd⟩
      exact absurd (hdone hb) (by simp [hd])
    · intro hb
      rw [herr (hdone hb)]
      rfl

/-! ## The engine's turn -/

theorem engineStep_decoded {s : State} {l : Latch} {i : Instr} (hs : s.seq = .busy l) (hd : decode l.cmd = .ok i) :
    engineStep s = exec i s := by
  simp [engineStep, hs, hd]

theorem step_noInput {s : State} (h : s.inputs = []) : step s = engineStep s := by
  simp [step, h]

theorem step_engine {s : State} {rest : List Input} (h : s.inputs = .engine :: rest) :
    step s = engineStep { s with inputs := rest } := by
  simp [step, h]

/-- A word of the opcode table's numbering decodes by its bytes exactly as the word does. -/
theorem decode_of_decodeTableWord {nbits w : Nat} {i : Instr} (h : decodeTableWord nbits w = some i) :
    decode (tableWord nbits w) = .ok i := by
  have hb := decodeBytes_wordBytes (tableWord nbits w) []
  rw [List.append_nil] at hb
  unfold decodeTableWord at h
  rw [hb] at h
  cases hd : decode (tableWord nbits w) with
  | ok j => simpa [hd] using h
  | error e => simp [hd] at h

/-- After `withFetchWord` the engine has the turn, at the accepted state (log entry 8). -/
theorem step_withFetchWord (s : State) (nbits w : Nat) :
    step (s.withFetchWord nbits w) = engineStep { s.accept (tableWord nbits w) with inputs := s.inputs } := by
  cases hi : s.inputs with
  | nil =>
    rw [step_noInput (by simp [State.withFetchWord, hi])]
    simp [State.withFetchWord, hi]
  | cons i rest =>
    rw [step_engine (rest := i :: rest) (by simp [State.withFetchWord, hi])]
    simp [State.withFetchWord]

/-- Settles O16. -/
theorem stepRunsDecodedCommand : Obligations.StepRunsDecodedCommand := by
  constructor
  · intro s l i hs hd
    constructor
    · intro hin
      rw [step_noInput hin, engineStep_decoded hs hd]
    · intro rest hin
      rw [step_engine hin]
      exact engineStep_decoded hs hd
  · intro s nbits w i hd
    rw [step_withFetchWord]
    exact engineStep_decoded (accept_seq s _) (decode_of_decodeTableWord hd)

end Sys2Proof.Machine
end

section
/-! PROOFS. The statements of spec/20_memory.md: which accesses the engine admits and what each of them touches, the byte
lanes, the reserved locations, what the engine leaves alone, and that a host of admitted accesses never faults. -/

namespace Sys2Proof.Machine

open Sys2Proof.Spec

/-! ## What no event of a run by an admitted host changes -/

/-- The parameters, the host agent's fault and the inputs still to come are the same in both states: all that
`State.HostSafe` speaks of. -/
structure SameWorld (s t : State) : Prop where
  config : t.config = s.config
  hostFault : t.hostFault = s.hostFault
  inputs : t.inputs = s.inputs

theorem hostSafe_of_sameWorld {s t : State} (h : SameWorld s t) (hs : s.HostSafe) : t.HostSafe := by
  unfold State.HostSafe
  rw [h.config, h.hostFault, h.inputs]
  exact hs

theorem sameWorld_complete (s : State) (r : Except CmdError Bytes) : SameWorld s (s.complete r) := by
  rw [complete_eq]
  exact ⟨rfl, rfl, rfl⟩

/-- What an admitted write changes is the engine's own state, not the bus's answers or the world outside. -/
theorem written_world {s t : State} (h : Written s t) : SameWorld s t ∧ t.responses = s.responses := by
  cases h with
  | byte off b => rw [writeByte_eq]; exact ⟨⟨rfl, rfl, rfl⟩, rfl⟩
  | word off v ho => rw [writeWord_buffers s off v ho]; exact ⟨⟨rfl, rfl, rfl⟩, rfl⟩
  | _ => exact ⟨⟨rfl, rfl, rfl⟩, rfl⟩

/-! ## A host that makes only admitted accesses -/

/-- The engine's turn never stops the machine (spec/45_commands.md R232). -/
theorem engineStep_next (s : State) : ∃ t, engineStep s = .next t ∧ SameWorld s t := by
  rcases engineStep_complete s with ⟨-, h⟩ | ⟨l, r, -, h, -⟩
  · exact ⟨s, h, rfl, rfl, rfl⟩
  · exact ⟨_, h, sameWorld_complete s r⟩

theorem sameWorld_portAccess {a : Access} {s : State} (h : admitted s.config a = true) :
    SameWorld s (portAccess a s) := by
  have hf := portAccess_admitted h
  rcases portAccess_cases a s with he | ⟨v, he⟩ | ⟨-, t, ht, he⟩ <;> rw [he] at hf ⊢
  · exact ⟨rfl, hf, rfl⟩
  · exact ⟨rfl, hf, rfl⟩
  · obtain ⟨⟨hc, -, hin⟩, -⟩ := written_world ht
    exact ⟨hc, hf, hin⟩

/-- A host without a fault makes its access. -/
theorem hostAccess_noFault {s : State} (hf : s.hostFault = none) (a : Access) :
    hostAccess a s = .next (portAccess a s) := by
  simp only [hostAccess, hf]

theorem step_access {s : State} {a : Access} {rest : List Input} (h : s.inputs = .access a :: rest) :
    step s = hostAccess a { s with inputs := rest } := by
  simp only [step, h]

theorem step_rst {s : State} {rest : List Input} (h : s.inputs = .rst :: rest) :
    step s = .next (State.rst { s with inputs := rest }) := by
  simp only [step, h]

/-- A step of a machine whose host is safe goes on, with the host still safe. -/
theorem step_next_of_hostSafe {s : State} (h : s.HostSafe) : ∃ t, step s = .next t ∧ t.HostSafe := by
  obtain ⟨hf, hin⟩ := h
  cases hs : s.inputs with
  | nil =>
    obtain ⟨t, ht, hw⟩ := engineStep_next s
    exact ⟨t, (step_noInput hs).trans ht, hostSafe_of_sameWorld hw ⟨hf, hin⟩⟩
  | cons i rest =>
    rw [hs, List.all_cons, Bool.and_eq_true] at hin
    obtain ⟨hi, hrest⟩ := hin
    have hsafe : State.HostSafe { s with inputs := rest } := ⟨hf, hrest⟩
    cases i with
    | engine =>
      obtain ⟨t, ht, hw⟩ := engineStep_next { s with inputs := rest }
      exact ⟨t, (step_engine hs).trans ht, hostSafe_of_sameWorld hw hsafe⟩
    | access a =>
      have hw : SameWorld { s with inputs := rest } (portAccess a { s with inputs := rest }) := sameWorld_portAccess hi
      exact ⟨_, (step_access hs).trans (hostAccess_noFault hsafe.1 a), hostSafe_of_sameWorld hw hsafe⟩
    | rst => exact ⟨_, step_rst hs, hsafe⟩

theorem run_succ_of_next {M : Host.Core} {s t : M.State} (h : M.step s = .next t) (k : Nat) :
    M.run (k + 1) s = M.run k t := by
  rw [Host.Core.run, h]

/-- When every step from a state with `P` goes on to a state with `P`, so does any number of steps. -/
theorem run_next_of_progress {M : Host.Core} {P : M.State → Prop}
    (hstep : ∀ s, P s → ∃ t, M.step s = .next t ∧ P t) :
    ∀ (k : Nat) (s : M.State), P s → ∃ t, M.run k s = .next t ∧ P t
  | 0, s, h => ⟨s, rfl, h⟩
  | k + 1, s, h => by
    obtain ⟨t, ht, hP⟩ := hstep s h
    rw [run_succ_of_next ht]
    exact run_next_of_progress hstep k t hP

/-- Settles O33: the invariant and the host's safety together give a next state that has both. -/
theorem admittedHostNeverFaults : Obligations.AdmittedHostNeverFaults := by
  intro k s hi hs
  refine run_next_of_progress (M := Sys2Proof.core) (P := fun s : State => s.Inv ∧ s.HostSafe) ?_ k s ⟨hi, hs⟩
  rintro s ⟨hi, hs⟩
  obtain ⟨t, ht, hsafe⟩ := step_next_of_hostSafe hs
  exact ⟨t, ht, stepKeepsInvariant s t hi ht, hsafe⟩

/-! ## Which accesses are admitted -/

theorem admit8_isSome_eq_false_iff (c : Config) (x : Nat) :
    (admit8 c x).isSome = false ↔ ¬ (c.engineBase + 0x100 ≤ x ∧ x < c.engineBase + 0x40000) := by
  rw [Option.isSome_eq_false_iff, Option.isNone_iff_eq_none, admit8_eq_none]

theorem admit32_isSome_eq_false_iff {c : Config} (hc : c.WF) (x : Nat) :
    (admit32 c x).isSome = false ↔ ¬ (c.engineBase ≤ x ∧ x < c.engineBase + 0x40000 ∧ x % 4 = 0) := by
  rw [Option.isSome_eq_false_iff, Option.isNone_iff_eq_none, admit32_eq_none hc]

theorem portAccess_refused {a : Access} {s : State} (h : admitted s.config a = false) : portAccess a s = s.refuse a := by
  cases a with
  | read8 x | read32 x | write8 x v | write32 x v =>
    have hn := Option.isNone_iff_eq_none.mp (Option.isSome_eq_false_iff.mp h)
    simp only [portAccess, hn]
  | _ => rfl

/-- An admitted access gets an answer without error. -/
theorem portAccess_responses {a : Access} {s : State} (hf : s.hostFault = none) (h : admitted s.config a = true) :
    ∃ v, (portAccess a s).responses = { error := false, data := v } :: s.responses := by
  rcases portAccess_cases a s with he | ⟨v, he⟩ | ⟨-, t, ht, he⟩
  · have hfault := portAccess_admitted h
    rw [he, hf] at hfault
    cases hfault
  · exact ⟨v, by rw [he]; rfl⟩
  · exact ⟨0, by rw [he, answer_responses, (written_world ht).2]⟩

/-- A host without a fault makes its access; `refused` is any way to say that the engine does not admit it. -/
theorem hostAccess_next {s : State} {a : Access} {refused : Prop} (hf : s.hostFault = none)
    (hr : refused ↔ admitted s.config a = false) :
    ∃ t, hostAccess a s = .next t ∧
      (refused → t = { s with
        hostFault := some a
        responses := { error := true, data := 0 } :: s.responses }) ∧
      (¬ refused → t.hostFault = none ∧ ∃ v, t.responses = { error := false, data := v } :: s.responses) := by
  refine ⟨portAccess a s, hostAccess_noFault hf a, fun h => portAccess_refused (hr.mp h), fun h => ?_⟩
  have hadm : admitted s.config a = true := by rwa [hr, Bool.not_eq_false] at h
  exact ⟨(portAccess_admitted hadm).trans hf, portAccess_responses hf hadm⟩

/-- Settles O6: the ranges of R52 are those of the admission functions. -/
theorem refusedAccessChangesNothing : Obligations.RefusedAccessChangesNothing := by
  intro s a hf hc
  apply hostAccess_next hf
  cases a with
  | read8 x => exact (admit8_isSome_eq_false_iff _ x).symm
  | write8 x v => exact (admit8_isSome_eq_false_iff _ x).symm
  | read32 x => exact (admit32_isSome_eq_false_iff hc x).symm
  | write32 x v => exact (admit32_isSome_eq_false_iff hc x).symm
  | _ => exact iff_of_true trivial rfl

/-! ## Reserved locations -/

theorem writeByte_ignored {s : State} {off : Nat} (h : isInput s.config off = false) (b : Byte) :
    writeByte s off b = s := by
  simp [writeByte, h]

theorem readByte_reserved {s : State} {off : Nat} (hi : isInput s.config off = false)
    (ho : isOutput s.config off = false) : readByte s off = 0 := by
  simp [readByte, hi, ho]

theorem writeWord_ignored {s : State} {off : Nat} (ho : regEnd ≤ off)
    (h : ∀ k < 4, isInput s.config (off + k) = false) (v : Word32) : writeWord s off v = s := by
  have h0 : isInput s.config off = false := h 0 (by decide)
  rw [writeWord, if_neg (by omega), writeByte_ignored h0, writeByte_ignored (h 1 (by decide)),
    writeByte_ignored (h 2 (by decide)), writeByte_ignored (h 3 (by decide))]

theorem readWord_reserved {s : State} {off : Nat} (ho : regEnd ≤ off) (h : ∀ k < 4, readByte s (off + k) = 0) :
    readWord s off = 0 :=
  word_ext_lanes fun k hk => by rw [lane_readWord s ho hk, h k hk]; simp

/-- The reserved register offsets and CMD read 0. -/
theorem readReg_reserved (s : State) {off : Nat} (h : off = 0 ∨ 0x18 ≤ off) : readReg s off = 0 := by
  unfold readReg
  rw [if_neg (by omega), if_neg (by omega), if_neg (by omega), if_neg (by omega), if_neg (by omega)]

/-- STATUS, OUTLEN and the reserved register offsets ignore a write. -/
theorem writeReg_ignored (s : State) {off : Nat} (h : off = 0x04 ∨ 0x14 ≤ off) (v : Word32) : writeReg s off v = s := by
  unfold writeReg
  rw [if_neg (by omega), if_neg (by omega), if_neg (by omega), if_neg (by omega)]

/-- The ranges of spec/20_memory.md R53 outside the registers: between and past the buffers. -/
def Reserved (c : Config) (off : Nat) : Prop :=
  (0x240 ≤ off ∧ off ≤ 0xFFFF) ∨ (0x10000 + c.msgMax ≤ off ∧ off ≤ 0x1FFFF) ∨
    (0x20000 + c.msgMax + 64 ≤ off ∧ off ≤ 0x2FFFF) ∨ (0x30000 ≤ off ∧ off ≤ 0x3FFFF)

theorem regEnd_le_of_reserved {c : Config} {off : Nat} (h : Reserved c off) : regEnd ≤ off := by
  unfold Reserved at h
  unfold regEnd
  omega

theorem isInput_of_reserved {c : Config} (hc : c.WF) {off : Nat} (h : Reserved c off) : isInput c off = false := by
  obtain ⟨-, hmax, -⟩ := hc
  rw [← Bool.not_eq_true, isInput_iff]
  unfold Reserved at h
  omega

theorem isOutput_of_reserved {c : Config} (hc : c.WF) {off : Nat} (h : Reserved c off) : isOutput c off = false := by
  obtain ⟨-, hmax, -⟩ := hc
  rw [← Bool.not_eq_true, isOutput_iff]
  unfold Reserved at h
  omega

/-- The OUT window holds no byte that a host write reaches (10_state.md R34). -/
theorem isInput_of_outWindow {c : Config} (hc : c.WF) {off : Nat} (h : 0x20000 ≤ off) : isInput c off = false := by
  obtain ⟨-, hmax, -⟩ := hc
  rw [← Bool.not_eq_true, isInput_iff]
  omega

theorem forall_lt_four {p : Nat → Prop} (h0 : p 0) (h1 : p 1) (h2 : p 2) (h3 : p 3) : ∀ k < 4, p k := by
  intro k hk
  obtain rfl | rfl | rfl | rfl : k = 0 ∨ k = 1 ∨ k = 2 ∨ k = 3 := by omega
  all_goals assumption

/-- Settles O8: a register by its branch, a byte by its range, a word by its four bytes. -/
theorem reservedLocations : Obligations.ReservedLocations := by
  intro s hc reserved
  have hin : ∀ off, reserved off → isInput s.config off = false := fun off h => isInput_of_reserved hc h
  have hread : ∀ off, reserved off → readByte s off = 0 := fun off h =>
    readByte_reserved (hin off h) (isOutput_of_reserved hc h)
  have hreg : ∀ off ≤ 0xFF, off < regEnd := fun off h => by unfold regEnd; omega
  refine ⟨fun off v hlo hhi => ?_, fun off b h => ?_, fun off v h0 h1 h2 h3 => ?_, fun v => ?_, fun off b h _ => ?_,
    fun off v h _ => ?_, ?_⟩
  · rw [readWord_reg s (hreg off hhi), writeWord_reg s (hreg off hhi)]
    exact ⟨readReg_reserved s (.inr hlo), writeReg_ignored s (.inr (by omega)) v⟩
  · exact ⟨hread off h, writeByte_ignored (hin off h) b⟩
  · have ho : regEnd ≤ off := regEnd_le_of_reserved h0
    have h4 : ∀ k < 4, reserved (off + k) := forall_lt_four h0 h1 h2 h3
    exact ⟨readWord_reserved ho fun k hk => hread _ (h4 k hk), writeWord_ignored ho (fun k hk => hin _ (h4 k hk)) v⟩
  · rw [writeWord_reg s (hreg 0x04 (by decide)), writeWord_reg s (hreg 0x14 (by decide))]
    exact ⟨writeReg_ignored s (.inl rfl) v, writeReg_ignored s (.inr (by decide)) v⟩
  · exact writeByte_ignored (isInput_of_outWindow hc h) b
  · exact writeWord_ignored (by unfold regEnd; omega) (fun k _ => isInput_of_outWindow hc (by omega)) v
  · rw [readWord_reg s (hreg 0 (by decide)), readReg_reserved s (.inl rfl)]

/-! ## Byte lanes -/

/-- What each of the four bytes of a 32-bit write reads afterwards: its lane, if a write reaches it. -/
theorem readByte_writeWord_covered {s : State} {off k : Nat} (hm : memWf s.mem = true) (ho : regEnd ≤ off) (hk : k < 4)
    (v : Word32) : readByte (writeWord s off v) (off + k) =
      if isInput s.config (off + k) then v.extractLsb' (8 * k) 8 else readByte s (off + k) := by
  split
  · next hi => exact readByte_writeWord_lane hm ho hk hi v
  · next hi => exact readByte_writeWord_frame hm ho (.inl (Bool.eq_false_of_not_eq_true hi)) v

theorem readWord_outlen_idle {s : State} (hs : s.seq = .idle) : readWord s 0x14 = s.outlen := by
  rw [readWord_reg s (by decide)]
  simp [readReg, isBusy_of_idle hs]

/-- Settles O9: lane by lane both ways, and the registers by their branch. -/
theorem littleEndianLanes : Obligations.LittleEndianLanes := by
  refine ⟨fun s off ho k hk => lane_readWord s ho hk, fun s off v hm ho => ⟨fun k hk => ?_, fun x hx => ?_, fun hi => ?_⟩,
    fun s => ⟨rfl, rfl, rfl, rfl, readWord_outlen_idle⟩, fun s v => ⟨rfl, rfl, rfl⟩⟩
  · exact readByte_writeWord_covered hm ho hk v
  · exact readByte_writeWord_frame hm ho (.inr (by omega)) v
  · exact readWord_writeWord hm ho hi v

/-- Settles O10: lane `j` of the word read is the byte at `a + j`, and the write changes the byte at `a + k` only. -/
theorem byteWriteChangesItsLane : Obligations.ByteWriteChangesItsLane := by
  intro s a k b hm ha hk hi
  constructor
  · rw [lane_readWord _ ha hk, readByte_writeByte hm hi, if_pos rfl]
  · intro j hj hjk
    rw [lane_readWord _ ha hj, lane_readWord _ ha hj, readByte_writeByte hm hi, if_neg (by omega)]

/-! ## What an admitted access touches -/

theorem portAccess_read8 {s : State} {addr off : Nat} (h : admit8 s.config addr = some off) :
    portAccess (.read8 addr) s = s.answer { error := false, data := (readByte s off).setWidth 32 } := by
  simp only [portAccess, h, State.answerRead]

theorem portAccess_read32 {s : State} {addr off : Nat} (h : admit32 s.config addr = some off) :
    portAccess (.read32 addr) s = s.answer { error := false, data := readWord s off } := by
  simp only [portAccess, h, State.answerRead]

theorem portAccess_write8 {s : State} {addr off : Nat} (h : admit8 s.config addr = some off) (b : Byte) :
    portAccess (.write8 addr b) s = s.answerWrite (writeByte s off b) := by
  simp only [portAccess, h]

theorem portAccess_write32 {s : State} {addr off : Nat} (h : admit32 s.config addr = some off) (v : Word32) :
    portAccess (.write32 addr v) s = s.answerWrite (writeWord s off v) := by
  simp only [portAccess, h]

theorem answerWrite_idle {s : State} (h : s.seq = .idle) (w : State) :
    s.answerWrite w = w.answer { error := false, data := 0 } := by
  simp only [State.answerWrite, h]

theorem answerWrite_busy {s : State} {l : Latch} (h : s.seq = .busy l) (w : State) :
    s.answerWrite w = s.answer { error := false, data := 0 } := by
  simp only [State.answerWrite, h]

/-- What holds of the state before a write and of the written state, and survives an answer, holds after the port has
taken the write, in IDLE and in BUSY. -/
theorem answerWrite_of_both {P : State → Prop} {s w : State} (answer : ∀ t r, P t → P (t.answer r)) (hs : P s)
    (hw : P w) : P (s.answerWrite w) := by
  cases h : s.seq with
  | idle => rw [answerWrite_idle h]; exact answer w _ hw
  | busy l => rw [answerWrite_busy h]; exact answer s _ hs

/-- From `s` to `t` nothing but memory and the bus's answers changed, and memory at the locations `loc` only. -/
def TouchesOnly (loc : Nat → Prop) (s t : State) : Prop :=
  t = { s with mem := t.mem, responses := t.responses } ∧ ∀ x, ¬ loc x → memRead t.mem x = memRead s.mem x

theorem touchesOnly_refl (loc : Nat → Prop) (s : State) : TouchesOnly loc s s := ⟨rfl, fun _ _ => rfl⟩

theorem touchesOnly_answer {loc : Nat → Prop} {s t : State} (r : BusResponse) (h : TouchesOnly loc s t) :
    TouchesOnly loc s (t.answer r) :=
  ⟨by rw [h.1]; rfl, h.2⟩

theorem touchesOnly_writeByte {s : State} (hm : memWf s.mem = true) (off : Nat) (b : Byte) :
    TouchesOnly (· = off) s (writeByte s off b) :=
  ⟨by rw [writeByte_eq], fun _ hx => memRead_writeByte_ne hm b hx⟩

theorem touchesOnly_writeWord {s : State} (hm : memWf s.mem = true) {off : Nat} (ho : regEnd ≤ off) (v : Word32) :
    TouchesOnly (fun x => off ≤ x ∧ x < off + 4) s (writeWord s off v) :=
  ⟨by rw [writeWord_buffers s off v ho], fun _ hx => memRead_writeWord_ne hm v ho hx⟩

/-- From `s` to `t` memory, the sequencer, DONE, ERR and OUTLEN stay, and every length register but the one at `off`. -/
def TouchesOnlyLength (off : Nat) (s t : State) : Prop :=
  t.mem = s.mem ∧ t.seq = s.seq ∧ t.done = s.done ∧ t.err = s.err ∧ t.outlen = s.outlen ∧
    (off ≠ 0x08 → t.keylen = s.keylen) ∧ (off ≠ 0x0C → t.ivlen = s.ivlen) ∧ (off ≠ 0x10 → t.inlen = s.inlen)

theorem touchesOnlyLength_refl (off : Nat) (s : State) : TouchesOnlyLength off s s :=
  ⟨rfl, rfl, rfl, rfl, rfl, fun _ => rfl, fun _ => rfl, fun _ => rfl⟩

/-- Every register write but the one to CMD. -/
theorem touchesOnlyLength_writeReg (s : State) {off : Nat} (h0 : off ≠ 0) (v : Word32) :
    TouchesOnlyLength off s (writeReg s off v) := by
  unfold writeReg
  rw [if_neg h0]
  split
  · exact ⟨rfl, rfl, rfl, rfl, rfl, fun h => absurd ‹_› h, fun _ => rfl, fun _ => rfl⟩
  split
  · exact ⟨rfl, rfl, rfl, rfl, rfl, fun _ => rfl, fun h => absurd ‹_› h, fun _ => rfl⟩
  split
  · exact ⟨rfl, rfl, rfl, rfl, rfl, fun _ => rfl, fun _ => rfl, fun h => absurd ‹_› h⟩
  · exact touchesOnlyLength_refl off s

/-- Settles O11: each kind of access by its equation at the port, each write by the frame of what it writes. -/
theorem hostAccessTouchesItsLocationOnly : Obligations.HostAccessTouchesItsLocationOnly := by
  refine ⟨fun s addr off h => portAccess_read32 h, fun s addr off h => portAccess_read8 h, fun s addr off b hm h => ?_,
    fun s addr off v hm h ho => ?_, fun s addr off v h hlo hhi => ?_, fun s addr v h => ?_⟩
  · rw [portAccess_write8 h]
    exact answerWrite_of_both (fun _ r => touchesOnly_answer r) (touchesOnly_refl _ s) (touchesOnly_writeByte hm off b)
  · rw [portAccess_write32 h]
    exact answerWrite_of_both (fun _ r => touchesOnly_answer r) (touchesOnly_refl _ s) (touchesOnly_writeWord hm ho v)
  · rw [portAccess_write32 h, writeWord_reg s hhi]
    exact answerWrite_of_both (P := TouchesOnlyLength off s) (fun _ _ ht => ht) (touchesOnlyLength_refl off s)
      (touchesOnlyLength_writeReg s (by omega) v)
  · rw [portAccess_write32 h]
    exact ⟨fun hs => answerWrite_idle hs _, fun l hs => answerWrite_busy hs _⟩

/-! ## What leaves OUT and the inputs alone -/

/-- A byte that no host write reaches stays through a byte write. -/
theorem memRead_writeByte_notInput {s : State} (hm : memWf s.mem = true) {x : Nat} (hx : isInput s.config x = false)
    (off : Nat) (b : Byte) : memRead (writeByte s off b).mem x = memRead s.mem x := by
  by_cases h : x = off
  · subst h
    rw [writeByte_ignored hx]
  · exact memRead_writeByte_ne hm b h

/-- A byte that no host write reaches stays through a word write of the buffers. -/
theorem memRead_writeWord_notInput {s : State} (hm : memWf s.mem = true) {x : Nat} (hx : isInput s.config x = false)
    {off : Nat} (ho : regEnd ≤ off) (v : Word32) : memRead (writeWord s off v).mem x = memRead s.mem x := by
  have h1 := memWf_writeByte hm off (v.extractLsb' 0 8)
  have h2 := memWf_writeByte h1 (off + 1) (v.extractLsb' 8 8)
  have h3 := memWf_writeByte h2 (off + 2) (v.extractLsb' 16 8)
  rw [writeWord, if_neg (by omega), memRead_writeByte_notInput h3 (by simpa using hx),
    memRead_writeByte_notInput h2 (by simpa using hx), memRead_writeByte_notInput h1 (by simpa using hx),
    memRead_writeByte_notInput hm hx]

/-- OUTLEN and every byte of OUT's storage are the same in both states. -/
def SameOutput (s t : State) : Prop :=
  t.outlen = s.outlen ∧ ∀ k < s.config.msgMax + 64, outByte t k = outByte s k

theorem sameOutput_refl (s : State) : SameOutput s s := ⟨rfl, fun _ _ => rfl⟩

theorem sameOutput_answer {s t : State} (r : BusResponse) (h : SameOutput s t) : SameOutput s (t.answer r) := h

/-- No admitted write reaches OUT or OUTLEN (20_memory.md R53, R61). -/
theorem sameOutput_written {s t : State} (hi : s.Inv) (h : Written s t) : SameOutput s t := by
  obtain ⟨hc, hm, -⟩ := hi
  have hout : ∀ k, isInput s.config (outBase + k) = false := fun k => isInput_of_outWindow hc (by unfold outBase; omega)
  cases h with
  | byte off b =>
    exact ⟨by rw [writeByte_eq], fun k _ => memRead_writeByte_notInput hm (hout k) off b⟩
  | word off v ho =>
    exact ⟨by rw [writeWord_buffers s off v ho], fun k _ => memRead_writeWord_notInput hm (hout k) ho v⟩
  | _ => exact sameOutput_refl s

/-- An access of the host leaves a command's results where they are. -/
theorem sameOutput_portAccess {s : State} (hi : s.Inv) (a : Access) : SameOutput s (portAccess a s) := by
  rcases portAccess_cases a s with h | ⟨v, h⟩ | ⟨-, w, hw, h⟩ <;> rw [h]
  · exact sameOutput_refl s
  · exact sameOutput_refl s
  · exact sameOutput_answer _ (sameOutput_written hi hw)

theorem readByte_out_idle {s : State} (hc : s.config.WF) (hs : s.seq = .idle) {k : Nat}
    (hk : k < s.config.msgMax + 64) : readByte s (outBase + k) = outByte s k := by
  have ho : isOutput s.config (outBase + k) = true := by
    rw [isOutput_iff]
    unfold outBase
    omega
  simp [readByte, isInput_of_isOutput hc ho, ho, isBusy_of_idle hs, outByte]

/-- Settles O18: of the three events of a step, only a completion and RST write OUT or OUTLEN. -/
theorem outputStaysUntilTheNextCommand : Obligations.OutputStaysUntilTheNextCommand := by
  constructor
  · intro s t hi h
    rcases step_cases h with ⟨hturn, he⟩ | ⟨a, rest, -, -, rfl⟩ | ⟨rest, hin, -⟩
    · rcases engineStep_complete { s with inputs := s.inputs.tail } with ⟨-, hn⟩ | ⟨l, r, hb, hn, -⟩
      · cases hn.symm.trans he
        exact .inl (sameOutput_refl s)
      · cases hn.symm.trans he
        exact .inr (.inl ⟨⟨l, hb⟩, by rw [complete_eq], hturn⟩)
    · exact .inl (sameOutput_portAccess (inv_inputs rest hi) a)
    · exact .inr (.inr ⟨rest, hin⟩)
  · intro s hi hs
    obtain ⟨hc, -⟩ := hi
    exact ⟨readWord_outlen_idle hs, fun k hk => readByte_out_idle hc hs hk⟩

/-- A completion leaves every byte of KEY, IV and IN alone: its output fits OUT, which holds none of them. -/
theorem memRead_complete_input {s : State} (hi : s.Inv) {r : Except CmdError Bytes}
    (hfit : (outBytesOf r).length ≤ outSize s.config) {x : Nat} (hx : isInput s.config x = true) :
    memRead (s.complete r).mem x = memRead s.mem x := by
  obtain ⟨hc, hm, -⟩ := hi
  have hout : ¬ (outBase ≤ x ∧ x < outBase + outSize s.config) := by
    simpa [isOutput] using isOutput_of_isInput hc hx
  rw [complete_eq]
  exact memRead_writeOut_outside s.config hm hfit hout

/-- Settles O19: the engine's turn is nothing from IDLE and a completion from BUSY. -/
theorem engineNeverWritesInputs : Obligations.EngineNeverWritesInputs := by
  refine ⟨fun s t hi h => ?_, fun s v => ⟨rfl, rfl, rfl, rfl, rfl⟩⟩
  rcases engineStep_complete s with ⟨-, he⟩ | ⟨l, r, hb, he, hfit⟩ <;> cases he.symm.trans h
  · exact ⟨rfl, rfl, rfl, fun _ _ => rfl, fun _ => rfl⟩
  · refine ⟨?_, ?_, ?_, fun x hx => memRead_complete_input hi (hfit (sized_of_inv hi hb)) hx, fun hs => ?_⟩
    · rw [complete_eq]
    · rw [complete_eq]
    · rw [complete_eq]
    · rw [hs] at hb
      cases hb

end Sys2Proof.Machine
end

section
/-! PROOFS. The statements of spec/30_encoding.md: that decode undoes encode, the table's rows, the illegal classes, and
the fields that a command does not use. -/

namespace Sys2Proof.Machine

open Sys2Proof.Spec Sys2Proof.Laws

/-! ## Decode undoes encode -/

/-- PAD and WSEL come back by their code tables, the other fields by the packed word's rules. -/
theorem decode_encode {i : Instr} (h : i.WellFormed) : decode (encode i) = .ok i := by
  cases i with
  | aEncEcb p | aEncCbc p | aDecEcb p | aDecCbc p =>
    have hp : p.wf = true := h
    simp [encode, decode_packWord, decodeRow, padOfCode_code hp]
  | bEncEcb p w r | bEncCbc p w r | bDecEcb p w r | bDecCbc p w r =>
    obtain ⟨hp, hw⟩ : p.wf = true ∧ w.wf = true := Bool.and_eq_true_iff.mp h
    simp [encode, decode_packWord, decodeRow, padOfCode_code hp, wselOfCode_code hw]
  | bEncCfb w r | bEncOfb w r | bEncCtr w r | bDecCfb w r | bDecOfb w r | bDecCtr w r =>
    have hw : w.wf = true := h
    simp [encode, decode_packWord, decodeRow, wselOfCode_code hw]

/-- Settles O26: a command's bytes decode as its word does. -/
theorem decodeEncodeRoundTrip : Obligations.DecodeEncodeRoundTrip := by
  intro i h
  refine ⟨decode_encode h, fun rest => ?_⟩
  rw [decodeBytes_wordBytes, decode_encode h]

/-- Settles O27: each of the seven words is closed, so the decoder evaluates. -/
theorem tableWordsDecode : Obligations.TableWordsDecode := by
  unfold Obligations.TableWordsDecode
  decide

/-! ## Words that agree under a mask -/

/-- Words that agree under a mask agree in every field that the mask covers. -/
theorem extract_eq_of_masked_eq {k v w : Word32} (h : v &&& k = w &&& k) {lo n : Nat}
    (hk : k.extractLsb' lo n = BitVec.allOnes n) : v.extractLsb' lo n = w.extractLsb' lo n := by
  have hf := congrArg (BitVec.extractLsb' lo n) h
  simpa [BitVec.extractLsb'_and, hk] using hf

/-- Words that agree under a mask agree under every mask that it covers. -/
theorem masked_eq_of_masked_eq {k k' v w : Word32} (hk : k &&& k' = k') (h : v &&& k = w &&& k) :
    v &&& k' = w &&& k' := by
  rw [← hk, ← BitVec.and_assoc, ← BitVec.and_assoc, h]

/-- Words that agree under the table's mask agree in the five fields that it covers (spec/30_encoding.md R80). -/
theorem rowFields_eq_of_masked_eq {v w : Word32} (h : v &&& rowMask = w &&& rowMask) :
    fieldOp v = fieldOp w ∧ fieldCipher v = fieldCipher w ∧ fieldMode v = fieldMode w ∧ fieldRes0 v = fieldRes0 w ∧
      fieldRes1 v = fieldRes1 w :=
  ⟨extract_eq_of_masked_eq h (by decide), extract_eq_of_masked_eq h (by decide), extract_eq_of_masked_eq h (by decide),
    extract_eq_of_masked_eq h (by decide), extract_eq_of_masked_eq h (by decide)⟩

/-! ## The rows of the table -/

/-- A word is its fields, bit 31 first (spec/30_encoding.md R70). -/
theorem word_of_fields (w : Word32) :
    fieldRes1 w ++ fieldRounds w ++ fieldRes0 w ++ fieldWsel w ++ fieldPad w ++ fieldMode w ++ fieldCipher w ++
      fieldOp w = w := by
  unfold fieldRes1 fieldRounds fieldRes0 fieldWsel fieldPad fieldMode fieldCipher fieldOp
  simp only [BitVec.extractLsb'_append_extractLsb'_eq_extractLsb']
  simp

/-- A word matches the table's row of an operation, a cipher and a mode (spec/30_encoding.md R80). -/
def MatchesRow (w : Word32) (o : Op) (c : Cipher) (m : Mode) : Prop := w &&& rowMask = packWord o c m 0 0 0

theorem matchesRow_iff {w : Word32} {o : Op} {c : Cipher} {m : Mode} :
    MatchesRow w o c m ↔
      fieldOp w = o.code ∧ fieldCipher w = c.code ∧ fieldMode w = m.code ∧ fieldRes0 w = 0 ∧ fieldRes1 w = 0 := by
  constructor
  · intro h
    simpa using rowFields_eq_of_masked_eq (h.trans (packWord_masked o c m 0 0 0).symm)
  · rintro ⟨ho, hc, hm, h0, h1⟩
    have hw : w = packWord o c m (fieldPad w) (fieldWsel w) (fieldRounds w) := by
      conv_lhs => rw [← word_of_fields w, ho, hc, hm, h0, h1]
      rfl
    unfold MatchesRow
    rw [hw, packWord_masked]

theorem decode_of_matchesRow {w : Word32} {o : Op} {c : Cipher} {m : Mode} (h : MatchesRow w o c m) :
    decode w = decodeRow o c m w := by
  obtain ⟨ho, hc, hm, h0, h1⟩ := matchesRow_iff.mp h
  simp [decode, ho, hc, hm, h0, h1]

/-! ## The code tables on numbers -/

/-- A field of the word as a number (spec/00_scope.md R8) is its bits. -/
theorem field_eq_toNat_extract (w : Word32) (lo n : Nat) (hn : 0 < n) :
    field w (lo + n - 1) lo = (w.extractLsb' lo n).toNat := by
  rw [field, BitVec.extractLsb'_toNat, Nat.shiftRight_eq_div_pow, show lo + n - 1 + 1 - lo = n by omega]

theorem field_op (w : Word32) : field w 1 0 = (fieldOp w).toNat := field_eq_toNat_extract w 0 2 (by decide)
theorem field_cipher (w : Word32) : field w 2 2 = (fieldCipher w).toNat := field_eq_toNat_extract w 2 1 (by decide)
theorem field_mode (w : Word32) : field w 5 3 = (fieldMode w).toNat := field_eq_toNat_extract w 3 3 (by decide)
theorem field_pad (w : Word32) : field w 8 6 = (fieldPad w).toNat := field_eq_toNat_extract w 6 3 (by decide)
theorem field_wsel (w : Word32) : field w 11 9 = (fieldWsel w).toNat := field_eq_toNat_extract w 9 3 (by decide)
theorem field_res0 (w : Word32) : field w 15 12 = (fieldRes0 w).toNat := field_eq_toNat_extract w 12 4 (by decide)
theorem field_res1 (w : Word32) : field w 31 24 = (fieldRes1 w).toNat := field_eq_toNat_extract w 24 8 (by decide)

theorem opOfCode_eq_none {c : BitVec 2} : opOfCode c = none ↔ c.toNat = 0 ∨ c.toNat = 3 := by revert c; decide

theorem opOfCode_eq_some {c : BitVec 2} {o : Op} : opOfCode c = some o ↔ c = o.code := by
  cases o <;> revert c <;> decide

theorem modeOfCode_eq_none {c : BitVec 3} : modeOfCode c = none ↔ 5 ≤ c.toNat := by revert c; decide

theorem modeOfCode_eq_some {c : BitVec 3} {m : Mode} : modeOfCode c = some m ↔ c = m.code := by
  cases m <;> revert c <;> decide

theorem cipherOfCode_eq {c : BitVec 1} {k : Cipher} : cipherOfCode c = k ↔ c = k.code := by
  cases k <;> revert c <;> decide

theorem cipher_code_eq_zero {c : Cipher} : c.code.toNat = 0 ↔ c = .a := by cases c <;> decide

/-! ## The decoder's classes -/

/-- The first illegal class of spec/30_encoding.md R81. -/
def IllegalWord (w : Word32) : Prop :=
  field w 1 0 = 0 ∨ field w 1 0 = 3 ∨ field w 15 12 ≠ 0 ∨ field w 31 24 ≠ 0

/-- The second illegal class of spec/30_encoding.md R81. -/
def UnsupportedModeWord (w : Word32) : Prop := 5 ≤ field w 5 3 ∨ (field w 2 2 = 0 ∧ 2 ≤ field w 5 3)

theorem illegalWord_iff {w : Word32} :
    IllegalWord w ↔ opOfCode (fieldOp w) = none ∨ fieldRes0 w ≠ 0 ∨ fieldRes1 w ≠ 0 := by
  rw [IllegalWord, opOfCode_eq_none, field_op, field_res0, field_res1, or_assoc]
  simp only [ne_eq, BitVec.toNat_eq]
  rfl

theorem decode_illegal {w : Word32} (h : IllegalWord w) : decode w = .error .illegalCommand := by
  rw [illegalWord_iff] at h
  unfold decode
  split
  · rfl
  · next o ho => rw [if_pos (h.resolve_left (by simp [ho]))]

/-- A word outside the first class has an operation, and its MODE code decides the rest. -/
theorem decode_of_not_illegal {w : Word32} (h : ¬ IllegalWord w) :
    (5 ≤ field w 5 3 ∧ decode w = .error .unsupportedMode) ∨ ∃ o c m, MatchesRow w o c m := by
  rw [illegalWord_iff, not_or, not_or, not_not, not_not] at h
  obtain ⟨hop, h0, h1⟩ := h
  obtain ⟨o, ho⟩ := Option.ne_none_iff_exists'.mp hop
  cases hm : modeOfCode (fieldMode w) with
  | none => exact .inl ⟨by rwa [field_mode, ← modeOfCode_eq_none], by simp [decode, ho, h0, h1, hm]⟩
  | some m =>
    exact .inr ⟨o, _, m, matchesRow_iff.mpr
      ⟨opOfCode_eq_some.mp ho, cipherOfCode_eq.mp rfl, modeOfCode_eq_some.mp hm, h0, h1⟩⟩

/-- The second class on the codes of a row. -/
theorem unsupportedModeWord_iff {w : Word32} {o : Op} {c : Cipher} {m : Mode} (h : MatchesRow w o c m) :
    UnsupportedModeWord w ↔ c = .a ∧ 2 ≤ m.code.toNat := by
  obtain ⟨-, hc, hm, -⟩ := matchesRow_iff.mp h
  have hlt : m.code.toNat < 5 := by cases m <;> decide
  rw [UnsupportedModeWord, field_mode, field_cipher, hc, hm, cipher_code_eq_zero, or_iff_right (by omega)]

theorem decodeRow_unsupported {m : Mode} (hm : 2 ≤ m.code.toNat) (o : Op) (w : Word32) :
    decodeRow o .a m w = .error .unsupportedMode := by
  cases m with
  | ecb | cbc => exact absurd hm (by decide)
  | cfb | ofb | ctr => cases o <;> rfl

/-- Every other row has a command. -/
theorem decodeRow_supported {c : Cipher} {m : Mode} (h : ¬ (c = .a ∧ 2 ≤ m.code.toNat)) (o : Op) (w : Word32) :
    ∃ i, decodeRow o c m w = .ok i := by
  cases c with
  | a =>
    cases m with
    | ecb | cbc => cases o <;> exact ⟨_, rfl⟩
    | cfb | ofb | ctr => exact absurd ⟨rfl, by decide⟩ h
  | b => cases o <;> cases m <;> exact ⟨_, rfl⟩

theorem decode_unsupportedMode {w : Word32} (h1 : ¬ IllegalWord w) (h2 : UnsupportedModeWord w) :
    decode w = .error .unsupportedMode := by
  rcases decode_of_not_illegal h1 with ⟨-, he⟩ | ⟨o, c, m, hrow⟩
  · exact he
  · obtain ⟨rfl, hm⟩ := (unsupportedModeWord_iff hrow).mp h2
    rw [decode_of_matchesRow hrow, decodeRow_unsupported hm]

/-- A word of neither class is a command of its row. -/
theorem decode_legal {w : Word32} (h1 : ¬ IllegalWord w) (h2 : ¬ UnsupportedModeWord w) :
    ∃ o c m i, MatchesRow w o c m ∧ decodeRow o c m w = .ok i := by
  rcases decode_of_not_illegal h1 with ⟨h5, -⟩ | ⟨o, c, m, hrow⟩
  · exact absurd (.inl h5) h2
  · obtain ⟨i, hi⟩ := decodeRow_supported (mt (unsupportedModeWord_iff hrow).mpr h2) o w
    exact ⟨o, c, m, i, hrow, hi⟩

/-- A word that decodes matches the row that its command comes from. -/
theorem row_of_decode {w : Word32} {i : Instr} (h : decode w = .ok i) :
    ∃ o c m, MatchesRow w o c m ∧ decodeRow o c m w = .ok i := by
  have h1 : ¬ IllegalWord w := fun h1 => by cases (decode_illegal h1).symm.trans h
  rcases decode_of_not_illegal h1 with ⟨-, he⟩ | ⟨o, c, m, hrow⟩
  · cases he.symm.trans h
  · exact ⟨o, c, m, hrow, (decode_of_matchesRow hrow).symm.trans h⟩

/-! ## What a row decodes to -/

/-- A row's cipher with the operands that the word gives it (spec/30_encoding.md R78). -/
def cipherArgs (w : Word32) : Cipher → CipherArgs
  | .a => .a
  | .b => .b (wselOfCode (fieldWsel w)) (fieldRounds w)

/-- A row's mode with the operand that the word gives it (spec/30_encoding.md R74). -/
def modeArgs (w : Word32) : Mode → ModeArgs
  | .ecb => .block .ecb (padOfCode (fieldPad w))
  | .cbc => .block .cbc (padOfCode (fieldPad w))
  | .cfb => .stream .cfb
  | .ofb => .stream .ofb
  | .ctr => .stream .ctr

/-- What a row's decoder answers: the command of the row's match, with the operands that the word gives it. -/
theorem decodeRow_ok {o : Op} {c : Cipher} {m : Mode} {w : Word32} {i : Instr} (h : decodeRow o c m w = .ok i) :
    rowMatch i = packWord o c m 0 0 0 ∧
      requestOf i = { op := o, cipher := cipherArgs w c, mode := modeArgs w m } ∧ i.WellFormed := by
  revert h
  fun_cases decodeRow o c m w <;> intro h <;> cases h
  all_goals exact ⟨rfl, rfl, by simp [Instr.WellFormed, Instr.wf]⟩

/-! ## The opcode table -/

theorem masked_of_decode {w : Word32} {i : Instr} (h : decode w = .ok i) : w &&& rowMask = rowMatch i := by
  obtain ⟨o, c, m, hrow, hi⟩ := row_of_decode h
  exact hrow.trans (decodeRow_ok hi).1.symm

/-- A word matches a row exactly when it decodes to the row's command. -/
theorem matchesRow_iff_decode {o : Op} {c : Cipher} {m : Mode} {w : Word32} {i : Instr}
    (h : decodeRow o c m w = .ok i) : MatchesRow w o c m ↔ decode w = .ok i :=
  ⟨fun hrow => (decode_of_matchesRow hrow).trans h, fun hd => (masked_of_decode hd).trans (decodeRow_ok h).1⟩

/-- Settles O25: each row's match is the word of its codes, and its command is the decoder's. -/
theorem opcodeTable : Obligations.OpcodeTable := by
  intro w m p ws n
  have row : ∀ o c md {i}, decodeRow o c md w = .ok i → (m = packWord o c md 0 0 0 ↔ decode w = .ok i) :=
    fun _ _ _ _ h => matchesRow_iff_decode h
  refine ⟨row .enc .a .ecb rfl, row .enc .a .cbc rfl, row .dec .a .ecb rfl, row .dec .a .cbc rfl, row .enc .b .ecb rfl,
    row .enc .b .cbc rfl, row .enc .b .cfb rfl, row .enc .b .ofb rfl, row .enc .b .ctr rfl, row .dec .b .ecb rfl,
    row .dec .b .cbc rfl, row .dec .b .cfb rfl, row .dec .b .ofb rfl, row .dec .b .ctr rfl, fun i h => ?_⟩
  rw [show m = rowMatch i from masked_of_decode h]
  cases i <;> simp [rowMatch]

/-! ## Unsupported operands -/

theorem wordSizeOk_eq_false {f : WselField} (h : f.wf = true) (r : BitVec 8) :
    (CipherArgs.b f r).wordSizeOk = false ↔ 5 ≤ f.code.toNat := by
  cases f with
  | size z => cases z <;> simp [CipherArgs.wordSizeOk, WselField.code, WordSize.code]
  | unsupported c => exact iff_of_true rfl (of_decide_eq_true h)

theorem paddingOk_eq_false {p : PadField} (h : p.wf = true) (m : BlockMode) :
    (ModeArgs.block m p).paddingOk = false ↔ 5 ≤ p.code.toNat := by
  cases p with
  | scheme p => cases p <;> simp [ModeArgs.paddingOk, PadField.code, Padding.code]
  | unrecognized c => exact iff_of_true rfl (of_decide_eq_true h)

/-- The third illegal class of spec/30_encoding.md R81. -/
theorem cipherArgs_wordSizeOk {w : Word32} {o : Op} {c : Cipher} {m : Mode} (h : MatchesRow w o c m) :
    (cipherArgs w c).wordSizeOk = false ↔ field w 2 2 = 1 ∧ 5 ≤ field w 11 9 := by
  obtain ⟨-, hc, -⟩ := matchesRow_iff.mp h
  rw [field_cipher, field_wsel, hc]
  cases c with
  | a => simp [cipherArgs, CipherArgs.wordSizeOk, Cipher.code]
  | b => simp [cipherArgs, wordSizeOk_eq_false, Cipher.code]

/-- The fourth illegal class of spec/30_encoding.md R81. -/
theorem modeArgs_paddingOk {w : Word32} {o : Op} {c : Cipher} {m : Mode} (h : MatchesRow w o c m) :
    (modeArgs w m).paddingOk = false ↔ field w 5 3 ≤ 1 ∧ 5 ≤ field w 8 6 := by
  obtain ⟨-, -, hm, -⟩ := matchesRow_iff.mp h
  rw [field_mode, field_pad, hm]
  cases m with
  | ecb | cbc => simp [modeArgs, paddingOk_eq_false, Mode.code]
  | cfb | ofb | ctr => simp [modeArgs, ModeArgs.paddingOk, Mode.code]

/-! ## The engine's turn on a latch -/

/-- What the engine's turn completes a latch with, whatever its word (spec/45_commands.md R231, 30_encoding.md R81). -/
def latchResult (msgMax : Nat) (l : Latch) (draw : Nat → Byte) : Except CmdError Bytes :=
  match decode l.cmd with
  | .ok i => run (requestOf i) msgMax l draw
  | .error e => .error e

theorem engineStep_busy {s : State} {l : Latch} (h : s.seq = .busy l) :
    engineStep s = .next (s.complete (latchResult s.config.msgMax l (Config.entropy s.serial))) := by
  rcases engineStep_cases s with ⟨hs, -⟩ | ⟨l', hs, ⟨i, hd, -, he⟩ | ⟨e, hd, he⟩⟩ <;> cases h.symm.trans hs
  · simp only [he, latchResult, hd]
  · simp only [he, latchResult, hd, complete_error]

theorem latchResult_error {l : Latch} {e : CmdError} (h : decode l.cmd = .error e) (msgMax : Nat) (draw : Nat → Byte) :
    latchResult msgMax l draw = .error e := by
  simp only [latchResult, h]

/-- A command that fails `Validate` completes with its error. -/
theorem latchResult_invalid {l : Latch} {i : Instr} {e : CmdError} {msgMax : Nat} (h : decode l.cmd = .ok i)
    (hv : validate (requestOf i) msgMax l = some e) (draw : Nat → Byte) : latchResult msgMax l draw = .error e := by
  simp only [latchResult, h, run, hv]

theorem validate_wordSize {q : Request} (h : q.cipher.wordSizeOk = false) (msgMax : Nat) (l : Latch) :
    validate q msgMax l = some .unsupportedWordSize := by
  simp [validate, h]

theorem validate_padding {q : Request} (hw : q.cipher.wordSizeOk = true) (h : q.mode.paddingOk = false) (msgMax : Nat)
    (l : Latch) : validate q msgMax l = some .unsupportedPadding := by
  simp [validate, hw, h]

/-- A word of neither of the first two classes decodes to a well-formed command, whose operands decide the last two. -/
theorem decode_legal_operands {w : Word32} (h1 : ¬ IllegalWord w) (h2 : ¬ UnsupportedModeWord w) :
    ∃ i, decode w = .ok i ∧ i.WellFormed ∧
      ((requestOf i).cipher.wordSizeOk = false ↔ field w 2 2 = 1 ∧ 5 ≤ field w 11 9) ∧
      ((requestOf i).mode.paddingOk = false ↔ field w 5 3 ≤ 1 ∧ 5 ≤ field w 8 6) := by
  obtain ⟨o, c, m, i, hrow, hi⟩ := decode_legal h1 h2
  obtain ⟨-, hreq, hwf⟩ := decodeRow_ok hi
  refine ⟨i, (decode_of_matchesRow hrow).trans hi, hwf, ?_⟩
  rw [hreq]
  exact ⟨cipherArgs_wordSizeOk hrow, modeArgs_paddingOk hrow⟩

/-- The third and the fourth class are the first two tests of `Validate` (spec/60_exceptions.md R271). -/
theorem latchResult_operands {l : Latch} (h1 : ¬ IllegalWord l.cmd) (h2 : ¬ UnsupportedModeWord l.cmd) (msgMax : Nat)
    (draw : Nat → Byte) :
    (field l.cmd 2 2 = 1 ∧ 5 ≤ field l.cmd 11 9 → latchResult msgMax l draw = .error .unsupportedWordSize) ∧
    (¬ (field l.cmd 2 2 = 1 ∧ 5 ≤ field l.cmd 11 9) → field l.cmd 5 3 ≤ 1 ∧ 5 ≤ field l.cmd 8 6 →
      latchResult msgMax l draw = .error .unsupportedPadding) := by
  obtain ⟨i, hd, -, hw, hp⟩ := decode_legal_operands h1 h2
  rw [← hw, ← hp, Bool.not_eq_false]
  exact ⟨fun h3 => latchResult_invalid hd (validate_wordSize h3 msgMax l) draw,
    fun h3 h4 => latchResult_invalid hd (validate_padding h3 h4 msgMax l) draw⟩

/-- Settles O24: the write is the acceptance, the engine's turn a completion, and each class an answer of the decoder or
one of the first two tests of `Validate`. -/
theorem illegalClasses : Obligations.IllegalClasses := by
  intro s addr v hs hf ha c1 c2 c3 c4
  let l := latchOf s v
  have illegal : c1 → decode l.cmd = .error .illegalCommand := decode_illegal
  have badMode : ¬ c1 → c2 → decode l.cmd = .error .unsupportedMode := decode_unsupportedMode
  have operands := fun (h1 : ¬ c1) (h2 : ¬ c2) =>
    latchResult_operands (l := l) h1 h2 s.config.msgMax (Config.entropy s.serial)
  refine ⟨_, _, hostAccess_write32_idle hs hf ha v, rfl, engineStep_busy (l := l) rfl, ?_⟩
  simp only [complete_eq, true_and]
  refine ⟨fun h1 => ⟨congrArg errOf (latchResult_error (illegal h1) _ _), illegal h1⟩,
    fun h1 h2 => ⟨congrArg errOf (latchResult_error (badMode h1 h2) _ _), badMode h1 h2⟩,
    fun h1 h2 h3 => congrArg errOf ((operands h1 h2).1 h3),
    fun h1 h2 h3 h4 => congrArg errOf ((operands h1 h2).2 h3 h4), fun h1 h2 => ?_⟩
  obtain ⟨i, hd, hwf, -⟩ := decode_legal_operands h1 h2
  exact ⟨i, hd, hwf⟩

/-! ## Fields that a command does not use -/

/-- Two latches with one result give one engine's turn. -/
theorem engineStep_congr {l l' : Latch}
    (h : ∀ msgMax draw, latchResult msgMax l draw = latchResult msgMax l' draw) (s : State) :
    engineStep { s with seq := .busy l } = engineStep { s with seq := .busy l' } := by
  rw [engineStep_busy rfl, engineStep_busy rfl, h, complete_eq, complete_eq]

/-- Once decoded, the word is not read again. -/
theorem latchResult_of_decode_eq {l : Latch} {v : Word32} (h : decode v = decode l.cmd) (msgMax : Nat)
    (draw : Nat → Byte) : latchResult msgMax { l with cmd := v } draw = latchResult msgMax l draw := by
  unfold latchResult
  rw [h]
  rfl

/-- Words that agree under the table's mask decode alike when the operands of their row do. -/
theorem decode_eq_of_masked_eq {v w : Word32} (h : v &&& rowMask = w &&& rowMask)
    (hrow : ∀ o m, modeOfCode (fieldMode w) = some m →
      decodeRow o (cipherOfCode (fieldCipher w)) m v = decodeRow o (cipherOfCode (fieldCipher w)) m w) :
    decode v = decode w := by
  obtain ⟨ho, hc, hm, h0, h1⟩ := rowFields_eq_of_masked_eq h
  unfold decode
  rw [ho, hc, hm, h0, h1]
  split
  · rfl
  split
  · rfl
  split
  · rfl
  · exact hrow _ _ ‹_›

/-- Cipher A reads PAD alone (spec/30_encoding.md R79). -/
theorem decodeRow_a_congr {v w : Word32} (hp : fieldPad v = fieldPad w) (o : Op) (m : Mode) :
    decodeRow o .a m v = decodeRow o .a m w := by
  cases o <;> cases m <;> simp only [decodeRow, hp]

/-- The stream modes read WSEL and ROUNDS alone (spec/30_encoding.md R79). -/
theorem decodeRow_stream_congr {v w : Word32} (hw : fieldWsel v = fieldWsel w) (hr : fieldRounds v = fieldRounds w)
    {m : Mode} (hm : 2 ≤ m.code.toNat) (o : Op) (c : Cipher) : decodeRow o c m v = decodeRow o c m w := by
  cases m with
  | ecb | cbc => exact absurd hm (by decide)
  | cfb | ofb | ctr => cases c <;> cases o <;> simp only [decodeRow, hw, hr]

theorem decode_ignores_wsel_rounds {v w : Word32} (ha : field w 2 2 = 0)
    (h : v &&& 0xFF00F1FF = w &&& 0xFF00F1FF) : decode v = decode w := by
  have hc : cipherOfCode (fieldCipher w) = .a := by
    rw [field_cipher] at ha
    exact cipherOfCode_eq.mpr (BitVec.eq_of_toNat_eq ha)
  refine decode_eq_of_masked_eq (masked_eq_of_masked_eq (by decide) h) fun o m _ => ?_
  rw [hc]
  exact decodeRow_a_congr (extract_eq_of_masked_eq h (by decide)) o m

theorem decode_ignores_pad {v w : Word32} (hm : 2 ≤ field w 5 3) (h : v &&& 0xFFFFFE3F = w &&& 0xFFFFFE3F) :
    decode v = decode w := by
  refine decode_eq_of_masked_eq (masked_eq_of_masked_eq (by decide) h) fun o m hmode => ?_
  rw [field_mode, modeOfCode_eq_some.mp hmode] at hm
  exact decodeRow_stream_congr (extract_eq_of_masked_eq h (by decide)) (extract_eq_of_masked_eq h (by decide)) hm o _

/-- ECB does not read the IV (spec/30_encoding.md R79). -/
theorem run_ecb_iv {q : Request} {p : PadField} (hq : q.mode = .block .ecb p) (msgMax : Nat) (l : Latch) (iv : Bytes)
    (ivlen : Word32) (draw : Nat → Byte) :
    run q msgMax { l with iv := iv, ivlen := ivlen } draw = run q msgMax l draw := by
  obtain ⟨op, c, m⟩ := q
  subst hq
  cases p <;> cases op <;> rfl

/-- A command of an ECB word is in ECB. -/
theorem requestOf_mode_of_ecb {w : Word32} {i : Instr} (h : decode w = .ok i) (hm : field w 5 3 = 0) :
    (requestOf i).mode = .block .ecb (padOfCode (fieldPad w)) := by
  obtain ⟨o, c, m, hrow, hi⟩ := row_of_decode h
  obtain ⟨-, -, hcode, -⟩ := matchesRow_iff.mp hrow
  rw [field_mode, hcode] at hm
  obtain rfl : m = .ecb := by revert hm; cases m <;> decide
  obtain ⟨-, hreq, -⟩ := decodeRow_ok hi
  rw [hreq]
  rfl

/-- Settles O28: the first two differences end at the decoder, the third at ECB, which takes no IV. -/
theorem ignoredFields : Obligations.IgnoredFields := by
  refine ⟨fun s l v ha h => ?_, fun s l v hm h => ?_, fun s l iv ivlen hm => ?_⟩
  · exact engineStep_congr (latchResult_of_decode_eq (decode_ignores_wsel_rounds ha h)) s
  · exact engineStep_congr (latchResult_of_decode_eq (decode_ignores_pad hm h)) s
  · refine engineStep_congr (fun msgMax draw => ?_) s
    unfold latchResult
    cases hd : decode l.cmd with
    | error e => rfl
    | ok i => exact run_ecb_iv (requestOf_mode_of_ecb hd hm) msgMax l iv ivlen draw

end Sys2Proof.Machine
end

section
/-! PROOFS. The statements of spec/40_word_arith.md, and the block transforms of Cipher B (spec/42_cipher_b.md R151, R158,
R159), which rest on them. -/

namespace Sys2Proof.Machine

open Sys2Proof.Spec

/-! ## Word sizes -/

theorem two_pow_of_mem_wordSizes {w : Nat} (h : w ∈ wordSizes) : ∃ k, w = 2 ^ k := by
  simp only [wordSizes, List.mem_cons, List.not_mem_nil, or_false] at h
  rcases h with rfl | rfl | rfl | rfl | rfl
  exacts [⟨3, rfl⟩, ⟨4, rfl⟩, ⟨5, rfl⟩, ⟨6, rfl⟩, ⟨7, rfl⟩]

theorem wholeBytes_of_mem_wordSizes {w : Nat} (h : w ∈ wordSizes) : w % 8 = 0 := by
  revert w
  decide

theorem one_lt_of_mem_wordSizes {w : Nat} (h : w ∈ wordSizes) : 1 < w := by
  revert w
  decide

/-! ## Rotations -/

theorem lg_two_pow (k : Nat) : lg (2 ^ k) = k := Nat.log2_two_pow

/-- The mask of `lg w` bits is the remainder, so the second reduction of R102 changes nothing. -/
theorem ramt_two_pow (n k : Nat) : ramt n (2 ^ k) = n % 2 ^ k := by
  rw [ramt, lg_two_pow, mask, Nat.and_two_pow_sub_one_eq_mod, Nat.mod_mod]

theorem ramt_eq_mod {w : Nat} (h : w ∈ wordSizes) (n : Nat) : ramt n w = n % w := by
  obtain ⟨k, rfl⟩ := two_pow_of_mem_wordSizes h
  exact ramt_two_pow n k

theorem getLsbD_rotl {w : Nat} (h : w ∈ wordSizes) (x : BitVec w) (n : Nat) {i : Nat} (hi : i < w) :
    (rotl x n).getLsbD i = x.getLsbD ((i + w - n % w) % w) := by
  rw [rotl, getLsbD_rotlBy x (ramt_lt n (by omega)) hi, ramt_eq_mod h]

theorem getLsbD_rotr {w : Nat} (h : w ∈ wordSizes) (x : BitVec w) (n : Nat) {i : Nat} (hi : i < w) :
    (rotr x n).getLsbD i = x.getLsbD ((i + n % w) % w) := by
  rw [rotr, getLsbD_rotrBy x (ramt_lt n (by omega)) hi, ramt_eq_mod h]

theorem getLsbD_rotlK {W : Nat} (x : BitVec W) (n : Nat) {i : Nat} (hi : i < W) :
    (rotlK x n).getLsbD i = x.getLsbD ((i + W - n % W) % W) :=
  getLsbD_rotlBy x (Nat.mod_lt n (by omega)) hi

theorem rotl_pred_eq_rotr_one {w : Nat} (h : w ∈ wordSizes) (x : BitVec w) : rotl x (w - 1) = rotr x 1 := by
  have hw := one_lt_of_mem_wordSizes h
  apply BitVec.eq_of_getLsbD_eq
  intro i hi
  rw [getLsbD_rotl h x _ hi, getLsbD_rotr h x _ hi, Nat.mod_eq_of_lt (show w - 1 < w by omega), Nat.mod_eq_of_lt hw,
    show i + w - (w - 1) = i + 1 by omega]

theorem rotr_rotl {w : Nat} (x : BitVec w) (n : Nat) : rotr (rotl x n) n = x := by
  obtain rfl | hw := Nat.eq_zero_or_pos w
  · exact Subsingleton.elim _ _
  · exact rotrBy_rotlBy x (ramt_lt n hw)

theorem rotl_rotr {w : Nat} (x : BitVec w) (n : Nat) : rotl (rotr x n) n = x := by
  obtain rfl | hw := Nat.eq_zero_or_pos w
  · exact Subsingleton.elim _ _
  · exact rotlBy_rotrBy x (ramt_lt n hw)

/-- Settles O40: a word size is a power of two, so the amount is a remainder, and the bits are those of the rotation by a
number of places. -/
theorem rotations : Obligations.Rotations := by
  refine ⟨fun w hw => ramt_eq_mod hw, fun w hw x n => ?_, fun w x n => ⟨rotr_rotl x n, rotl_rotr x n⟩,
    fun W _ x n i hi => getLsbD_rotlK x n hi⟩
  refine ⟨fun h => if_neg h, fun h => if_neg h, fun h => ⟨if_pos h, if_pos h⟩, fun i hi => getLsbD_rotl hw x n hi,
    fun i hi => getLsbD_rotr hw x n hi, rotl_pred_eq_rotr_one hw x⟩

/-! ## Byte order -/

theorem bytesToWordLE_eq_sum (s : Bytes) :
    bytesToWordLE s = ∑ i ∈ Finset.range s.length, (s.getD i 0).toNat * 2 ^ (8 * i) := by
  induction s with
  | nil => rfl
  | cons b s ih =>
    have hshift : ∀ i, ((b :: s).getD (i + 1) 0).toNat * 2 ^ (8 * (i + 1)) = 256 * ((s.getD i 0).toNat * 2 ^ (8 * i)) := by
      intro i
      rw [List.getD_cons_succ, Nat.mul_succ, Nat.pow_add]
      ring
    rw [List.length_cons, Finset.sum_range_succ', Finset.sum_congr rfl fun i _ => hshift i, ← Finset.mul_sum, ← ih,
      bytesToWordLE]
    simp [Nat.add_comm]

/-- Big-endian is little-endian of the reverse, and the sum over the reverse is the sum read downwards. -/
theorem bytesToWordBE_eq_sum (s : Bytes) :
    bytesToWordBE s = ∑ i ∈ Finset.range s.length, (s.getD i 0).toNat * 2 ^ (8 * (s.length - 1 - i)) := by
  rw [bytesToWordBE_eq, bytesToWordLE_eq_sum, List.length_reverse, ← Finset.sum_range_reflect]
  refine Finset.sum_congr rfl fun i hi => ?_
  have hi' := Finset.mem_range.mp hi
  rw [List.getD_reverse _ (by omega), show s.length - 1 - (s.length - 1 - i) = i by omega]

theorem wordToBytesLE_getD (x : Nat) {n i : Nat} (hi : i < n) :
    (wordToBytesLE x n).getD i 0 = BitVec.ofNat 8 (x >>> (8 * i)) := by
  simp [wordToBytesLE, hi]

theorem wordToBytesBE_getD (x : Nat) {n i : Nat} (hi : i < n) :
    (wordToBytesBE x n).getD i 0 = BitVec.ofNat 8 (x >>> (8 * (n - 1 - i))) := by
  simp [wordToBytesBE, hi]

theorem toNat_lowByte_shiftRight (x k : Nat) : (BitVec.ofNat 8 (x >>> k)).toNat = x / 2 ^ k % 256 := by
  rw [BitVec.toNat_ofNat, Nat.shiftRight_eq_div_pow]

/-- Settles O41: the sums, the bytes and the inverses are each a law of one conversion. -/
theorem byteOrderConversions : Obligations.ByteOrderConversions := by
  refine ⟨fun s => ⟨bytesToWordBE_eq_sum s, bytesToWordLE_eq_sum s⟩, fun x n hx => ?_,
    fun s => ⟨wordToBytesBE_bytesToWordBE s, wordToBytesLE_bytesToWordLE s⟩⟩
  refine ⟨wordToBytesBE_length x n, wordToBytesLE_length x n, fun i hi => ⟨?_, ?_⟩, bytesToWordBE_wordToBytesBE n x hx,
    bytesToWordLE_wordToBytesLE n x hx⟩
  · rw [wordToBytesBE_getD x hi, toNat_lowByte_shiftRight]
  · rw [wordToBytesLE_getD x hi, toNat_lowByte_shiftRight]

/-! ## The registers of a block -/

/-- Byte `j` of a word's little-endian bytes is the word's bits from `8j` on. -/
theorem wordToBytesLE_toNat_getD {w : Nat} (x : BitVec w) {n j : Nat} (hj : j < n) :
    (wordToBytesLE x.toNat n).getD j 0 = x.extractLsb' (8 * j) 8 :=
  wordToBytesLE_getD x.toNat hj

theorem getD_append_add {s : Bytes} {u : Nat} (hs : s.length = u) (t : Bytes) (j : Nat) :
    (s ++ t).getD (u + j) 0 = t.getD j 0 := by
  subst hs
  rw [List.getD_append_right _ _ _ _ (by omega), Nat.add_sub_cancel_left]

/-- The bytes of a stored block are the four registers', little-endian (spec/42_cipher_b.md R151). -/
theorem storeB_getD {w : Nat} (x : RegsB w) {j : Nat} (hj : j < w / 8) :
    (storeB x).getD j 0 = x.a.extractLsb' (8 * j) 8 ∧
    (storeB x).getD (w / 8 + j) 0 = x.b.extractLsb' (8 * j) 8 ∧
    (storeB x).getD (2 * (w / 8) + j) 0 = x.c.extractLsb' (8 * j) 8 ∧
    (storeB x).getD (3 * (w / 8) + j) 0 = x.d.extractLsb' (8 * j) 8 := by
  have hlen (y : BitVec w) : (wordToBytesLE y.toNat (w / 8)).length = w / 8 := wordToBytesLE_length _ _
  have hbyte (y : BitVec w) (t : Bytes) : (wordToBytesLE y.toNat (w / 8) ++ t).getD j 0 = y.extractLsb' (8 * j) 8 := by
    rw [List.getD_append _ _ _ _ (by rwa [hlen]), wordToBytesLE_toNat_getD y hj]
  have hstore : storeB x = wordToBytesLE x.a.toNat (w / 8) ++ (wordToBytesLE x.b.toNat (w / 8) ++
      (wordToBytesLE x.c.toNat (w / 8) ++ wordToBytesLE x.d.toNat (w / 8))) := by
    simp only [storeB, List.append_assoc]
  rw [hstore, show 2 * (w / 8) + j = w / 8 + (w / 8 + j) by omega,
    show 3 * (w / 8) + j = w / 8 + (w / 8 + (w / 8 + j)) by omega]
  simp only [getD_append_add (hlen _)]
  exact ⟨hbyte _ _, hbyte _ _, hbyte _ _, wordToBytesLE_toNat_getD x.d hj⟩

/-- The bytes of the four loaded registers are the block's: storing them gives the block back. -/
theorem loadB_bytes {w : Nat} (hw : w % 8 = 0) {block : Bytes} (hb : block.length = 4 * (w / 8)) {j : Nat}
    (hj : j < w / 8) :
    (loadB w block).a.extractLsb' (8 * j) 8 = block.getD j 0 ∧
    (loadB w block).b.extractLsb' (8 * j) 8 = block.getD (w / 8 + j) 0 ∧
    (loadB w block).c.extractLsb' (8 * j) 8 = block.getD (2 * (w / 8) + j) 0 ∧
    (loadB w block).d.extractLsb' (8 * j) 8 = block.getD (3 * (w / 8) + j) 0 := by
  obtain ⟨ha, hb', hc, hd⟩ := storeB_getD (loadB w block) hj
  rw [storeB_loadB hw hb] at ha hb' hc hd
  exact ⟨ha.symm, hb'.symm, hc.symm, hd.symm⟩

/-! ## The rounds of EB and DB -/

@[simp] theorem roundIndices_length (r : Nat) : (roundIndices r).length = r := by simp [roundIndices]

theorem roundIndices_succ (r : Nat) : roundIndices (r + 1) = roundIndices r ++ [r + 1] := by
  simp [roundIndices, List.range_succ]

theorem drop_roundIndices {r k : Nat} (hk : k < r) :
    (roundIndices r).drop k = (k + 1) :: (roundIndices r).drop (k + 1) := by
  rw [List.drop_eq_getElem_cons (by simpa using hk)]
  simp [roundIndices]

/-- The registers of EB after the pre-whitening and the rounds `1` to `i` (spec/42_cipher_b.md R158). -/
def encTrace {w : Nat} (s : List (BitVec w)) (x : RegsB w) (i : Nat) : RegsB w :=
  (roundIndices i).foldl (roundB s) { x with b := x.b + s.getD 0 0, d := x.d + s.getD 1 0 }

/-- The registers of DB after its first subtractions and the rounds `r` down to `i + 1` (spec/42_cipher_b.md R159). -/
def decTrace {w : Nat} (r : Nat) (s : List (BitVec w)) (y : RegsB w) (i : Nat) : RegsB w :=
  ((roundIndices r).drop i).reverse.foldl (roundBInv s)
    { y with a := y.a - s.getD (2 * r + 2) 0, c := y.c - s.getD (2 * r + 3) 0 }

theorem encTrace_zero {w : Nat} (s : List (BitVec w)) (x : RegsB w) :
    encTrace s x 0 = { x with b := x.b + s.getD 0 0, d := x.d + s.getD 1 0 } := rfl

theorem encTrace_succ {w : Nat} (s : List (BitVec w)) (x : RegsB w) (k : Nat) :
    encTrace s x (k + 1) = roundB s (encTrace s x k) (k + 1) := by
  simp only [encTrace, roundIndices_succ, List.foldl_append, List.foldl_cons, List.foldl_nil]

theorem decTrace_last {w : Nat} (r : Nat) (s : List (BitVec w)) (y : RegsB w) :
    decTrace r s y r = { y with a := y.a - s.getD (2 * r + 2) 0, c := y.c - s.getD (2 * r + 3) 0 } := by
  rw [decTrace, List.drop_of_length_le (by simp)]
  rfl

theorem decTrace_pred {w r k : Nat} (hk : k < r) (s : List (BitVec w)) (y : RegsB w) :
    decTrace r s y k = roundBInv s (decTrace r s y (k + 1)) (k + 1) := by
  simp only [decTrace, drop_roundIndices hk, List.reverse_cons, List.foldl_append, List.foldl_cons, List.foldl_nil]

theorem encB_eq_encTrace {w : Nat} (r : Nat) (s : List (BitVec w)) (block : Bytes) :
    let y := encTrace s (loadB w block) r
    encB r s block = storeB { y with a := y.a + s.getD (2 * r + 2) 0, c := y.c + s.getD (2 * r + 3) 0 } := rfl

theorem decB_eq_decTrace {w : Nat} (r : Nat) (s : List (BitVec w)) (block : Bytes) :
    let x := decTrace r s (loadB w block) 0
    decB r s block = storeB { x with b := x.b - s.getD 0 0, d := x.d - s.getD 1 0 } := rfl

/-- Settles O50: a store gives its registers' bytes, and so does a load; the registers of EB and DB are those of the two
traces, whose steps are the rounds. -/
theorem cipherBRounds : Obligations.CipherBRounds := by
  refine ⟨⟨lg_two_pow 3, lg_two_pow 4, lg_two_pow 5, lg_two_pow 6, lg_two_pow 7,
      fun w h => ⟨Nat.log2_self_le (by omega), Nat.lt_log2_self⟩⟩,
    fun w hw block hb => ?_, fun w _ x => ⟨storeB_length x, fun j hj => storeB_getD x hj⟩,
    fun w _ r S block _ _ _ => ⟨?_, ?_⟩⟩
  · have hbytes := wholeBytes_of_mem_wordSizes hw
    exact ⟨fun j hj => loadB_bytes hbytes hb hj, storeB_loadB hbytes hb⟩
  · let X := encTrace S (loadB w block)
    refine ⟨fun i => (X i).a, fun i => (X i).b, fun i => (X i).c, fun i => (X i).d, rfl, rfl, rfl, rfl, fun i h1 _ => ?_,
      encB_eq_encTrace r S block⟩
    obtain ⟨k, rfl⟩ := Nat.exists_eq_add_of_le' h1
    have hstep : X (k + 1) = roundB S (X k) (k + 1) := encTrace_succ S (loadB w block) k
    simp only [Nat.add_sub_cancel, hstep]
    exact ⟨rfl, rfl, rfl, rfl⟩
  · let X := decTrace r S (loadB w block)
    have hlast := decTrace_last r S (loadB w block)
    refine ⟨fun i => (X i).a, fun i => (X i).b, fun i => (X i).c, fun i => (X i).d, (congrArg RegsB.a hlast :),
      (congrArg RegsB.b hlast :), (congrArg RegsB.c hlast :), (congrArg RegsB.d hlast :), fun i h1 hr => ?_,
      decB_eq_decTrace r S block⟩
    obtain ⟨k, rfl⟩ := Nat.exists_eq_add_of_le' h1
    have hstep : X k = roundBInv S (X (k + 1)) (k + 1) := decTrace_pred hr S (loadB w block)
    simp only [Nat.add_sub_cancel, hstep]
    exact ⟨rfl, rfl, rfl, rfl⟩

end Sys2Proof.Machine
end

section
/-! PROOFS. The statements of spec/41_cipher_a.md: the substitution and permutation layers, the key register updates and
round keys, and the block transforms EA and DA. -/

namespace Sys2Proof.Machine

/-! ## The layers -/

theorem nibble_sLayer (s : BitVec 64) {i : Nat} (hi : i < 16) : nibble (sLayer s) i = sboxA (nibble s i) :=
  nibble_onNibbles sboxA s hi

theorem nibble_sLayerInv (s : BitVec 64) {i : Nat} (hi : i < 16) : nibble (sLayerInv s) i = sboxAInv (nibble s i) :=
  nibble_onNibbles sboxAInv s hi

theorem sLayerInv_sLayer (s : BitVec 64) : sLayerInv (sLayer s) = s := onNibbles_inverse sboxAInv_sboxA s

theorem sLayer_sLayerInv (s : BitVec 64) : sLayer (sLayerInv s) = s := onNibbles_inverse sboxA_sboxAInv s

/-- Settles O42: a layer acts nibble by nibble, and the two boxes undo each other. -/
theorem substitutionLayer : Obligations.SubstitutionLayer := by
  refine ⟨fun x => ⟨sboxAInv_sboxA x, sboxA_sboxAInv x⟩, fun s i hi => ⟨nibble_sLayer s hi, nibble_sLayerInv s hi⟩,
    fun s => ⟨sLayerInv_sLayer s, sLayer_sLayerInv s⟩, ?_, ?_⟩
  · decide
  · decide

theorem permA_of_lt {i : Nat} (h : i < 63) : permA i = 16 * i % 63 := if_neg h.ne

theorem permAInv_of_lt {j : Nat} (h : j < 63) : permAInv j = 4 * j % 63 := if_neg h.ne

/-- Bit `Pinv(j)` of the state permuted back is bit `j` (R125). -/
theorem getLsbD_pLayerInv_permAInv (s : BitVec 64) {j : Nat} (hj : j < 64) :
    (pLayerInv s).getLsbD (permAInv j) = s.getLsbD j := by
  rw [getLsbD_pLayerInv s (permAInv_lt hj), permA_permAInv hj]

/-- Settles O43: the moved bits are at `P(i)` and `Pinv(j)`, which are the rule's remainders below 63 and 63 at 63. -/
theorem permutationLayer : Obligations.PermutationLayer := by
  refine ⟨fun s i hi => ?_, fun s => getLsbD_pLayer s (i := 63) (by omega), fun s j hj => ?_,
    fun s => getLsbD_pLayerInv_permAInv s (j := 63) (by omega), fun s => ⟨pLayerInv_pLayer s, pLayer_pLayerInv s⟩⟩
  · rw [← permA_of_lt hi, getLsbD_pLayer s (by omega)]
  · rw [← permAInv_of_lt hj, getLsbD_pLayerInv_permAInv s (by omega)]

/-! ## The key register updates -/

/-- A word placed at bit `p` and xored in changes no field that it does not meet. -/
theorem extractLsb'_xor_placed_disjoint {W v : Nat} (x : BitVec W) (c : BitVec v) {p lo n : Nat}
    (h : lo + n ≤ p ∨ p + v ≤ lo) : (x ^^^ (c.setWidth W <<< p)).extractLsb' lo n = x.extractLsb' lo n := by
  have hzero : (c.setWidth W <<< p).extractLsb' lo n = 0#n := by
    apply BitVec.eq_of_getLsbD_eq
    intro i hi
    rw [BitVec.getLsbD_extractLsb', BitVec.getLsbD_shiftLeft, BitVec.getLsbD_setWidth, BitVec.getLsbD_zero]
    obtain hbelow | habove := h
    · simp [show lo + i < p by omega]
    · simp [BitVec.getLsbD_of_ge c (lo + i - p) (by omega)]
  rw [BitVec.extractLsb'_xor, hzero, BitVec.xor_zero]

/-- A word placed at bit `p` and xored in is xored to the field at its own place. -/
theorem extractLsb'_xor_placed_same {W v : Nat} (x : BitVec W) (c : BitVec v) {p : Nat} (h : p + v ≤ W) :
    (x ^^^ (c.setWidth W <<< p)).extractLsb' p v = x.extractLsb' p v ^^^ c := by
  have hsame : (c.setWidth W <<< p).extractLsb' p v = c := by
    apply BitVec.eq_of_getLsbD_eq
    intro i hi
    simp [hi, show p + i < W by omega]
  rw [BitVec.extractLsb'_xor, hsame]

/-- A field below the replaced top part is that of the word whose low part was kept. -/
theorem extractLsb'_append_low {W v n : Nat} (top : BitVec v) (x : BitVec W) {lo len : Nat} (h : lo + len ≤ n) :
    (top ++ x.extractLsb' 0 n).extractLsb' lo len = x.extractLsb' lo len := by
  rw [BitVec.extractLsb'_append_eq_of_add_le h, BitVec.extractLsb'_extractLsb'_of_le h]

/-- The fields of the 80-bit update (R127). -/
theorem upd80_fields (k : BitVec 80) (rc : Nat) :
    (upd80 k rc).extractLsb' 76 4 = sboxA ((rotlK k 61).extractLsb' 76 4) ∧
    (upd80 k rc).extractLsb' 15 5 = (rotlK k 61).extractLsb' 15 5 ^^^ BitVec.ofNat 5 rc ∧
    (upd80 k rc).extractLsb' 20 56 = (rotlK k 61).extractLsb' 20 56 ∧
    (upd80 k rc).extractLsb' 0 15 = (rotlK k 61).extractLsb' 0 15 := by
  unfold upd80
  refine ⟨?_, ?_, ?_, ?_⟩
  · rw [extractLsb'_xor_placed_disjoint _ _ (by omega), BitVec.extractLsb'_append_eq_left]
  · rw [extractLsb'_xor_placed_same _ _ (by omega), extractLsb'_append_low _ _ (by omega)]
  · rw [extractLsb'_xor_placed_disjoint _ _ (by omega), extractLsb'_append_low _ _ (by omega)]
  · rw [extractLsb'_xor_placed_disjoint _ _ (by omega), extractLsb'_append_low _ _ (by omega)]

/-- The fields of the 128-bit update (R128). -/
theorem upd128_fields (k : BitVec 128) (rc : Nat) :
    (upd128 k rc).extractLsb' 124 4 = sboxA ((rotlK k 61).extractLsb' 124 4) ∧
    (upd128 k rc).extractLsb' 120 4 = sboxA ((rotlK k 61).extractLsb' 120 4) ∧
    (upd128 k rc).extractLsb' 62 5 = (rotlK k 61).extractLsb' 62 5 ^^^ BitVec.ofNat 5 rc ∧
    (upd128 k rc).extractLsb' 67 53 = (rotlK k 61).extractLsb' 67 53 ∧
    (upd128 k rc).extractLsb' 0 62 = (rotlK k 61).extractLsb' 0 62 := by
  unfold upd128
  refine ⟨?_, ?_, ?_, ?_, ?_⟩
  · rw [extractLsb'_xor_placed_disjoint _ _ (by omega), BitVec.extractLsb'_append_eq_of_le (by omega)]
    exact BitVec.extractLsb'_append_eq_left
  · rw [extractLsb'_xor_placed_disjoint _ _ (by omega), BitVec.extractLsb'_append_eq_of_le (by omega)]
    exact BitVec.extractLsb'_append_eq_right
  · rw [extractLsb'_xor_placed_same _ _ (by omega), extractLsb'_append_low _ _ (by omega)]
  · rw [extractLsb'_xor_placed_disjoint _ _ (by omega), extractLsb'_append_low _ _ (by omega)]
  · rw [extractLsb'_xor_placed_disjoint _ _ (by omega), extractLsb'_append_low _ _ (by omega)]

/-- Settles O44: the replaced top nibbles and the counter's place do not meet, so each field is changed by one of them or
by neither. -/
theorem keyRegisterUpdates : Obligations.KeyRegisterUpdates :=
  ⟨fun k rc _ _ => upd80_fields k rc, fun k rc _ _ => upd128_fields k rc⟩

/-! ## The round keys -/

/-- The key register after `n` updates with the counters from `i` on (R129). -/
def keyRegister {W : Nat} (upd : BitVec W → Nat → BitVec W) (i : Nat) (k : BitVec W) (n : Nat) : BitVec W :=
  (List.range' i n).foldl upd k

theorem keyRegister_succ {W : Nat} (upd : BitVec W → Nat → BitVec W) (i : Nat) (k : BitVec W) (n : Nat) :
    keyRegister upd i k (n + 1) = upd (keyRegister upd i k n) (i + n) := by
  simp [keyRegister, List.range'_1_concat]

/-- Updating once and then from the next counter on is updating from the first counter on. -/
theorem keyRegister_update {W : Nat} (upd : BitVec W → Nat → BitVec W) (i : Nat) (k : BitVec W) (n : Nat) :
    keyRegister upd (i + 1) (upd k i) n = keyRegister upd i k (n + 1) := by
  simp [keyRegister, List.range'_succ]

/-- Round key `j`, from 0, is the top of the register after `j` updates. -/
theorem roundKeysFrom_getD {W : Nat} (upd : BitVec W → Nat → BitVec W) {n j : Nat} (hj : j < n) (i : Nat) (k : BitVec W) :
    (roundKeysFrom upd n i k).getD j 0 = (keyRegister upd i k j).extractLsb' (W - 64) 64 := by
  induction n generalizing i j k with
  | zero => omega
  | succ n ih =>
    cases j with
    | zero => rfl
    | succ j => rw [roundKeysFrom, List.getD_cons_succ, ih (by omega), keyRegister_update]

/-- The registers of R129 for any update: they start at `k`, and round key `i` is the top of register `i`. -/
theorem roundKeysFrom_registers {W : Nat} (upd : BitVec W → Nat → BitVec W) (k : BitVec W) : ∃ K : Nat → BitVec W,
    K 1 = k ∧ (∀ i, 1 ≤ i → i ≤ 31 → K (i + 1) = upd (K i) i) ∧
    ∀ i, 1 ≤ i → i ≤ 32 → (roundKeysFrom upd 32 1 k).getD (i - 1) 0 = (K i).extractLsb' (W - 64) 64 := by
  refine ⟨fun i => keyRegister upd 1 k (i - 1), rfl, fun i h1 _ => ?_, fun i _ h32 =>
    roundKeysFrom_getD upd (by omega) 1 k⟩
  obtain ⟨n, rfl⟩ := Nat.exists_eq_add_of_le' h1
  have hstep := keyRegister_succ upd 1 k n
  rwa [Nat.add_comm 1 n] at hstep

theorem scheduleA_of_length_ten {key : Bytes} (h : key.length = 10) :
    scheduleA key = roundKeysFrom upd80 32 1 (BitVec.ofNat 80 (bytesToWordBE key)) := if_neg (by omega)

theorem scheduleA_of_length_sixteen {key : Bytes} (h : key.length = 16) :
    scheduleA key = roundKeysFrom upd128 32 1 (BitVec.ofNat 128 (bytesToWordBE key)) := if_pos h

/-- Settles O45: the key's length selects the update, and the round keys of either are the tops of its registers. -/
theorem roundKeys : Obligations.RoundKeys := by
  refine ⟨fun key h => ⟨scheduleA_length key, ?_⟩, fun key h => ⟨scheduleA_length key, ?_⟩⟩
  · rw [scheduleA_of_length_ten h]
    exact roundKeysFrom_registers upd80 _
  · rw [scheduleA_of_length_sixteen h]
    exact roundKeysFrom_registers upd128 _

/-! ## The rounds of EA and DA -/

/-- The state of EA after its first `n` rounds (R131). -/
def encTraceA (rk : List (BitVec 64)) (block : Bytes) (n : Nat) : BitVec 64 := (rk.take n).foldl roundA (loadA block)

/-- The state of DA when the `n` first round keys are still to come (R132). -/
def decTraceA (rk : List (BitVec 64)) (block : Bytes) (n : Nat) : BitVec 64 :=
  ((rk.take 31).drop n).reverse.foldl roundAInv (loadA block ^^^ rk.getD 31 0)

theorem encTraceA_succ {rk : List (BitVec 64)} {n : Nat} (h : n < rk.length) (block : Bytes) :
    encTraceA rk block (n + 1) = roundA (encTraceA rk block n) (rk.getD n 0) := by
  rw [encTraceA, List.take_succ_eq_append_getElem h, List.foldl_append, List.getD_eq_getElem _ _ h]
  rfl

theorem decTraceA_last (rk : List (BitVec 64)) (block : Bytes) :
    decTraceA rk block 31 = loadA block ^^^ rk.getD 31 0 := by
  rw [decTraceA, List.drop_take_self, List.reverse_nil, List.foldl_nil]

theorem decTraceA_pred {rk : List (BitVec 64)} {n : Nat} (hn : n < 31) (h : n < rk.length) (block : Bytes) :
    decTraceA rk block n = roundAInv (decTraceA rk block (n + 1)) (rk.getD n 0) := by
  have hdrop : (rk.take 31).drop n = rk.getD n 0 :: (rk.take 31).drop (n + 1) := by
    rw [List.drop_eq_getElem_cons (by rw [List.length_take]; omega), List.getElem_take, List.getD_eq_getElem _ _ h]
  rw [decTraceA, hdrop, List.reverse_cons, List.foldl_append]
  rfl

theorem encA_eq_encTraceA (rk : List (BitVec 64)) (block : Bytes) :
    encA rk block = storeA (encTraceA rk block 31 ^^^ rk.getD 31 0) := rfl

theorem decA_eq_decTraceA (rk : List (BitVec 64)) (block : Bytes) :
    decA rk block = storeA (decTraceA rk block 0) := rfl

/-- DA undoes EA, with any round keys (R132). -/
theorem decA_encA (rk : List (BitVec 64)) {block : Bytes} (h : block.length = 8) : decA rk (encA rk block) = block := by
  rw [decA, encA, loadA_storeA, BitVec.xor_assoc, BitVec.xor_self, BitVec.xor_zero,
    foldl_reverse_inverse roundAInv_roundA, storeA_loadA h]

/-- EA undoes DA, with any round keys (R132). -/
theorem encA_decA (rk : List (BitVec 64)) {block : Bytes} (h : block.length = 8) : encA rk (decA rk block) = block := by
  have hrounds := foldl_reverse_inverse roundA_roundAInv (rk.take 31).reverse (loadA block ^^^ rk.getD 31 0)
  rw [List.reverse_reverse] at hrounds
  rw [encA, decA, loadA_storeA, hrounds, BitVec.xor_assoc, BitVec.xor_self, BitVec.xor_zero, storeA_loadA h]

/-- Settles O46: the states of EA and DA are those of the two traces, whose steps are the rounds, and the rounds undo each
other in reverse order. -/
theorem cipherABlockTransforms : Obligations.CipherABlockTransforms := by
  intro rk block hrk hblock
  refine ⟨⟨fun i => encTraceA rk block (i - 1), rfl, fun i h1 h31 => ?_, encA_eq_encTraceA rk block⟩,
    ⟨decTraceA rk block, decTraceA_last rk block, fun i h1 h31 => ?_, decA_eq_decTraceA rk block⟩,
    decA_encA rk hblock, encA_decA rk hblock⟩
  · obtain ⟨n, rfl⟩ := Nat.exists_eq_add_of_le' h1
    exact encTraceA_succ (by omega) block
  · obtain ⟨n, rfl⟩ := Nat.exists_eq_add_of_le' h1
    exact decTraceA_pred (by omega) (by omega) block

end Sys2Proof.Machine
end

section
/-! PROOFS. The other statements of spec/42_cipher_b.md: the constants, the key words, the mixing loop and its schedule, and
that EB and DB undo each other. -/

namespace Sys2Proof.Machine

open Sys2Proof.Spec

/-! ## The registers of EB and DB undo each other -/

theorem decRegsB_encRegsB {w : Nat} (hw : 0 < w) (r : Nat) (s : List (BitVec w)) (x : RegsB w) :
    decRegsB r s (encRegsB r s x) = x := by
  have hrounds := foldl_reverse_inverse (roundBInv_roundB hw s) (roundIndices r)
    { x with b := x.b + s.getD 0 0, d := x.d + s.getD 1 0 }
  simp only [decRegsB, encRegsB, BitVec.add_sub_cancel]
  rw [hrounds]
  simp only [BitVec.add_sub_cancel]

theorem encRegsB_decRegsB {w : Nat} (hw : 0 < w) (r : Nat) (s : List (BitVec w)) (y : RegsB w) :
    encRegsB r s (decRegsB r s y) = y := by
  have hrounds := foldl_reverse_inverse (roundB_roundBInv hw s) (roundIndices r).reverse
    { y with a := y.a - s.getD (2 * r + 2) 0, c := y.c - s.getD (2 * r + 3) 0 }
  rw [List.reverse_reverse] at hrounds
  simp only [decRegsB, encRegsB, BitVec.sub_add_cancel]
  rw [hrounds]
  simp only [BitVec.sub_add_cancel]

/-- DB undoes EB, with any schedule (R159). -/
theorem decB_encB {w : Nat} (h : w ∈ wordSizes) (r : Nat) (s : List (BitVec w)) {block : Bytes}
    (hb : block.length = 4 * (w / 8)) : decB r s (encB r s block) = block := by
  have hw := one_lt_of_mem_wordSizes h
  have h8 := wholeBytes_of_mem_wordSizes h
  rw [decB, encB, loadB_storeB h8, decRegsB_encRegsB (by omega), storeB_loadB h8 hb]

/-- EB undoes DB, with any schedule (R159). -/
theorem encB_decB {w : Nat} (h : w ∈ wordSizes) (r : Nat) (s : List (BitVec w)) {block : Bytes}
    (hb : block.length = 4 * (w / 8)) : encB r s (decB r s block) = block := by
  have hw := one_lt_of_mem_wordSizes h
  have h8 := wholeBytes_of_mem_wordSizes h
  rw [decB, encB, loadB_storeB h8, encRegsB_decRegsB (by omega), storeB_loadB h8 hb]

/-- Settles O51: the rounds undo each other in reverse order, the whitening additions are subtracted, and a load undoes a
store; nothing depends on how the schedule was made. -/
theorem cipherBDecryptInvertsEncrypt : Obligations.CipherBDecryptInvertsEncrypt := fun w hw r key _ _ _ hblock =>
  ⟨decB_encB hw r (scheduleB w r key) hblock, encB_decB hw r (scheduleB w r key) hblock⟩

/-! ## The key words -/

theorem one_le_bytes_of_mem_wordSizes {w : Nat} (h : w ∈ wordSizes) : 1 ≤ w / 8 := by
  revert w
  decide

theorem one_le_keyWordCount (w b : Nat) : 1 ≤ keyWordCount w b := Nat.le_max_right _ _

theorem keyWordCount_zero {w : Nat} (hu : 1 ≤ w / 8) : keyWordCount w 0 = 1 := by
  rw [keyWordCount, Nat.div_eq_of_lt (by omega), Nat.zero_max]

/-- A key that is not empty has one word for every `u` bytes begun. -/
theorem keyWordCount_of_pos {w b : Nat} (hu : 1 ≤ w / 8) (hb : 1 ≤ b) :
    keyWordCount w b = (b + (w / 8 - 1)) / (w / 8) :=
  Nat.max_eq_left (Nat.div_pos (by omega) hu)

theorem le_keyWordCount_mul {w : Nat} (hu : 1 ≤ w / 8) (b : Nat) : b ≤ keyWordCount w b * (w / 8) := by
  obtain rfl | hb := Nat.eq_zero_or_pos b
  · exact Nat.zero_le _
  · have hround := Nat.lt_div_mul_add (a := b + (w / 8 - 1)) hu
    rw [keyWordCount_of_pos hu hb]
    omega

theorem keyWordCount_pred_mul_lt {w b : Nat} (hu : 1 ≤ w / 8) (hb : 1 ≤ b) : (keyWordCount w b - 1) * (w / 8) < b := by
  have hround := Nat.div_mul_le_self (b + (w / 8 - 1)) (w / 8)
  rw [keyWordCount_of_pos hu hb, Nat.sub_mul]
  omega

/-- The key and the zeros that fill its last word (R154). -/
def paddedKey (w : Nat) (key : Bytes) : Bytes := key ++ zeros (keyWordCount w key.length * (w / 8) - key.length)

theorem paddedKey_length {w : Nat} (hu : 1 ≤ w / 8) (key : Bytes) :
    (paddedKey w key).length = keyWordCount w key.length * (w / 8) := by
  have hfits := le_keyWordCount_mul hu key.length
  simp only [paddedKey, List.length_append, zeros_length]
  omega

theorem keyWordsB_eq_map_paddedKey (w : Nat) (key : Bytes) :
    keyWordsB w key = (List.range (keyWordCount w key.length)).map fun k =>
      wordLE w (((paddedKey w key).drop (k * (w / 8))).take (w / 8)) := rfl

@[simp] theorem keyWordsB_length (w : Nat) (key : Bytes) : (keyWordsB w key).length = keyWordCount w key.length := by
  rw [keyWordsB_eq_map_paddedKey, List.length_map, List.length_range]

theorem getD_append_zeros (s : Bytes) (n i : Nat) : (s ++ zeros n).getD i 0 = s.getD i 0 := by
  obtain h | h := Nat.lt_or_ge i s.length
  · exact List.getD_append _ _ _ _ h
  · rw [List.getD_append_right _ _ _ _ h, List.getD_eq_default _ _ h, zeros, List.getD_eq_getElem?_getD,
      List.getElem?_getD_replicate_default_eq]

theorem paddedKey_getD (w : Nat) (key : Bytes) (i : Nat) : (paddedKey w key).getD i 0 = key.getD i 0 :=
  getD_append_zeros key _ i

/-- Byte `j` of the word that `u` bytes make is byte `j` of them. -/
theorem wordLE_byte {w : Nat} (h8 : w % 8 = 0) {s : Bytes} (hs : s.length = w / 8) {j : Nat} (hj : j < w / 8) :
    (wordLE w s).extractLsb' (8 * j) 8 = s.getD j 0 := by
  rw [← wordToBytesLE_toNat_getD _ hj, wordToBytesLE_wordLE h8 hs]

theorem keyWordsB_byte {w : Nat} (h : w ∈ wordSizes) (key : Bytes) {k j : Nat} (hk : k < keyWordCount w key.length)
    (hj : j < w / 8) : ((keyWordsB w key).getD k 0).extractLsb' (8 * j) 8 = key.getD (k * (w / 8) + j) 0 := by
  have hroom : k * (w / 8) + w / 8 ≤ (paddedKey w key).length := by
    rw [paddedKey_length (one_le_bytes_of_mem_wordSizes h), ← Nat.succ_mul]
    exact Nat.mul_le_mul_right _ hk
  have hword : (((paddedKey w key).drop (k * (w / 8))).take (w / 8)).length = w / 8 := by
    rw [List.length_take, List.length_drop]
    omega
  rw [keyWordsB_eq_map_paddedKey, List.getD_eq_getElem _ _ (by simpa using hk), List.getElem_map, List.getElem_range,
    wordLE_byte (wholeBytes_of_mem_wordSizes h) hword hj, ← paddedKey_getD w key]
  simp [List.getD_eq_getElem?_getD, hj]

/-- Settles O48: the count is the rounded-up quotient, at least 1, and each word's bytes are those of the padded key. -/
theorem keyWords : Obligations.KeyWords := by
  intro w hw key _
  have hu := one_le_bytes_of_mem_wordSizes hw
  simp only [keyWordsB_length]
  refine ⟨one_le_keyWordCount _ _, le_keyWordCount_mul hu _, fun h => ?_, ?_,
    fun k hk j hj => keyWordsB_byte hw key hk hj⟩
  · exact keyWordCount_pred_mul_lt hu (List.length_pos_iff.mpr h)
  · rintro rfl
    exact keyWordCount_zero hu

/-! ## Trailing zero bytes of the key -/

theorem zeros_append_zeros (m n : Nat) : zeros m ++ zeros n = zeros (m + n) := List.replicate_append_replicate

/-- Zeros after the key take the place of the zeros of its padding while the word count stays. -/
theorem paddedKey_append_zeros {w n : Nat} (hu : 1 ≤ w / 8) {key : Bytes}
    (h : keyWordCount w (key ++ zeros n).length = keyWordCount w key.length) :
    paddedKey w (key ++ zeros n) = paddedKey w key := by
  have hfits := le_keyWordCount_mul hu (key ++ zeros n).length
  rw [h, List.length_append, zeros_length] at hfits
  rw [paddedKey, paddedKey, h, List.append_assoc, zeros_append_zeros, List.length_append, zeros_length]
  congr 2
  omega

theorem keyWordsB_append_zeros {w n : Nat} (hu : 1 ≤ w / 8) {key : Bytes}
    (h : keyWordCount w (key ++ zeros n).length = keyWordCount w key.length) :
    keyWordsB w (key ++ zeros n) = keyWordsB w key := by
  rw [keyWordsB_eq_map_paddedKey, paddedKey_append_zeros hu h, h, ← keyWordsB_eq_map_paddedKey]

/-- Settles O52: the schedule reads the key through its words only, and the words are those of the padded key. -/
theorem trailingZeroKeyBytes : Obligations.TrailingZeroKeyBytes := by
  intro w hw r n key h
  simp only [keyWordsB_length] at h
  rw [scheduleB, keyWordsB_append_zeros (one_le_bytes_of_mem_wordSizes hw) h, ← scheduleB]

/-! ## The mixing loop -/

/-- Word `k` of S before mixing (R156). -/
theorem arithFrom_getD {w n k : Nat} (hk : k < n) (x : BitVec w) :
    (arithFrom n x).getD k 0 = x + BitVec.ofNat w k * constQ w := by
  induction n generalizing k x with
  | zero => omega
  | succ n ih =>
    cases k with
    | zero => simp [arithFrom]
    | succ k =>
      rw [arithFrom, List.getD_cons_succ, ih (by omega), BitVec.ofNat_add, BitVec.add_mul, BitVec.one_mul, BitVec.add_assoc,
        BitVec.add_comm (constQ w)]

/-- What the mixing loop holds before its first iteration (R156). -/
def mixStart (w r : Nat) (key : Bytes) : MixB w :=
  { s := arithFrom (subkeyCount r) (constP w), l := keyWordsB w key, a := 0, b := 0, i := 0, j := 0 }

/-- The last of `n + 1` iterations is taken after the other `n`. -/
theorem mixMany_succ {w : Nat} (n : Nat) (m : MixB w) : mixMany (n + 1) m = mixStep (mixMany n m) := by
  induction n generalizing m with
  | zero => rfl
  | succ n ih => exact ih (mixStep m)

/-- What the mixing loop holds after `n` iterations (R157). -/
def mixTrace (w r : Nat) (key : Bytes) (n : Nat) : MixB w := mixMany n (mixStart w r key)

theorem scheduleB_eq_mixTrace (w r : Nat) (key : Bytes) :
    scheduleB w r key = (mixTrace w r key (3 * max (keyWordsB w key).length (subkeyCount r))).s := rfl

theorem mixTrace_succ (w r : Nat) (key : Bytes) (n : Nat) :
    mixTrace w r key (n + 1) = mixStep (mixTrace w r key n) := mixMany_succ n _

/-- The loop keeps the lengths of S and L (R157). -/
theorem mixTrace_length (w r : Nat) (key : Bytes) (n : Nat) :
    (mixTrace w r key n).s.length = 2 * r + 4 ∧ (mixTrace w r key n).l.length = (keyWordsB w key).length := by
  obtain ⟨hs, hl⟩ := mixMany_length n (mixStart w r key)
  exact ⟨hs.trans (arithFrom_length _ _), hl⟩

/-- The two indices of the loop run modulo the lengths of S and L (R157). -/
theorem mixTrace_indices (w r : Nat) (key : Bytes) (n : Nat) :
    (mixTrace w r key n).i = n % (2 * r + 4) ∧ (mixTrace w r key n).j = n % (keyWordsB w key).length := by
  induction n with
  | zero => exact ⟨(Nat.zero_mod _).symm, (Nat.zero_mod _).symm⟩
  | succ n ih =>
    obtain ⟨hi, hj⟩ := ih
    obtain ⟨hs, hl⟩ := mixTrace_length w r key n
    simp only [mixTrace_succ, mixStep, hi, hj, hs, hl, Nat.mod_add_mod, and_self]

/-- Settles O49: the four sequences are what the loop holds after `n` iterations, whose indices are `n` modulo the two
lengths. -/
theorem keyMixing : Obligations.KeyMixing := by
  intro w _ r key _ _
  let M := mixTrace w r key
  refine ⟨fun n => (M n).s, fun n => (M n).l, fun n => (M n).a, fun n => (M n).b, arithFrom_length _ _,
    fun k hk => arithFrom_getD hk _, rfl, rfl, rfl, fun n _ => ?_, scheduleB_eq_mixTrace w r key, scheduleB_length w r key⟩
  have hstep : M (n + 1) = mixStep (M n) := mixTrace_succ w r key n
  obtain ⟨hi, hj⟩ : (M n).i = n % (2 * r + 4) ∧ (M n).j = n % (keyWordsB w key).length := mixTrace_indices w r key n
  beta_reduce
  rw [hstep, ← hi, ← hj]
  exact ⟨rfl, rfl, rfl, rfl⟩

/-! ## The constants -/

/-- The top `w` bits of a 256-bit value, made odd, are a `w`-bit word (R153). -/
theorem toNat_topBits_or_one {m w : Nat} (hm : m < 2 ^ 256) (h0 : 0 < w) (h : w ≤ 256) :
    (BitVec.ofNat w ((m >>> (256 - w)) ||| 1)).toNat = (m / 2 ^ (256 - w)) ||| 1 := by
  have htop : m / 2 ^ (256 - w) < 2 ^ w := by
    rw [Nat.div_lt_iff_lt_mul (by positivity), ← Nat.pow_add, Nat.add_sub_cancel' h]
    exact hm
  rw [Nat.shiftRight_eq_div_pow, BitVec.toNat_ofNat,
    Nat.mod_eq_of_lt (Nat.or_lt_two_pow htop (Nat.one_lt_two_pow h0.ne'))]

theorem le_256_of_mem_wordSizes {w : Nat} (h : w ∈ wordSizes) : w ≤ 256 := by
  revert w
  decide

/-- Settles O47: the table is computed, and the shift formula holds because the master values have 256 bits. -/
theorem cipherBConstants : Obligations.CipherBConstants := by
  refine ⟨rfl, rfl, by decide, by decide, by decide, by decide, by decide, by decide, by decide, by decide, by decide,
    by decide, fun w hw => ?_⟩
  have h0 : 0 < w := Nat.zero_lt_of_lt (one_lt_of_mem_wordSizes hw)
  have h := le_256_of_mem_wordSizes hw
  exact ⟨toNat_topBits_or_one (by decide) h0 h, toNat_topBits_or_one (by decide) h0 h⟩

end Sys2Proof.Machine
end

section
/-! PROOFS. The statements of spec/43_padding.md about the padding unit: what each scheme appends, what removal accepts, and
when removal gives the message back. -/

namespace Sys2Proof.Machine

open Sys2Proof.Spec

/-! ## What each scheme appends -/

/-- A full pad is never empty (R180). -/
theorem one_le_fullPad {bs : Nat} (hbs : 1 ≤ bs) (len : Nat) : 1 ≤ bs - len % bs := by
  have := Nat.mod_lt len hbs
  omega

/-- Every scheme but NO succeeds, and appends its pad (R181 to R184). -/
theorem applyPadding_eq_append {p : Padding} (hp : p ≠ .no) (m : Bytes) (bs : Nat) (draw : Nat → Byte) :
    applyPadding m p bs draw = .ok (m ++ padBytes m.length p bs draw) := by
  cases p with
  | no => exact absurd rfl hp
  | _ => rfl

theorem applyPadding_no_whole {m : Bytes} {bs : Nat} (h : m.length % bs = 0) (draw : Nat → Byte) :
    applyPadding m .no bs draw = .ok m := by simp [applyPadding, h]

theorem applyPadding_no_partial {m : Bytes} {bs : Nat} (h : m.length % bs ≠ 0) (draw : Nat → Byte) :
    applyPadding m .no bs draw = .error .noPaddingMismatch := by simp [applyPadding, h]

theorem padBytes_length {bs : Nat} (hbs : 1 ≤ bs) (len : Nat) (p : Padding) (draw : Nat → Byte) :
    (padBytes len p bs draw).length = padLen len p bs := by
  have := one_le_fullPad hbs len
  cases p <;> simp [padBytes, padLen]
  omega

/-- Settles O53. -/
theorem paddingAppends : Obligations.PaddingAppends := by
  intro m bs draw hbs
  have hfull : 1 ≤ bs - m.length % bs ∧ bs - m.length % bs ≤ bs := ⟨one_le_fullPad hbs _, Nat.sub_le _ _⟩
  have hshort : (bs - m.length % bs) % bs < bs := Nat.mod_lt _ hbs
  exact ⟨hfull, hfull, hshort, hshort, rfl, fun h => applyPadding_no_whole h draw,
    fun h => applyPadding_no_partial h draw, fun p hp =>
      ⟨applyPadding_eq_append hp m bs draw, padBytes_length hbs _ p draw, padLen_mod hbs _ hp⟩⟩

/-! ## What removal accepts -/

/-- PKCS5 removal takes off `n` bytes of value `n` (R187). -/
theorem removePkcs5_append {n bs : Nat} (h1 : 1 ≤ n) (hn : n ≤ bs) (hbs : bs ≤ 64) (r : Bytes) :
    removePkcs5 (r ++ rep (BitVec.ofNat 8 n) n) bs = .ok r := by
  have hval : (BitVec.ofNat 8 n).toNat = n := by
    rw [BitVec.toNat_ofNat]
    omega
  have hlast : (r ++ rep (BitVec.ofNat 8 n) n).getLast? = some (BitVec.ofNat 8 n) := by
    rw [List.getLast?_append, rep, List.getLast?_replicate, if_neg (by omega), Option.some_or]
  have hlen : (r ++ rep (BitVec.ofNat 8 n) n).length - n = r.length := by simp
  have hall : (rep (BitVec.ofNat 8 n) n).all (fun x => x.toNat == n) = true := by
    simp [rep, List.all_replicate, hval]
  simp only [removePkcs5, hlast, hval, hlen, List.drop_left, List.take_left, hall]
  rw [if_neg (by simp; omega), if_pos trivial]

/-- What PKCS5 removal accepts ends in `n` bytes of value `n` (R187). -/
theorem eq_append_of_removePkcs5 {m r : Bytes} {bs : Nat} (h : removePkcs5 m bs = .ok r) :
    ∃ n, 1 ≤ n ∧ n ≤ bs ∧ m = r ++ rep (BitVec.ofNat 8 n) n := by
  unfold removePkcs5 at h
  split at h
  · cases h
  rename_i b _
  dsimp only at h
  split at h
  · cases h
  rename_i hn
  split at h
  · rename_i hall
    cases h
    refine ⟨b.toNat, by omega, by omega, ?_⟩
    have htail : m.drop (m.length - b.toNat) = rep (BitVec.ofNat 8 b.toNat) b.toNat := by
      refine List.eq_replicate_iff.mpr ⟨by rw [List.length_drop]; omega, fun x hx => ?_⟩
      have hval : x.toNat = b.toNat := eq_of_beq (List.all_eq_true.mp hall x hx)
      rw [← hval, BitVec.ofNat_toNat, BitVec.setWidth_eq]
    rw [← htail, List.take_append_drop]
  · cases h

/-- BIT removal takes off the marker and fewer than `bs` zeros (R188). -/
theorem removeBit_append {n bs : Nat} (h : n < bs) (r : Bytes) : removeBit (r ++ 0x80 :: zeros n) bs = .ok r := by
  have hrev : (r ++ 0x80 :: zeros n).reverse = zeros n ++ 0x80 :: r.reverse := by simp [zeros]
  have hrun : zeroRun (bs - 1) (zeros n ++ 0x80 :: r.reverse) = n :=
    zeroRun_zeros n (bs - 1) (by decide) r.reverse (by omega)
  simp only [removeBit, hrev, hrun, List.drop_left' (zeros_length n), List.reverse_reverse, if_true]

/-- What BIT removal accepts ends in the marker and fewer than `bs` zeros (R188). -/
theorem eq_append_of_removeBit {m r : Bytes} {bs : Nat} (hbs : 1 ≤ bs) (h : removeBit m bs = .ok r) :
    ∃ n, n < bs ∧ m = r ++ 0x80 :: zeros n := by
  obtain ⟨hle, hzeros⟩ := zeroRun_spec (bs - 1) m.reverse
  unfold removeBit at h
  dsimp only at h
  split at h
  · cases h
  rename_i b before hdrop
  split at h
  · rename_i hb
    cases h
    refine ⟨zeroRun (bs - 1) m.reverse, by omega, ?_⟩
    have hrev := List.take_append_drop (zeroRun (bs - 1) m.reverse) m.reverse
    rw [hzeros, hdrop, hb] at hrev
    simpa [zeros] using (congrArg List.reverse hrev).symm
  · cases h

/-- Settles O54: each removal is undone by the append that it accepts, and accepts nothing else. -/
theorem paddingRemoval : Obligations.PaddingRemoval := by
  intro m bs h1 h64
  refine ⟨rfl, rfl, rfl, fun r => ⟨eq_append_of_removePkcs5, ?_⟩, fun r => ⟨eq_append_of_removeBit h1, ?_⟩,
    fun p e h => ?_⟩
  · rintro ⟨n, hn1, hn, rfl⟩
    exact removePkcs5_append hn1 hn h64 r
  · rintro ⟨n, hn, rfl⟩
    exact removeBit_append hn r
  · rcases removePadding_cases m p bs with ⟨r, hr, -⟩ | ⟨-, hr⟩
    · cases hr.symm.trans h
    · cases hr.symm.trans h
      rfl

/-! ## The round trip -/

/-- NO succeeds with the message itself only. -/
theorem eq_of_applyPadding_no {m out : Bytes} {bs : Nat} {draw : Nat → Byte}
    (h : applyPadding m .no bs draw = .ok out) : out = m := by
  by_cases hw : m.length % bs = 0
  · cases (applyPadding_no_whole hw draw).symm.trans h
    rfl
  · cases (applyPadding_no_partial hw draw).symm.trans h

/-- On whole blocks ZERO and RANDOM append nothing. -/
theorem eq_of_applyPadding_whole {m out : Bytes} {p : Padding} {bs : Nat} {draw : Nat → Byte}
    (hp : p = .zero ∨ p = .random) (hw : m.length % bs = 0) (h : applyPadding m p bs draw = .ok out) : out = m := by
  have hlen : (bs - m.length % bs) % bs = 0 := by rw [hw, Nat.sub_zero, Nat.mod_self]
  have hpad : padBytes m.length p bs draw = [] := by rcases hp with rfl | rfl <;> simp [padBytes, hlen, zeros]
  rw [applyPadding_eq_append (by rintro rfl; simp at hp), hpad, List.append_nil] at h
  exact (Except.ok.inj h).symm

/-- What PKCS5 or BIT appended, and the nothing that NO appended, removal takes off (R189). -/
theorem removePadding_applyPadding {m out : Bytes} {p : Padding} {bs : Nat} {draw : Nat → Byte} (h1 : 1 ≤ bs)
    (h64 : bs ≤ 64) (hp : p ≠ .zero ∧ p ≠ .random) (h : applyPadding m p bs draw = .ok out) :
    removePadding out p bs = .ok m := by
  have hpad := one_le_fullPad h1 m.length
  cases p with
  | no => rw [eq_of_applyPadding_no h]; rfl
  | pkcs5 =>
    cases h
    exact removePkcs5_append hpad (Nat.sub_le _ _) h64 m
  | bit =>
    cases h
    exact removeBit_append (n := bs - m.length % bs - 1) (by omega) m
  | zero => exact absurd rfl hp.1
  | random => exact absurd rfl hp.2

/-- Settles O55: on a partial block the output of ZERO or RANDOM is whole blocks, so it is not the message. -/
theorem paddingRoundTrip : Obligations.PaddingRoundTrip := by
  intro m bs draw out hmem
  have hbs : 1 ≤ bs ∧ bs ≤ 64 := by
    revert hmem bs
    decide
  refine ⟨fun p hp h => ?_, fun p hw h => ?_, fun p hp hw h hr => ?_⟩
  · refine removePadding_applyPadding hbs.1 hbs.2 ?_ h
    rcases hp with rfl | rfl <;> decide
  · by_cases hp : p = .zero ∨ p = .random
    · rw [eq_of_applyPadding_whole hp hw h]
      rcases hp with rfl | rfl <;> rfl
    · exact removePadding_applyPadding hbs.1 hbs.2 (not_or.mp hp) h
  · have hout : out = m := by rcases hp with rfl | rfl <;> exact Except.ok.inj hr
    rcases applyPadding_cases hbs.1 m p draw with ⟨-, -, he⟩ | ⟨-, tail, ha, -, hwhole⟩
    · cases he.symm.trans h
    · cases ha.symm.trans h
      rw [hout] at hwhole
      exact hw hwhole

end Sys2Proof.Machine
end

section
/-! PROOFS. Decryption undoes encryption (spec/44_modes.md R201 to R211, 43_padding.md R189): the five modes on whole blocks,
the stream modes on any message, the block modes under a padding that can be removed, and each encrypt command with its
decrypt command through the whole machine. -/

namespace Sys2Proof.Machine

open Sys2Proof.Spec

/-! ## The block modes undo each other -/

/-- The blocks of ECB's output are the blocks' images. -/
theorem flatMap_blocks_flatMap {E D : Bytes → Bytes} {bs : Nat} (hbs : 1 ≤ bs)
    (hE : ∀ b : Bytes, b.length = bs → (E b).length = bs) (hD : ∀ b : Bytes, b.length = bs → D (E b) = b) :
    ∀ {l : List Bytes}, (∀ b ∈ l, b.length = bs) → (blocks bs (l.flatMap E)).flatMap D = l.flatten
  | [], _ => by rw [List.flatMap_nil, blocks_short (data := []) hbs]; rfl
  | P :: l, h => by
    obtain ⟨hP, hl⟩ := List.forall_mem_cons.mp h
    rw [List.flatMap_cons, blocks_cons hbs (hE P hP), List.flatMap_cons, hD P hP, flatMap_blocks_flatMap hbs hE hD hl,
      List.flatten_cons]

/-- CBC decryption takes the same xor off again. -/
theorem cbcDec_cbcEnc {E D : Bytes → Bytes} {bs : Nat} (hbs : 1 ≤ bs)
    (hE : ∀ b : Bytes, b.length = bs → (E b).length = bs) (hD : ∀ b : Bytes, b.length = bs → D (E b) = b) :
    ∀ {l : List Bytes} {X : Bytes}, X.length = bs → (∀ b ∈ l, b.length = bs) →
      cbcDec D X (blocks bs (cbcEnc E X l)) = l.flatten
  | [], X, _, _ => by rw [cbcEnc, blocks_short (data := []) hbs]; rfl
  | P :: l, X, hX, h => by
    obtain ⟨hP, hl⟩ := List.forall_mem_cons.mp h
    have hxor : (xorBytes P X).length = bs := by rw [xorBytes_length, hP, hX, Nat.min_self]
    rw [cbcEnc, blocks_cons hbs (hE _ hxor), cbcDec, hD _ hxor, xorBytes_cancel_right (by rw [hP, hX]),
      cbcDec_cbcEnc hbs hE hD (hE _ hxor) hl, List.flatten_cons]

/-! ## The stream modes in one form -/

/-- Every stream mode xors `E` of the chaining register to the block; `next` says what the register holds for the following
block, from its value and the block (R206 to R209). -/
def streamBlocks (E : Bytes → Bytes) (next : Bytes → Bytes → Bytes) : (X : Bytes) → List Bytes → Bytes
  | _, [] => []
  | X, P :: rest => xorBytes (E X) P ++ streamBlocks E next (next X P) rest

/-- The following value of a stream mode's chaining register (R206 to R209). -/
def nextChain (E : Bytes → Bytes) : StreamMode → Op → (X P : Bytes) → Bytes
  | .cfb, .enc, X, P => xorBytes (E X) P
  | .cfb, .dec, _, P => P
  | .ofb, _, X, _ => E X
  | .ctr, _, X, _ => incBlock X

theorem cfbEnc_eq_streamBlocks (E : Bytes → Bytes) : ∀ (l : List Bytes) (X : Bytes),
    cfbEnc E X l = streamBlocks E (nextChain E .cfb .enc) X l
  | [], _ => rfl
  | P :: l, X => by rw [cfbEnc, cfbEnc_eq_streamBlocks E l]; rfl

theorem cfbDec_eq_streamBlocks (E : Bytes → Bytes) : ∀ (l : List Bytes) (X : Bytes),
    cfbDec E X l = streamBlocks E (nextChain E .cfb .dec) X l
  | [], _ => rfl
  | P :: l, X => by rw [cfbDec, cfbDec_eq_streamBlocks E l]; rfl

theorem ofb_eq_streamBlocks (E : Bytes → Bytes) (op : Op) : ∀ (l : List Bytes) (X : Bytes),
    ofb E X l = streamBlocks E (nextChain E .ofb op) X l
  | [], _ => rfl
  | P :: l, X => by rw [ofb, ofb_eq_streamBlocks E op l]; rfl

theorem ctrMode_eq_streamBlocks (E : Bytes → Bytes) (op : Op) : ∀ (l : List Bytes) (X : Bytes),
    ctrMode E X l = streamBlocks E (nextChain E .ctr op) X l
  | [], _ => rfl
  | P :: l, X => by rw [ctrMode, ctrMode_eq_streamBlocks E op l]; rfl

theorem modeEnc_stream (mode : StreamMode) (E : Bytes → Bytes) (bs : Nat) (data iv : Bytes) :
    modeEnc mode.toMode E bs data iv = streamBlocks E (nextChain E mode .enc) iv (blocks bs data) := by
  cases mode
  · exact cfbEnc_eq_streamBlocks E _ _
  · exact ofb_eq_streamBlocks E .enc _ _
  · exact ctrMode_eq_streamBlocks E .enc _ _

theorem modeDec_stream (mode : StreamMode) (E D : Bytes → Bytes) (bs : Nat) (data iv : Bytes) :
    modeDec mode.toMode E D bs data iv = streamBlocks E (nextChain E mode .dec) iv (blocks bs data) := by
  cases mode
  · exact cfbDec_eq_streamBlocks E _ _
  · exact ofb_eq_streamBlocks E .dec _ _
  · exact ctrMode_eq_streamBlocks E .dec _ _

theorem nextChain_length {E : Bytes → Bytes} {bs : Nat} (hE : ∀ b : Bytes, b.length = bs → (E b).length = bs)
    (mode : StreamMode) (op : Op) {X P : Bytes} (hX : X.length = bs) (hP : P.length = bs) :
    (nextChain E mode op X P).length = bs := by
  cases mode with
  | cfb =>
    cases op with
    | enc => rw [nextChain, xorBytes_length, hE X hX, hP, Nat.min_self]
    | dec => exact hP
  | ofb => exact hE X hX
  | ctr => exact (incBlock_length X).trans hX

/-- From a ciphertext block, decryption continues with the register that encryption continued with. -/
theorem nextChain_dec (E : Bytes → Bytes) (mode : StreamMode) (X P : Bytes) :
    nextChain E mode .dec X (xorBytes (E X) P) = nextChain E mode .enc X P := by cases mode <;> rfl

/-- The same register sequence xors the same bytes, which cancel. -/
theorem streamBlocks_dec_enc {E : Bytes → Bytes} {bs : Nat} (hbs : 1 ≤ bs)
    (hE : ∀ b : Bytes, b.length = bs → (E b).length = bs) (mode : StreamMode) :
    ∀ {l : List Bytes} {X : Bytes}, X.length = bs → (∀ b ∈ l, b.length = bs) →
      streamBlocks E (nextChain E mode .dec) X (blocks bs (streamBlocks E (nextChain E mode .enc) X l)) = l.flatten
  | [], X, _, _ => by rw [streamBlocks, blocks_short (data := []) hbs]; rfl
  | P :: l, X, hX, h => by
    obtain ⟨hP, hl⟩ := List.forall_mem_cons.mp h
    have hxor : (xorBytes (E X) P).length = bs := by rw [xorBytes_length, hE X hX, hP, Nat.min_self]
    rw [streamBlocks, blocks_cons hbs hxor, streamBlocks, nextChain_dec, xorBytes_cancel_left (by rw [hP, hE X hX]),
      streamBlocks_dec_enc hbs hE mode (nextChain_length hE mode .enc hX hP) hl, List.flatten_cons]

/-- The first `n` bytes of a stream mode's output depend on the first `n` bytes of its data only. -/
theorem streamBlocks_take {E : Bytes → Bytes} {bs : Nat} (hE : ∀ b : Bytes, b.length = bs → (E b).length = bs)
    (mode : StreamMode) (op : Op) : ∀ {l l' : List Bytes} {X : Bytes} {n : Nat}, X.length = bs →
      (∀ b ∈ l, b.length = bs) → (∀ b ∈ l', b.length = bs) → l.length = l'.length →
      l.flatten.take n = l'.flatten.take n →
      (streamBlocks E (nextChain E mode op) X l).take n = (streamBlocks E (nextChain E mode op) X l').take n
  | [], [], _, _, _, _, _, _, _ => rfl
  | [], _ :: _, _, _, _, _, _, hlen, _ => by cases hlen
  | _ :: _, [], _, _, _, _, _, hlen, _ => by cases hlen
  | P :: l, P' :: l', X, n, hX, h, h', hlen, htake => by
    obtain ⟨hP, hl⟩ := List.forall_mem_cons.mp h
    obtain ⟨hP', hl'⟩ := List.forall_mem_cons.mp h'
    have hxor : ∀ Q : Bytes, Q.length = bs → (xorBytes (E X) Q).length = bs := fun Q hQ => by
      rw [xorBytes_length, hE X hX, hQ, Nat.min_self]
    rw [List.flatten_cons, List.flatten_cons] at htake
    rw [streamBlocks, streamBlocks]
    by_cases hn : n ≤ bs
    · rw [List.take_append_of_le_length (by omega), List.take_append_of_le_length (by omega)] at htake
      rw [List.take_append_of_le_length (by rw [hxor P hP]; exact hn),
        List.take_append_of_le_length (by rw [hxor P' hP']; exact hn), xorBytes_take, xorBytes_take, htake]
    · obtain ⟨k, rfl⟩ := Nat.exists_eq_add_of_le (Nat.le_of_not_le hn)
      have takeBlock : ∀ {A R : Bytes}, A.length = bs → (A ++ R).take (bs + k) = A ++ R.take k := by
        rintro A R rfl
        exact List.take_length_add_append k
      rw [takeBlock hP, takeBlock hP'] at htake
      obtain ⟨rfl, hrest⟩ := List.append_inj htake (hP.trans hP'.symm)
      rw [takeBlock (hxor P hP), takeBlock (hxor P hP),
        streamBlocks_take hE mode op (nextChain_length hE mode op hX hP) hl hl' (Nat.succ.inj hlen) hrest]

/-! ## Every mode -/

/-- Decryption undoes encryption on whole blocks, in every mode (R201 to R209). -/
theorem modeDec_modeEnc {E D : Bytes → Bytes} {bs : Nat} (hbs : 1 ≤ bs)
    (hE : ∀ b : Bytes, b.length = bs → (E b).length = bs) (hD : ∀ b : Bytes, b.length = bs → D (E b) = b) (mode : Mode)
    {data iv : Bytes} (hdata : data.length % bs = 0) (hiv : mode = .ecb ∨ iv.length = bs) :
    modeDec mode E D bs (modeEnc mode E bs data iv) iv = data := by
  have stream : ∀ m : StreamMode, iv.length = bs →
      modeDec m.toMode E D bs (modeEnc m.toMode E bs data iv) iv = data := fun m h => by
    rw [modeDec_stream, modeEnc_stream, streamBlocks_dec_enc hbs hE m h blocks_mem, blocks_flatten hdata]
  cases mode with
  | ecb => exact (flatMap_blocks_flatMap hbs hE hD blocks_mem).trans (blocks_flatten hdata)
  | cbc => exact (cbcDec_cbcEnc hbs hE hD (hiv.resolve_left (by decide)) blocks_mem).trans (blocks_flatten hdata)
  | cfb => exact stream .cfb (hiv.resolve_left (by decide))
  | ofb => exact stream .ofb (hiv.resolve_left (by decide))
  | ctr => exact stream .ctr (hiv.resolve_left (by decide))

/-- The first `n` bytes of a stream mode's decryption depend on the first `n` bytes of its data only. -/
theorem modeDec_stream_take {E : Bytes → Bytes} {bs : Nat} (hE : ∀ b : Bytes, b.length = bs → (E b).length = bs)
    (mode : StreamMode) (D : Bytes → Bytes) {d d' iv : Bytes} {n : Nat} (hiv : iv.length = bs) (hd : d.length % bs = 0)
    (hlen : d.length = d'.length) (htake : d.take n = d'.take n) :
    (modeDec mode.toMode E D bs d iv).take n = (modeDec mode.toMode E D bs d' iv).take n := by
  rw [modeDec_stream, modeDec_stream]
  apply streamBlocks_take hE mode .dec hiv blocks_mem blocks_mem
  · rw [blocks_length, blocks_length, hlen]
  · rw [blocks_flatten hd, blocks_flatten (hlen ▸ hd), htake]

/-! ## `Run` on a message of any length -/

/-- A stream mode gives the message back: the ciphertext's truncated bytes reach only the bytes that decryption truncates
(R211). -/
theorem runStream_dec_enc {f : BlockFns} {bs : Nat} (hbs : 1 ≤ bs)
    (hE : ∀ b : Bytes, b.length = bs → (f.enc b).length = bs) (hD : ∀ b : Bytes, b.length = bs → f.dec (f.enc b) = b)
    (mode : StreamMode) (msg : Bytes) {iv : Bytes} (hiv : iv.length = bs) :
    runStream .dec mode.toMode f bs (runStream .enc mode.toMode f bs msg iv) iv = msg := by
  have hwhole := zeroExtend_length hbs msg
  have hcipher : (modeEnc mode.toMode f.enc bs (zeroExtend bs msg) iv).length = (zeroExtend bs msg).length := by
    rw [modeEnc_length hE _ _ (.inr hiv), Nat.div_mul_cancel (Nat.dvd_of_mod_eq_zero hwhole)]
  have hlen : (runStream .enc mode.toMode f bs msg iv).length = msg.length := by
    rw [runStream, List.length_take, hcipher]
    simp [zeroExtend]
  have hext : (zeroExtend bs (runStream .enc mode.toMode f bs msg iv)).length = (zeroExtend bs msg).length := by
    simp only [zeroExtend, List.length_append, zeros_length, hlen]
  have htrunc : (zeroExtend bs (runStream .enc mode.toMode f bs msg iv)).take msg.length =
      (modeEnc mode.toMode f.enc bs (zeroExtend bs msg) iv).take msg.length := by
    rw [zeroExtend, List.take_left' hlen, runStream]
  calc
    runStream .dec mode.toMode f bs (runStream .enc mode.toMode f bs msg iv) iv
      = (modeDec mode.toMode f.enc f.dec bs (zeroExtend bs (runStream .enc mode.toMode f bs msg iv)) iv).take
          msg.length := by conv_rhs => rw [← hlen, ← runStream]
    _ = (modeDec mode.toMode f.enc f.dec bs (modeEnc mode.toMode f.enc bs (zeroExtend bs msg) iv) iv).take msg.length :=
      modeDec_stream_take hE mode f.dec hiv (by rw [hext]; exact hwhole) (hext.trans hcipher.symm) htrunc
    _ = msg := by rw [modeDec_modeEnc hbs hE hD _ hwhole (.inr hiv), zeroExtend, List.take_left]

/-- A block mode under a padding that can be removed gives the message back, and its ciphertext is whole blocks (R189,
R212). -/
theorem runBlock_dec_enc {f : BlockFns} {bs : Nat} (hbs : 1 ≤ bs ∧ bs ≤ 64)
    (hE : ∀ b : Bytes, b.length = bs → (f.enc b).length = bs) (hD : ∀ b : Bytes, b.length = bs → f.dec (f.enc b) = b)
    {m : Mode} {p : Padding} (hp : p ≠ .zero ∧ p ≠ .random) {msg iv out : Bytes} (hiv : m = .ecb ∨ iv.length = bs)
    {draw : Nat → Byte} (h : runBlock .enc m p f bs msg iv draw = .ok out) (draw' : Nat → Byte) :
    runBlock .dec m p f bs out iv draw' = .ok msg ∧ out.length % bs = 0 := by
  rw [runBlock] at h
  rcases applyPadding_cases hbs.1 msg p draw with ⟨-, -, ha⟩ | ⟨-, tail, ha, -, hwhole⟩
  · rw [ha] at h
    cases h
  · rw [ha] at h
    cases h
    refine ⟨?_, ?_⟩
    · rw [runBlock, modeDec_modeEnc hbs.1 hE hD m hwhole hiv]
      exact removePadding_applyPadding hbs.1 hbs.2 hp ha
    · rw [modeEnc_length hE m _ hiv, Nat.mul_mod_left]

/-! ## `Run` by its mode -/

/-- Only a command that passes `Validate` has an output (R231). -/
theorem validate_of_run_ok {q : Request} {msgMax : Nat} {l : Latch} {draw : Nat → Byte} {out : Bytes}
    (h : run q msgMax l draw = .ok out) : validate q msgMax l = none := by
  unfold run at h
  split at h
  · cases h
  · assumption

theorem run_block {q : Request} {msgMax : Nat} {l : Latch} (hv : validate q msgMax l = none) {b : BlockMode} {p : Padding}
    (hm : q.mode = .block b (.scheme p)) (draw : Nat → Byte) :
    run q msgMax l draw = runBlock q.op b.toMode p (q.cipher.blockFns l.key) q.cipher.blockSize l.msg
      (l.iv.take q.cipher.blockSize) draw := by
  simp only [run, hv, hm]

theorem run_stream {q : Request} {msgMax : Nat} {l : Latch} (hv : validate q msgMax l = none) {m : StreamMode}
    (hm : q.mode = .stream m) (draw : Nat → Byte) :
    run q msgMax l draw = .ok (runStream q.op m.toMode (q.cipher.blockFns l.key) q.cipher.blockSize l.msg
      (l.iv.take q.cipher.blockSize)) := by
  simp only [run, hv, hm]

/-- The latched message is as long as INLEN says, once `Validate` has passed it (R230, R271). -/
theorem msg_length_of_validate {q : Request} {msgMax : Nat} {l : Latch} (hl : LatchSized msgMax l)
    (hv : validate q msgMax l = none) : l.msg.length = l.inlen.toNat := by
  obtain ⟨-, -, hmsg⟩ := hl
  obtain ⟨-, -, -, -, hin, -, -⟩ := validate_none hv
  rw [hmsg, Nat.min_eq_left hin]

/-- The chaining register starts as a block, in every mode but ECB (R265, R271). -/
theorem ivBlock_length {q : Request} {msgMax : Nat} {l : Latch} (hl : LatchSized msgMax l)
    (hv : validate q msgMax l = none) :
    (∃ p, q.mode = .block .ecb p) ∨ (l.iv.take q.cipher.blockSize).length = q.cipher.blockSize := by
  obtain ⟨hw, -, -, hiv, -, -, -⟩ := validate_none hv
  obtain ⟨-, h64⟩ := blockSize_bounds hw
  obtain ⟨-, hlatched, -⟩ := hl
  have hblock : l.ivlen.toNat = q.cipher.blockSize → (l.iv.take q.cipher.blockSize).length = q.cipher.blockSize := by
    intro h
    rw [List.length_take, hlatched, h, Nat.min_eq_left h64, Nat.min_self]
  cases hm : q.mode with
  | block b p =>
    cases b with
    | ecb => exact .inl ⟨p, rfl⟩
    | cbc => exact .inr (hblock (by simpa [ModeArgs.ivLengthOk, hm] using hiv))
  | stream m => exact .inr (hblock (by simpa [ModeArgs.ivLengthOk, hm] using hiv))

/-! ## A decrypt command runs on what the encrypt command gave -/

theorem wselWidth_mem_wordSizes (z : WordSize) : wselWidth (.size z) ∈ wordSizes := by cases z <;> decide

/-- The block functions of a legal word size undo each other (41_cipher_a.md R132, 42_cipher_b.md R159). -/
theorem blockFns_dec_enc {c : CipherArgs} (hc : c.wordSizeOk = true) (key : Bytes) {block : Bytes}
    (hb : block.length = c.blockSize) : (c.blockFns key).dec ((c.blockFns key).enc block) = block := by
  cases c with
  | a => exact decA_encA _ hb
  | b wsel r =>
    cases wsel with
    | size z => exact decB_encB (wselWidth_mem_wordSizes z) _ _ hb
    | unsupported c => cases hc

/-- The modes whose padding decryption removes again (R189): the stream modes, and the block modes with NO, PKCS5 or BIT. -/
inductive ReversibleMode : ModeArgs → Prop
  | block (b : BlockMode) {p : Padding} (hp : p ≠ .zero ∧ p ≠ .random) : ReversibleMode (.block b (.scheme p))
  | stream (m : StreamMode) : ReversibleMode (.stream m)

theorem reversible_request {i : Instr} (h : reversible i = true) :
    (requestOf i).op = .enc ∧ ReversibleMode (requestOf i).mode := by
  cases i with
  | aEncEcb p | aEncCbc p | bEncEcb p _ _ | bEncCbc p _ _ =>
    cases p with
    | scheme p => exact ⟨rfl, .block _ (of_decide_eq_true h)⟩
    | unrecognized c => cases h
  | bEncCfb | bEncOfb | bEncCtr => exact ⟨rfl, .stream _⟩
  | _ => cases h

/-- The decrypt command has the same operands. -/
theorem requestOf_decryptOf (i : Instr) : requestOf (decryptOf i) = { requestOf i with op := .dec } := by
  cases i <;> rfl

/-- The latch `l'` holds the key and the IV of `l`, and the bytes `msg` as its message. -/
structure HoldsUnderSameKey (l l' : Latch) (msg : Bytes) : Prop where
  key : l'.key = l.key
  keylen : l'.keylen = l.keylen
  iv : l'.iv = l.iv
  ivlen : l'.ivlen = l.ivlen
  inlen : l'.inlen.toNat = msg.length
  msg : l'.msg = msg

/-- `Validate` passes the decryption of a message that fits IN, in whole blocks where the mode asks for them (R271). -/
theorem validate_dec {q : Request} {msgMax : Nat} {l l' : Latch} {c : Bytes} (hv : validate q msgMax l = none)
    (hl' : HoldsUnderSameKey l l' c) (hfit : c.length ≤ msgMax)
    (hblocks : ∀ b p, q.mode = .block b p → c.length % q.cipher.blockSize = 0) :
    validate { q with op := .dec } msgMax l' = none := by
  obtain ⟨hw, hp, hk, hiv, -, -, -⟩ := validate_none hv
  have hmax : ¬ l'.inlen.toNat > msgMax := by rw [hl'.inlen]; exact Nat.not_lt.mpr hfit
  have hc : Request.ciphertextLengthOk { q with op := .dec } l'.inlen.toNat = true := by
    rw [hl'.inlen]
    unfold Request.ciphertextLengthOk
    split
    · rename_i hm
      exact decide_eq_true (hblocks _ _ hm)
    · rfl
    · rfl
  simp [validate, hw, hp, hl'.keylen, hk, hl'.ivlen, hiv, hmax, hc, Request.noPaddingOk]

/-- Decryption gives back the message of an encryption that a decryption can undo. -/
theorem run_dec_enc {q : Request} {msgMax : Nat} {l l' : Latch} {draw : Nat → Byte} {c : Bytes} (hq : q.op = .enc)
    (hrev : ReversibleMode q.mode) (hl : LatchSized msgMax l) (hl' : HoldsUnderSameKey l l' c) (hfit : c.length ≤ msgMax)
    (h : run q msgMax l draw = .ok c) (draw' : Nat → Byte) : run { q with op := .dec } msgMax l' draw' = .ok l.msg := by
  have hv := validate_of_run_ok h
  obtain ⟨hw, -⟩ := validate_none hv
  have hbs := blockSize_bounds hw
  have hE := fun (b : Bytes) (_ : b.length = q.cipher.blockSize) => (blockFns_length q.cipher l.key b).1
  have hD := fun (b : Bytes) (hb : b.length = q.cipher.blockSize) => blockFns_dec_enc hw l.key hb
  have hiv := ivBlock_length hl hv
  obtain ⟨op, cipher, mode⟩ := q
  cases hq
  cases hrev with
  | block b hp =>
    have hblock : b.toMode = .ecb ∨ (l.iv.take cipher.blockSize).length = cipher.blockSize := by
      refine hiv.imp_left ?_
      rintro ⟨p, hecb⟩
      cases hecb
      rfl
    rw [run_block hv rfl] at h
    obtain ⟨hdec, hwhole⟩ := runBlock_dec_enc hbs hE hD hp hblock h draw'
    rw [run_block (validate_dec hv hl' hfit fun _ _ _ => hwhole) rfl, hl'.key, hl'.msg, hl'.iv]
    exact hdec
  | stream m =>
    have hblock : (l.iv.take cipher.blockSize).length = cipher.blockSize := by
      refine hiv.resolve_left ?_
      rintro ⟨p, hecb⟩
      cases hecb
    rw [run_stream hv rfl] at h
    cases h
    rw [run_stream (validate_dec hv hl' hfit fun b p hb => by cases hb) rfl, hl'.key, hl'.msg, hl'.iv]
    exact congrArg Except.ok (runStream_dec_enc hbs.1 hE hD m l.msg hblock)

/-! ## Through the whole machine -/

theorem exec_busy (i : Instr) {s : State} {l : Latch} (h : s.seq = .busy l) :
    exec i s = .next (s.complete (run (requestOf i) s.config.msgMax l (Config.entropy s.serial))) := by
  rw [exec_eq, runCommand_busy _ h]

/-- A completion without an error is that of an output. -/
theorem eq_ok_of_complete_err {s : State} {r : Except CmdError Bytes} (h : (s.complete r).err = none) :
    ∃ out, r = .ok out := by
  cases r with
  | ok out => exact ⟨out, rfl⟩
  | error e => cases h

/-- Settles O39: the output that the host copies into IN is what `Run` gave, and the decryption's `Run` gives the message
back, which is what the second completion leaves in OUT. -/
theorem decryptGivesBackTheMessage : Obligations.DecryptGivesBackTheMessage := by
  intro i s t s' l l' hrev hi hs hexec herr hi' hs' hconfig hkey hkeylen hiv hivlen hinlen hmsg hfit
  obtain ⟨hop, hmode⟩ := reversible_request hrev
  have hl := sized_of_inv hi hs
  obtain ⟨hwf, hmem, -⟩ := hi
  obtain ⟨hwf', hmem', -⟩ := hi'
  cases (exec_busy i hs).symm.trans hexec
  obtain ⟨c, hc⟩ := eq_ok_of_complete_err herr
  rw [hc] at hinlen hmsg hfit
  have hout : memBytes (s.complete (.ok c)).mem outBase (s.complete (.ok c)).outlen.toNat = c :=
    output_complete hmem hwf (run_length hl hc)
  have hlen : (s.complete (.ok c)).outlen.toNat = c.length := (memBytes_length _ _ _).symm.trans (congrArg List.length hout)
  have hdec := run_dec_enc hop hmode hl
    { key := hkey, keylen := hkeylen, iv := hiv, ivlen := hivlen, inlen := by rw [hinlen, hlen], msg := hmsg.trans hout }
    (hlen ▸ hfit) hc (Config.entropy s'.serial)
  have hsize := msg_length_of_validate hl (validate_of_run_ok hc)
  obtain ⟨-, -, hlatched⟩ := hl
  refine ⟨s'.completeOk l.msg, ?_, rfl, ?_, output_complete (r := .ok l.msg) hmem' hwf' ?_⟩
  · rw [exec_busy _ hs', requestOf_decryptOf, hconfig, hdec, complete_ok]
  · rw [completeOk_outlen, hsize, BitVec.ofNat_toNat, BitVec.setWidth_eq]
  · rw [hconfig]
    exact Nat.le_add_right_of_le (hlatched.trans_le (Nat.min_le_right _ _))

end Sys2Proof.Machine
end

section
/-! PROOFS. The modes of operation (spec/44_modes.md R201 to R211): each mode as its rule's loop over the chaining register's
values, the counter's increment, the round trip on whole blocks, and the truncation of the stream modes. -/

namespace Sys2Proof.Machine

open Sys2Proof.Spec

/-! ## Blocks by their number, and the chaining register (R201, R213) -/

/-- Block `k` of a sequence (R201). -/
def blockAt (bs : Nat) (data : Bytes) (k : Nat) : Bytes := (data.drop (k * bs)).take bs

/-- The chaining register in front of block `k`: it starts at the IV, and `next` gives its following value from its value and
the block (R213). -/
def chainAt (next : Bytes → Bytes → Bytes) (iv : Bytes) (P : Nat → Bytes) : Nat → Bytes
  | 0 => iv
  | k + 1 => next (chainAt next iv P k) (P k)

theorem blocksOf_eq_map (bs : Nat) : ∀ (n : Nat) (data : Bytes), blocksOf bs n data = (List.range n).map (blockAt bs data)
  | 0, _ => rfl
  | n + 1, data => by
    have hshift : blockAt bs (data.drop bs) = blockAt bs data ∘ Nat.succ := by
      funext k
      rw [Function.comp_apply, blockAt, blockAt, List.drop_drop, Nat.succ_mul, Nat.add_comm bs]
    rw [blocksOf, blocksOf_eq_map bs n, hshift, List.range_succ_eq_map, List.map_cons, List.map_map, blockAt, Nat.zero_mul,
      List.drop_zero]

theorem blocks_eq_map {bs N : Nat} {data : Bytes} (hbs : 1 ≤ bs) (hdata : data.length = N * bs) :
    blocks bs data = (List.range N).map (blockAt bs data) := by
  rw [blocks, hdata, Nat.mul_div_cancel _ hbs, blocksOf_eq_map]

/-- The register's values behind the first block are those of a chain that starts there. -/
theorem chainAt_succ (next : Bytes → Bytes → Bytes) (iv : Bytes) (P : Nat → Bytes) :
    ∀ k, chainAt next iv P (k + 1) = chainAt next (next iv (P 0)) (P ∘ Nat.succ) k
  | 0 => rfl
  | k + 1 => by rw [chainAt, chainAt_succ next iv P k]; rfl

/-- What a mode outputs that puts out `out X P` and continues with `next X P` at register `X` and block `P`. -/
theorem loop_eq_flatMap_chainAt {F : Bytes → List Bytes → Bytes} {out next : Bytes → Bytes → Bytes}
    (hnil : ∀ X, F X [] = []) (hcons : ∀ X P l, F X (P :: l) = out X P ++ F (next X P) l) :
    ∀ (n : Nat) (iv : Bytes) (P : Nat → Bytes),
      F iv ((List.range n).map P) = (List.range n).flatMap fun k => out (chainAt next iv P k) (P k)
  | 0, iv, _ => hnil iv
  | n + 1, iv, P => by
    rw [List.range_succ_eq_map, List.map_cons, hcons, List.map_map, loop_eq_flatMap_chainAt hnil hcons n, List.flatMap_cons,
      List.flatMap_map]
    simp only [← chainAt_succ]
    rfl

theorem xorBytes_getD {x y : Bytes} (h : x.length = y.length) {k : Nat} (hk : k < x.length) :
    (xorBytes x y).getD k 0 = x.getD k 0 ^^^ y.getD k 0 := by
  rw [List.getD_eq_getElem _ _ (by rw [xorBytes_length]; omega), List.getD_eq_getElem _ _ hk,
    List.getD_eq_getElem _ _ (h ▸ hk)]
  exact List.getElem_zipWith

/-- Settles O56: on N whole blocks a mode's recursion over the list of blocks is its rule's loop, whose chaining values are
those of `chainAt`. -/
theorem modeRules : Obligations.ModeRules := by
  refine ⟨fun x y h => ⟨by rw [xorBytes_length, h, Nat.min_self], fun k hk => xorBytes_getD h hk⟩, ?_⟩
  intro E D bs N data iv hbs hdata
  have hblocks := blocks_eq_map hbs hdata
  have ecb (f : Bytes → Bytes) : (blocks bs data).flatMap f = (List.range N).flatMap fun k => f (blockAt bs data k) := by
    rw [hblocks, List.flatMap_map]
  have chained {F : Bytes → List Bytes → Bytes} {out next : Bytes → Bytes → Bytes} (hnil : ∀ X, F X [] = [])
      (hcons : ∀ X P l, F X (P :: l) = out X P ++ F (next X P) l) : F iv (blocks bs data) =
        (List.range N).flatMap fun k => out (chainAt next iv (blockAt bs data) k) (blockAt bs data k) := by
    rw [hblocks, loop_eq_flatMap_chainAt hnil hcons]
  refine ⟨ecb E, ecb D, ?_, ?_, ?_, ?_, ?_, ?_⟩
  · exact ⟨chainAt (fun X P => E (xorBytes P X)) iv (blockAt bs data), rfl, fun _ _ => rfl,
      chained (F := cbcEnc E) (fun _ => rfl) fun _ _ _ => rfl⟩
  · exact ⟨chainAt (fun _ P => P) iv (blockAt bs data), rfl, fun _ _ => rfl,
      chained (F := cbcDec D) (out := fun X P => xorBytes (D P) X) (fun _ => rfl) fun _ _ _ => rfl⟩
  · exact ⟨chainAt (fun X P => xorBytes (E X) P) iv (blockAt bs data), rfl, fun _ _ => rfl,
      chained (F := cfbEnc E) (fun _ => rfl) fun _ _ _ => rfl⟩
  · exact ⟨chainAt (fun _ P => P) iv (blockAt bs data), rfl, fun _ _ => rfl,
      chained (F := cfbDec E) (out := fun X P => xorBytes (E X) P) (fun _ => rfl) fun _ _ _ => rfl⟩
  · exact ⟨chainAt (fun X _ => E X) iv (blockAt bs data), rfl, fun _ _ => rfl,
      chained (F := ofb E) (out := fun X P => xorBytes (E X) P) (fun _ => rfl) fun _ _ _ => rfl, rfl⟩
  · exact ⟨chainAt (fun X _ => incBlock X) iv (blockAt bs data), rfl, fun _ _ => rfl,
      chained (F := ctrMode E) (out := fun X P => xorBytes (E X) P) (fun _ => rfl) fun _ _ _ => rfl, rfl⟩

/-! ## The counter (R210) -/

/-- A byte that does not wrap takes the 1; a byte that wraps is 255, becomes 0 and carries. -/
theorem incBlock_cons_cases (b : Byte) (s : Bytes) :
    (b.toNat < 255 ∧ ∃ c : Byte, c.toNat = b.toNat + 1 ∧ incBlock (b :: s) = c :: s) ∨
    (b.toNat = 255 ∧ incBlock (b :: s) = 0 :: incBlock s) := by
  by_cases h : b.toNat = 255
  · obtain rfl : b = 255 := BitVec.eq_of_toNat_eq h
    exact .inr ⟨rfl, rfl⟩
  · have hlt : b.toNat < 255 := by have := b.isLt; omega
    have hsucc : (b + 1).toNat = b.toNat + 1 := by bv_omega
    have hne : b + 1 ≠ 0 := by
      intro h0
      rw [h0] at hsucc
      cases hsucc
    exact .inl ⟨hlt, b + 1, hsucc, if_pos hne⟩

/-- The block read as a little-endian integer is one more, modulo its range. -/
theorem bytesToWordLE_incBlock : ∀ X : Bytes,
    bytesToWordLE (incBlock X) = (bytesToWordLE X + 1) % 2 ^ (8 * X.length)
  | [] => rfl
  | b :: s => by
    have hrange : 2 ^ (8 * (b :: s).length) = 256 * 2 ^ (8 * s.length) := by
      rw [List.length_cons, Nat.mul_succ, Nat.pow_add, Nat.mul_comm]
    rw [hrange, bytesToWordLE]
    rcases incBlock_cons_cases b s with ⟨hlt, c, hc, hinc⟩ | ⟨h255, hinc⟩ <;> rw [hinc, bytesToWordLE]
    · have hs := bytesToWordLE_lt s
      rw [hc, Nat.mod_eq_of_lt (by omega)]
      omega
    · rw [bytesToWordLE_incBlock s, h255, ← Nat.mul_mod_mul_left, show
        255 + 256 * bytesToWordLE s + 1 = 256 * (bytesToWordLE s + 1) by omega]
      exact Nat.zero_add _

/-- Settles O57, by induction on the block: the carry out of byte 0 is the increment of the bytes behind it. -/
theorem counterIncrement : Obligations.CounterIncrement := fun X => ⟨incBlock_length X, bytesToWordLE_incBlock X⟩

/-! ## The round trip (R202 to R209) -/

/-- Settles O58: each mode's round trip is `modeDec_modeEnc`, and its output is as long as the whole blocks of its input. -/
theorem modesInvert : Obligations.ModesInvert := by
  intro E D bs hbs hE hD mode data iv hdata hiv
  refine ⟨modeDec_modeEnc hbs hE hD mode hdata (.inr hiv), ?_⟩
  rw [modeEnc_length hE mode data (.inr hiv), Nat.div_mul_cancel (Nat.dvd_of_mod_eq_zero hdata)]

/-! ## The stream modes on a message of any length (R211) -/

section Truncation

variable {E : Bytes → Bytes} {bs : Nat}

theorem streamBlocks_append (next : Bytes → Bytes → Bytes) (l2 : List Bytes) :
    ∀ (l1 : List Bytes) (X : Bytes),
      streamBlocks E next X (l1 ++ l2) = streamBlocks E next X l1 ++ streamBlocks E next (l1.foldl next X) l2
  | [], _ => rfl
  | P :: l1, X => by
    rw [List.cons_append, streamBlocks, streamBlocks_append next l2 l1, streamBlocks, List.append_assoc, List.foldl_cons]

theorem streamBlocks_length (hE : ∀ b : Bytes, (E b).length = bs) (next : Bytes → Bytes → Bytes) :
    ∀ {l : List Bytes} {X : Bytes}, (∀ b ∈ l, b.length = bs) → (streamBlocks E next X l).length = l.flatten.length
  | [], _, _ => rfl
  | P :: l, X, h => by
    obtain ⟨hP, hl⟩ := List.forall_mem_cons.mp h
    rw [streamBlocks, List.length_append, xorBytes_length, hE, hP, Nat.min_self, streamBlocks_length hE next hl,
      List.flatten_cons, List.length_append, hP]

/-- A partial block `t`, extended by `z` to a whole one, comes out as `t` under the first bytes of `E` of the register once it
is cut again; without a partial block there is nothing to extend. -/
theorem streamBlocks_partial (hbs : 1 ≤ bs) (next : Bytes → Bytes → Bytes) (X : Bytes) {t z : Bytes} (ht : t.length < bs)
    (hz : z.length = (bs - t.length) % bs) :
    (streamBlocks E next X (blocks bs (t ++ z))).take t.length = xorBytes ((E X).take t.length) t := by
  cases t with
  | nil => rw [List.length_nil, List.take_zero, xorBytes_nil_right]
  | cons b s =>
    have hblock : (b :: s ++ z).length = bs := by
      rw [List.length_cons] at ht hz
      rw [List.length_append, List.length_cons, hz, Nat.mod_eq_of_lt (by omega)]
      omega
    have hone : blocks bs (b :: s ++ z) = [b :: s ++ z] := by
      rw [← List.append_nil (b :: s ++ z), blocks_cons hbs hblock, blocks_short (data := []) hbs, List.append_nil]
    rw [hone, streamBlocks, streamBlocks, List.append_nil, xorBytes_take, List.take_left]

/-- A message is whole blocks and a partial block. -/
theorem exists_whole_append_partial (bs : Nat) (m : Bytes) :
    ∃ w t : Bytes, m = w ++ t ∧ w.length % bs = 0 ∧ t.length = m.length % bs := by
  have hwhole : (m.take (m.length / bs * bs)).length = m.length / bs * bs := by
    rw [List.length_take, Nat.min_eq_left (Nat.div_mul_le_self _ _)]
  refine ⟨m.take (m.length / bs * bs), m.drop (m.length / bs * bs), (List.take_append_drop _ _).symm, ?_, ?_⟩
  · rw [hwhole, Nat.mul_mod_left]
  · rw [List.length_drop, Nat.mod_eq_sub, Nat.mul_comm]

/-- The output on an extended message, cut to the message: the whole blocks `w` as they are, then the partial block `t` under
the first bytes of `E` of the register. The extension `z` is not in it. -/
theorem streamBlocks_take_extended (hbs : 1 ≤ bs) (hE : ∀ b : Bytes, (E b).length = bs) (next : Bytes → Bytes → Bytes)
    (X : Bytes) {w t z : Bytes} (hw : w.length % bs = 0) (ht : t.length < bs) (hz : z.length = (bs - t.length) % bs) :
    (streamBlocks E next X (blocks bs (w ++ t ++ z))).take (w ++ t).length =
      streamBlocks E next X (blocks bs w) ++ xorBytes ((E ((blocks bs w).foldl next X)).take t.length) t := by
  have hlen : (streamBlocks E next X (blocks bs w)).length = w.length := by
    rw [streamBlocks_length hE next blocks_mem, blocks_flatten hw]
  rw [List.append_assoc, blocks_append hbs hw, streamBlocks_append, List.length_append, ← hlen, List.take_length_add_append,
    streamBlocks_partial hbs next _ ht hz]

/-- Cut to the message, the output is as long as the message and the same for every extension. -/
theorem streamBlocks_extended (hbs : 1 ≤ bs) (hE : ∀ b : Bytes, (E b).length = bs) (next : Bytes → Bytes → Bytes)
    (X : Bytes) {m z z' : Bytes} (hz : z.length = (bs - m.length % bs) % bs) (hz' : z'.length = z.length) :
    ((streamBlocks E next X (blocks bs (m ++ z))).take m.length).length = m.length ∧
      (streamBlocks E next X (blocks bs (m ++ z))).take m.length =
        (streamBlocks E next X (blocks bs (m ++ z'))).take m.length := by
  obtain ⟨w, t, rfl, hw, ht⟩ := exists_whole_append_partial bs m
  have hlt : t.length < bs := ht ▸ Nat.mod_lt _ hbs
  rw [← ht] at hz
  rw [streamBlocks_take_extended hbs hE next X hw hlt hz, streamBlocks_take_extended hbs hE next X hw hlt (hz'.trans hz)]
  refine ⟨?_, rfl⟩
  rw [List.length_append, List.length_append, streamBlocks_length hE next blocks_mem, blocks_flatten hw, xorBytes_length,
    List.length_take, hE, Nat.min_eq_left hlt.le, Nat.min_self]

end Truncation

/-- Settles O59: only the last block holds extension bytes, and the cut takes off exactly the bytes under which they come
out. -/
theorem streamModesTruncate : Obligations.StreamModesTruncate := by
  intro E D bs hbs hE mode op m iv z hz
  have hext := streamBlocks_extended hbs hE (nextChain E mode op) iv (m := m) (z := zeros ((bs - m.length % bs) % bs))
    (z' := z) (zeros_length _) (hz.trans (zeros_length _).symm)
  cases op with
  | enc => rwa [runStream, modeEnc_stream, modeEnc_stream]
  | dec => rwa [runStream, modeDec_stream, modeDec_stream]

end Sys2Proof.Machine
end

section
/-! PROOFS. The commands as wholes (spec/45_commands.md R230 to R233): what acceptance latches, what a completion leaves of
the machine, and that only encryption with RANDOM padding draws. -/

namespace Sys2Proof.Machine

open Sys2Proof.Spec

/-! ## Acceptance (R230) -/

theorem writeWord_cmd (s : State) (v : Word32) : writeWord s 0 v = s.accept v := rfl

/-- The host reads an input byte as it is stored, BUSY or not (20_memory.md R53). -/
theorem readByte_input {s : State} {off : Nat} (h : isInput s.config off = true) : readByte s off = memRead s.mem off :=
  if_pos h

/-- Bytes taken from an input buffer are those that the host reads there. -/
theorem memBytes_getD_input {s : State} {a n : Nat} (h : ∀ i < n, isInput s.config (a + i) = true) :
    ∀ i < (memBytes s.mem a n).length, (memBytes s.mem a n).getD i 0 = readByte s (a + i) := by
  rw [memBytes_length]
  intro i hi
  rw [memBytes_getD _ _ _ _ hi, readByte_input (h i hi)]

/-- Settles O15: the write to CMD is the acceptance, and each latched sequence lies in its buffer. -/
theorem acceptanceLatchesTheInputs : Obligations.AcceptanceLatchesTheInputs := by
  intro s addr v hs hf ha
  obtain ⟨hkey, hiv, hmsg⟩ := latchOf_sized s v
  refine ⟨latchOf s v, hostAccess_write32_idle hs hf ha v, rfl, rfl, rfl, rfl, hkey, ?_, hiv, ?_, hmsg, ?_⟩
  · exact memBytes_getD_input fun i hi => by rw [isInput_iff]; unfold keyBase; unfold keySize at hi; omega
  · exact memBytes_getD_input fun i hi => by rw [isInput_iff]; unfold ivBase; unfold ivSize at hi; omega
  · exact memBytes_getD_input fun i hi => by rw [isInput_iff]; unfold inBase; omega

/-! ## What a completion leaves (R232) -/

/-- A command's output fits OUT, and an error has none. -/
theorem outBytesOf_run_length {msgMax : Nat} {l : Latch} (hl : LatchSized msgMax l) (q : Request) (draw : Nat → Byte) :
    (outBytesOf (run q msgMax l draw)).length ≤ msgMax + 64 := by
  cases h : run q msgMax l draw with
  | ok out => exact run_length hl h
  | error e => exact Nat.zero_le _

theorem outBytesOf_latchResult_length {msgMax : Nat} {l : Latch} (hl : LatchSized msgMax l) (draw : Nat → Byte) :
    (outBytesOf (latchResult msgMax l draw)).length ≤ msgMax + 64 := by
  unfold latchResult
  split
  · exact outBytesOf_run_length hl _ draw
  · exact Nat.zero_le _

/-- `t` differs from `s` at most in OUT, OUTLEN, STATUS, the sequencer, the internal stores and the model's counter. -/
structure SameButOutput (s t : State) : Prop where
  config : t.config = s.config
  keylen : t.keylen = s.keylen
  ivlen : t.ivlen = s.ivlen
  inlen : t.inlen = s.inlen
  hostFault : t.hostFault = s.hostFault
  responses : t.responses = s.responses
  inputs : t.inputs = s.inputs
  mem : ∀ x, ¬ (outBase ≤ x ∧ x < outBase + outSize s.config) → memRead t.mem x = memRead s.mem x

theorem sameButOutput_refl (s : State) : SameButOutput s s := ⟨rfl, rfl, rfl, rfl, rfl, rfl, rfl, fun _ _ => rfl⟩

theorem sameButOutput_complete {s : State} {r : Except CmdError Bytes} (hm : memWf s.mem = true)
    (hfit : (outBytesOf r).length ≤ outSize s.config) : SameButOutput s (s.complete r) := by
  rw [complete_eq]
  exact ⟨rfl, rfl, rfl, rfl, rfl, rfl, rfl, fun _ hx => memRead_writeOut_outside s.config hm hfit hx⟩

/-- OUT after a completion: the output, then zeros. -/
theorem outByte_complete {s : State} (hm : memWf s.mem = true) (r : Except CmdError Bytes) {k : Nat}
    (hk : k < outSize s.config) : outByte (s.complete r) k = (outBytesOf r).getD k 0 := by
  rw [complete_eq]
  exact memRead_writeOut_out s.config _ hm hk

theorem status_completeOk (s : State) (out : Bytes) : (s.completeOk out).status = 2 := by
  simp [State.status, errField]

theorem status_completeError (s : State) (e : CmdError) :
    (s.completeError e).status = 2 + ((errorCode e).setWidth 32 <<< 4) := by
  cases e <;> simp [State.status, errField, errorCode]

/-- Settles O29: a command is nothing from IDLE and a completion from BUSY. -/
theorem commandFrame : Obligations.CommandFrame := by
  intro i s t hi h
  have frame : SameButOutput s t ∧ (s.seq = .idle → t = s) := by
    rcases exec_cases h with ⟨-, rfl⟩ | ⟨l, hb, rfl⟩
    · exact ⟨sameButOutput_refl _, fun _ => rfl⟩
    · have hl := sized_of_inv hi hb
      obtain ⟨-, hm, -⟩ := hi
      exact ⟨sameButOutput_complete hm (outBytesOf_run_length hl _ _), fun hs => by cases hs.symm.trans hb⟩
  obtain ⟨⟨hconfig, hkey, hiv, hin, hfault, hresp, hinputs, hmem⟩, hidle⟩ := frame
  exact ⟨hconfig, hkey, hiv, hin, hfault, hresp, hinputs, hmem, hidle⟩

/-! ## Which commands draw (R233, 43_padding.md R184) -/

/-- Only encryption with RANDOM padding reads the entropy. -/
theorem runBlock_draw {op : Op} {p : Padding} (h : op = .enc → p ≠ .random) (m : Mode) (f : BlockFns) (bs : Nat)
    (msg iv : Bytes) (draw draw' : Nat → Byte) : runBlock op m p f bs msg iv draw = runBlock op m p f bs msg iv draw' := by
  cases op with
  | enc => rw [runBlock, runBlock, applyPadding_draw msg bs draw draw' (h rfl)]
  | dec => rfl

theorem run_draw {q : Request} (h : q.op = .enc → ∀ b, q.mode ≠ .block b (.scheme .random)) (msgMax : Nat) (l : Latch)
    (draw draw' : Nat → Byte) : run q msgMax l draw = run q msgMax l draw' := by
  cases hv : validate q msgMax l with
  | some e => simp only [run, hv]
  | none =>
    cases hm : q.mode with
    | stream m => rw [run_stream hv hm, run_stream hv hm]
    | block b p =>
      cases p with
      | unrecognized c => simp only [run, hv, hm]
      | scheme p =>
        rw [run_block hv hm, run_block hv hm]
        exact runBlock_draw (fun hop hp => h hop b (hp ▸ hm)) _ _ _ _ _ _ _

theorem requestOf_of_not_drawsEntropy {i : Instr} (h : drawsEntropy i = false) :
    (requestOf i).op = .enc → ∀ b, (requestOf i).mode ≠ .block b (.scheme .random) := by
  cases i with
  | aEncEcb p | aEncCbc p | bEncEcb p _ _ | bEncCbc p _ _ =>
    rintro - b hb
    cases hb
    cases h
  | bEncCfb | bEncOfb | bEncCtr => exact fun _ b hb => by cases hb
  | _ => exact fun hop => by cases hop

/-- A completion's STATUS is its result's alone. -/
theorem status_complete_congr (s s' : State) (r : Except CmdError Bytes) : (s.complete r).status = (s'.complete r).status := by
  cases r <;> rfl

/-- Settles O30: without a draw `Run` is a function of the latch, and STATUS, OUTLEN and OUT are functions of its result. -/
theorem commandsAreDeterministic : Obligations.CommandsAreDeterministic := by
  intro i s s' hdraw hi hi' hconfig hseq hbusy
  obtain ⟨l, hs⟩ := busy_of_isBusy hbusy
  obtain ⟨-, hm, -⟩ := hi
  obtain ⟨-, hm', -⟩ := hi'
  refine ⟨_, _, exec_busy i hs, exec_busy i (hseq ▸ hs), ?_⟩
  rw [← hconfig, run_draw (requestOf_of_not_drawsEntropy hdraw) _ _ (Config.entropy s'.serial) (Config.entropy s.serial)]
  refine ⟨status_complete_congr s s' _, by rw [complete_eq, complete_eq], fun k hk => ?_⟩
  rw [outByte_complete hm _ hk, outByte_complete hm' _ (hconfig ▸ hk)]

end Sys2Proof.Machine
end

section
/-! PROOFS. The engine's turn is completion with `Run` on the word's raw fields (spec/45_commands.md R231, R232;
60_exceptions.md R271): the two versions of `Validate` and of `Run` agree on every word of a row, and every other word has
the error of the first two steps. -/

namespace Sys2Proof.Machine

open Sys2Proof.Spec

/-! ## The raw fields of a row's word (R231, 30_encoding.md R70 to R78) -/

theorem field_rounds (w : Word32) : field w 23 16 = (fieldRounds w).toNat := field_eq_toNat_extract w 16 8 (by decide)

theorem wselWidth_eq (f : WselField) : wselWidth f = 8 * 2 ^ f.code.toNat := Nat.shiftLeft_eq _ _

theorem rawWidth_eq (w : Word32) : rawWidth w = wselWidth (wselOfCode (fieldWsel w)) := by
  rw [wselWidth_eq, code_wselOfCode, rawWidth, field_wsel]

/-- Four words of whole bytes. -/
theorem four_mul_wselWidth_div (f : WselField) : 4 * wselWidth f / 8 = 4 * (wselWidth f / 8) :=
  Nat.mul_div_assoc 4 (wselWidth_eq f ▸ Nat.dvd_mul_right 8 _)

theorem rawPadding_of_padOfCode {c : BitVec 3} {p : Padding} (h : padOfCode c = .scheme p) : rawPadding c.toNat = p := by
  cases p <;> revert c <;> decide

theorem rawMode_code (m : Mode) : rawMode m.code.toNat = m := by cases m <;> rfl

theorem noPaddingOk_block (c : CipherArgs) (b : BlockMode) {p : PadField} (h : p.wf = true) (n : Nat) :
    (Request.mk .enc c (.block b p)).noPaddingOk n = false ↔ p.code.toNat = 0 ∧ n % c.blockSize ≠ 0 := by
  cases p with
  | scheme p => cases p <;> simp [Request.noPaddingOk, PadField.code, Padding.code]
  | unrecognized k =>
    have hk : 5 ≤ k.toNat := of_decide_eq_true h
    simp only [Request.noPaddingOk, PadField.code, reduceCtorEq, false_iff]
    omega

theorem noPaddingOk_stream (o : Op) (c : CipherArgs) (m : StreamMode) (n : Nat) :
    (Request.mk o c (.stream m)).noPaddingOk n = true := by cases o <;> rfl

theorem scheme_of_paddingOk {b : BlockMode} {p : PadField} (h : (ModeArgs.block b p).paddingOk = true) :
    ∃ q, p = .scheme q := by
  cases p with
  | scheme q => exact ⟨q, rfl⟩
  | unrecognized c => cases h

/-- A row's mode is a block mode with the word's PAD, or a stream mode. -/
theorem modeArgs_cases (w : Word32) (m : Mode) :
    (∃ b : BlockMode, m = b.toMode ∧ modeArgs w m = .block b (padOfCode (fieldPad w))) ∨
    (∃ sm : StreamMode, m = sm.toMode ∧ modeArgs w m = .stream sm) := by
  cases m with
  | ecb => exact .inl ⟨.ecb, rfl, rfl⟩
  | cbc => exact .inl ⟨.cbc, rfl, rfl⟩
  | cfb => exact .inr ⟨.cfb, rfl, rfl⟩
  | ofb => exact .inr ⟨.ofb, rfl, rfl⟩
  | ctr => exact .inr ⟨.ctr, rfl, rfl⟩

/-- The condition of step 1 of `Validate` is the first illegal class. -/
theorem illegalWord_iff_raw {w : Word32} :
    (field w 1 0 ≠ 1 ∧ field w 1 0 ≠ 2) ∨ field w 15 12 ≠ 0 ∨ field w 31 24 ≠ 0 ↔ IllegalWord w := by
  have hop : field w 1 0 < 4 := by
    rw [field_op]
    exact (fieldOp w).isLt
  unfold IllegalWord
  omega

theorem rawValidate_illegal {l : Latch} (h : IllegalWord l.cmd) (msgMax : Nat) :
    rawValidate msgMax l = some .illegalCommand :=
  if_pos (illegalWord_iff_raw.mpr h)

theorem rawValidate_unsupportedMode {l : Latch} (h1 : ¬ IllegalWord l.cmd) (h2 : UnsupportedModeWord l.cmd)
    (msgMax : Nat) : rawValidate msgMax l = some .unsupportedMode :=
  (if_neg (mt illegalWord_iff_raw.mp h1)).trans (if_pos h2)

section Row

variable {l : Latch} {o : Op} {c : Cipher} {m : Mode} (h : MatchesRow l.cmd o c m)
include h

/-- The codes of the row, as the raw fields. -/
theorem rowFields_of_matchesRow :
    field l.cmd 1 0 = o.code.toNat ∧ field l.cmd 2 2 = c.code.toNat ∧ field l.cmd 5 3 = m.code.toNat ∧
      field l.cmd 15 12 = 0 ∧ field l.cmd 31 24 = 0 := by
  obtain ⟨ho, hc, hm, h0, h1⟩ := matchesRow_iff.mp h
  rw [field_op, field_cipher, field_mode, field_res0, field_res1, ho, hc, hm, h0, h1]
  exact ⟨rfl, rfl, rfl, rfl, rfl⟩

theorem rawBlockSize_of_matchesRow : rawBlockSize l.cmd = (cipherArgs l.cmd c).blockSize := by
  obtain ⟨-, hc, -⟩ := rowFields_of_matchesRow h
  rw [rawBlockSize, hc, rawWidth_eq, four_mul_wselWidth_div]
  cases c <;> rfl

theorem rawBlockFns_of_matchesRow :
    rawE l = ((cipherArgs l.cmd c).blockFns l.key).enc ∧ rawD l = ((cipherArgs l.cmd c).blockFns l.key).dec := by
  obtain ⟨-, hc, -⟩ := rowFields_of_matchesRow h
  unfold rawE rawD
  rw [hc, rawWidth_eq, field_rounds]
  cases c <;> exact ⟨rfl, rfl⟩

/-- Step 5 of `Validate` on the raw fields. -/
theorem keyLengthOk_of_matchesRow (n : Nat) :
    (cipherArgs l.cmd c).keyLengthOk n = false ↔
      (field l.cmd 2 2 = 0 ∧ n ≠ 10 ∧ n ≠ 16) ∨ (field l.cmd 2 2 = 1 ∧ n > 255) := by
  obtain ⟨-, hc, -⟩ := rowFields_of_matchesRow h
  rw [hc]
  cases c <;> simp [cipherArgs, CipherArgs.keyLengthOk, Cipher.code]

/-- Step 6 of `Validate` on the raw fields. -/
theorem ivLengthOk_of_matchesRow (n bs : Nat) :
    (modeArgs l.cmd m).ivLengthOk n bs = false ↔ field l.cmd 5 3 ≠ 0 ∧ n ≠ bs := by
  obtain ⟨-, -, hm, -⟩ := rowFields_of_matchesRow h
  rw [hm]
  cases m <;> simp [modeArgs, ModeArgs.ivLengthOk, Mode.code]

/-- Step 8 of `Validate` on the raw fields. -/
theorem ciphertextLengthOk_of_matchesRow (n : Nat) :
    (Request.mk o (cipherArgs l.cmd c) (modeArgs l.cmd m)).ciphertextLengthOk n = false ↔
      field l.cmd 1 0 = 2 ∧ field l.cmd 5 3 ≤ 1 ∧ n % rawBlockSize l.cmd ≠ 0 := by
  obtain ⟨ho, -, hm, -⟩ := rowFields_of_matchesRow h
  rw [ho, hm, rawBlockSize_of_matchesRow h]
  cases o with
  | enc => simp [Request.ciphertextLengthOk, Op.code]
  | dec => cases m <;> simp [Request.ciphertextLengthOk, modeArgs, Op.code, Mode.code]

/-- Step 9 of `Validate` on the raw fields. -/
theorem noPaddingOk_of_matchesRow (n : Nat) :
    (Request.mk o (cipherArgs l.cmd c) (modeArgs l.cmd m)).noPaddingOk n = false ↔
      field l.cmd 1 0 = 1 ∧ field l.cmd 5 3 ≤ 1 ∧ field l.cmd 8 6 = 0 ∧ n % rawBlockSize l.cmd ≠ 0 := by
  obtain ⟨ho, -, hm, -⟩ := rowFields_of_matchesRow h
  rw [ho, hm, field_pad, rawBlockSize_of_matchesRow h]
  cases o with
  | enc => cases m <;> simp [modeArgs, noPaddingOk_block, noPaddingOk_stream, Op.code, Mode.code]
  | dec => simp [Request.noPaddingOk, Op.code]

/-- `Validate` on the raw fields is the decoded command's, step by step (60_exceptions.md R271). -/
theorem rawValidate_of_matchesRow (h1 : ¬ IllegalWord l.cmd) (h2 : ¬ UnsupportedModeWord l.cmd) (msgMax : Nat) :
    rawValidate msgMax l = validate { op := o, cipher := cipherArgs l.cmd c, mode := modeArgs l.cmd m } msgMax l := by
  refine ((if_neg (mt illegalWord_iff_raw.mp h1)).trans (if_neg h2)).trans ?_
  simp only [validate, Bool.not_eq_true', cipherArgs_wordSizeOk h, modeArgs_paddingOk h, keyLengthOk_of_matchesRow h,
    ivLengthOk_of_matchesRow h, ciphertextLengthOk_of_matchesRow h, noPaddingOk_of_matchesRow h,
    rawBlockSize_of_matchesRow h]

/-- `Run` on the raw fields is the decoded command's. -/
theorem rawRun_of_matchesRow (h1 : ¬ IllegalWord l.cmd) (h2 : ¬ UnsupportedModeWord l.cmd) (msgMax : Nat)
    (draw : Nat → Byte) :
    rawRun msgMax l draw =
      run { op := o, cipher := cipherArgs l.cmd c, mode := modeArgs l.cmd m } msgMax l draw := by
  unfold rawRun
  rw [rawValidate_of_matchesRow h h1 h2]
  cases hv : validate { op := o, cipher := cipherArgs l.cmd c, mode := modeArgs l.cmd m } msgMax l with
  | some e => simp only [run, hv]
  | none =>
    obtain ⟨ho, -, hm, -⟩ := rowFields_of_matchesRow h
    obtain ⟨hE, hD⟩ := rawBlockFns_of_matchesRow h
    obtain ⟨-, hpad, -⟩ := validate_none hv
    rcases modeArgs_cases l.cmd m with ⟨b, rfl, hargs⟩ | ⟨sm, rfl, hargs⟩
    · obtain ⟨p, hp⟩ := scheme_of_paddingOk (hargs ▸ hpad)
      have hblock : b.toMode.code.toNat ≤ 1 := by cases b <;> decide
      rw [run_block hv (hargs.trans (congrArg _ hp))]
      simp only [ho, hm, hE, hD, if_pos hblock, rawMode_code, field_pad, rawPadding_of_padOfCode hp,
        rawBlockSize_of_matchesRow h]
      cases o <;> rfl
    · have hstream : ¬ sm.toMode.code.toNat ≤ 1 := by cases sm <;> decide
      rw [run_stream hv hargs]
      simp only [ho, hm, hE, hD, if_neg hstream, rawMode_code, rawBlockSize_of_matchesRow h]
      cases o <;> rfl

end Row

/-- `Run` on the raw fields is what the engine's turn completes with, whatever the word. -/
theorem latchResult_eq_rawRun (msgMax : Nat) (l : Latch) (draw : Nat → Byte) :
    latchResult msgMax l draw = rawRun msgMax l draw := by
  by_cases h1 : IllegalWord l.cmd
  · rw [latchResult_error (decode_illegal h1), rawRun, rawValidate_illegal h1]
  by_cases h2 : UnsupportedModeWord l.cmd
  · rw [latchResult_error (decode_unsupportedMode h1 h2), rawRun, rawValidate_unsupportedMode h1 h2]
  obtain ⟨o, c, m, i, hrow, hi⟩ := decode_legal h1 h2
  obtain ⟨-, hreq, -⟩ := decodeRow_ok hi
  rw [rawRun_of_matchesRow hrow h1 h2, ← hreq]
  simp only [latchResult, (decode_of_matchesRow hrow).trans hi]

/-- Settles O22: a word of no row completes with the error of the first two steps, any other as its row's command. -/
theorem engineStepRefinesRun : Obligations.EngineStepRefinesRun := by
  intro s l hs
  rw [engineStep_busy hs, latchResult_eq_rawRun]

/-- Settles O21: the turn is the completion with `Run`, whose output fits OUT because the latch is one that acceptance
gives. -/
theorem completionWritesOutOutlenStatus : Obligations.CompletionWritesOutOutlenStatus := by
  intro s l hi hs
  have hl := sized_of_inv hi hs
  obtain ⟨⟨-, hmax, -⟩, hm, -⟩ := hi
  have hfit := outBytesOf_latchResult_length hl (Config.entropy s.serial)
  rw [latchResult_eq_rawRun] at hfit
  refine ⟨_, engineStepRefinesRun s l hs, by rw [complete_eq], ?_⟩
  generalize rawRun s.config.msgMax l (Config.entropy s.serial) = r at hfit
  obtain ⟨hconfig, hkey, hiv, hin, hfault, hresp, hinputs, hmem⟩ := sameButOutput_complete hm hfit
  refine ⟨?_, hconfig, hkey, hiv, hin, hfault, hresp, hinputs, hmem⟩
  have hout {k} (hk : k < s.config.msgMax + 64) := outByte_complete hm r hk
  cases r with
  | ok out =>
    have hlen : out.length ≤ s.config.msgMax + 64 := hfit
    refine ⟨hlen, ?_, status_completeOk s out, fun k hk => hout (by omega), fun k hk hlt => ?_⟩
    · rw [complete_ok, completeOk_outlen, BitVec.toNat_ofNat, Nat.mod_eq_of_lt (by omega)]
    · exact (hout hlt).trans (List.getD_eq_default _ _ hk)
  | error e => exact ⟨rfl, status_completeError s e, fun k hk => hout hk⟩

end Sys2Proof.Machine
end

section
/-! PROOFS. The fourteen commands (spec/45_commands.md R234 to R247): each error of `Validate` under the conditions of the
steps before it (60_exceptions.md R271), and the completion of a command that passes. -/

namespace Sys2Proof.Machine

open Sys2Proof.Spec

/-! ## `Validate`, step by step (60_exceptions.md R271) -/

/-- The operands and the latched key pass steps 3 to 5 of `Validate`. -/
structure KeyAccepted (q : Request) (l : Latch) : Prop where
  wordSize : q.cipher.wordSizeOk = true
  padding : q.mode.paddingOk = true
  keyLength : q.cipher.keyLengthOk l.keylen.toNat = true

/-- The operands, the latched key and the latched IV pass steps 3 to 6 of `Validate`. -/
structure IvAccepted (q : Request) (l : Latch) : Prop extends KeyAccepted q l where
  ivLength : q.mode.ivLengthOk l.ivlen.toNat q.cipher.blockSize = true

section Steps

variable {q : Request} {msgMax : Nat} {l : Latch}

theorem validate_keyLength (hw : q.cipher.wordSizeOk = true) (hp : q.mode.paddingOk = true)
    (h : q.cipher.keyLengthOk l.keylen.toNat = false) : validate q msgMax l = some .invalidKeyLength := by
  simp [validate, hw, hp, h]

theorem validate_ivLength (ha : KeyAccepted q l) (h : q.mode.ivLengthOk l.ivlen.toNat q.cipher.blockSize = false) :
    validate q msgMax l = some .invalidIVLength := by
  simp [validate, ha.wordSize, ha.padding, ha.keyLength, h]

theorem validate_messageTooLong (ha : IvAccepted q l) (h : msgMax < l.inlen.toNat) :
    validate q msgMax l = some .messageTooLong := by
  simp [validate, ha.wordSize, ha.padding, ha.keyLength, ha.ivLength, h]

/-- Steps 8 and 9, for a message that fits. -/
theorem validate_of_fits (ha : IvAccepted q l) (hin : l.inlen.toNat ≤ msgMax) :
    validate q msgMax l =
      if q.ciphertextLengthOk l.inlen.toNat = false then some .invalidCiphertextLength
      else if q.noPaddingOk l.inlen.toNat = false then some .noPaddingMismatch else none := by
  simp [validate, ha.wordSize, ha.padding, ha.keyLength, ha.ivLength, Nat.not_lt.mpr hin]

end Steps

/-! ## A command's turn by what `Validate` answers -/

section Turn

variable {i : Instr} {s : State} {l : Latch} (hs : s.seq = .busy l)
include hs

theorem exec_invalid {e : CmdError} (h : validate (requestOf i) s.config.msgMax l = some e) :
    exec i s = .next (s.completeError e) := by
  rw [exec_busy i hs, run, h, complete_error]

theorem exec_wordSize (h : (requestOf i).cipher.wordSizeOk = false) :
    exec i s = .next (s.completeError .unsupportedWordSize) :=
  exec_invalid hs (validate_wordSize h _ l)

theorem exec_padding (hw : (requestOf i).cipher.wordSizeOk = true) (h : (requestOf i).mode.paddingOk = false) :
    exec i s = .next (s.completeError .unsupportedPadding) :=
  exec_invalid hs (validate_padding hw h _ l)

theorem exec_keyLength (hw : (requestOf i).cipher.wordSizeOk = true) (hp : (requestOf i).mode.paddingOk = true)
    (h : (requestOf i).cipher.keyLengthOk l.keylen.toNat = false) :
    exec i s = .next (s.completeError .invalidKeyLength) :=
  exec_invalid hs (validate_keyLength hw hp h)

end Turn

/-! ## The block modes (R212) -/

/-- Every scheme succeeds and appends its pad, NO on whole blocks only (43_padding.md R181 to R185). -/
theorem applyPadding_eq_ok {m : Bytes} {p : Padding} {bs : Nat} (h : p = .no → m.length % bs = 0) (draw : Nat → Byte) :
    applyPadding m p bs draw = .ok (m ++ padBytes m.length p bs draw) := by
  by_cases hp : p = .no
  · subst hp
    rw [applyPadding_no_whole (h rfl), padBytes, List.append_nil]
  · exact applyPadding_eq_append hp m bs draw

/-- `i` is the command of an operation and a block mode, under a cipher of a legal word size and a legal padding. -/
structure BlockCommand (i : Instr) (op : Op) (c : CipherArgs) (b : BlockMode) (p : Padding) : Prop where
  request : requestOf i = { op := op, cipher := c, mode := .block b (.scheme p) }
  wordSize : c.wordSizeOk = true

section Block

variable {i : Instr} {op : Op} {c : CipherArgs} {b : BlockMode} {p : Padding} {l : Latch} (hi : BlockCommand i op c b p)
include hi

theorem BlockCommand.keyAccepted (hk : c.keyLengthOk l.keylen.toNat = true) : KeyAccepted (requestOf i) l := by
  rw [hi.request]
  exact ⟨hi.wordSize, rfl, hk⟩

theorem BlockCommand.ivAccepted (hk : c.keyLengthOk l.keylen.toNat = true)
    (hiv : b = .ecb ∨ l.ivlen.toNat = c.blockSize) : IvAccepted (requestOf i) l := by
  refine ⟨hi.keyAccepted hk, ?_⟩
  rw [hi.request]
  rcases hiv with rfl | hiv
  · rfl
  · cases b with
    | ecb => rfl
    | cbc => exact decide_eq_true hiv

end Block

section BlockTurn

variable {i : Instr} {op : Op} {c : CipherArgs} {b : BlockMode} {p : Padding} {s : State} {l : Latch}
  (hs : s.seq = .busy l) (hk : c.keyLengthOk l.keylen.toNat = true)
include hs hk

theorem exec_cbc_ivLength (hi : BlockCommand i op c .cbc p) (hiv : l.ivlen.toNat ≠ c.blockSize) :
    exec i s = .next (s.completeError .invalidIVLength) := by
  refine exec_invalid hs (validate_ivLength (hi.keyAccepted hk) ?_)
  rw [hi.request]
  exact decide_eq_false hiv

variable (hiv : b = .ecb ∨ l.ivlen.toNat = c.blockSize)
include hiv

theorem exec_block_messageTooLong (hi : BlockCommand i op c b p) (h : s.config.msgMax < l.inlen.toNat) :
    exec i s = .next (s.completeError .messageTooLong) :=
  exec_invalid hs (validate_messageTooLong (hi.ivAccepted hk hiv) h)

variable (hin : l.inlen.toNat ≤ s.config.msgMax)
include hin

theorem exec_blockDec_partial (hi : BlockCommand i .dec c b p) (h : l.inlen.toNat % c.blockSize ≠ 0) :
    exec i s = .next (s.completeError .invalidCiphertextLength) := by
  refine exec_invalid hs ((validate_of_fits (hi.ivAccepted hk hiv) hin).trans (if_pos ?_))
  rw [hi.request]
  exact decide_eq_false h

theorem exec_blockDec_whole (hi : BlockCommand i .dec c b p) (h : l.inlen.toNat % c.blockSize = 0) :
    exec i s = .next (s.complete (removePadding
      (modeDec b.toMode (c.blockFns l.key).enc (c.blockFns l.key).dec c.blockSize l.msg (l.iv.take c.blockSize)) p
      c.blockSize)) := by
  have hv : validate (requestOf i) s.config.msgMax l = none := by
    rw [validate_of_fits (hi.ivAccepted hk hiv) hin, hi.request]
    simp [Request.ciphertextLengthOk, Request.noPaddingOk, h]
  rw [exec_busy i hs, run_block hv (congrArg Request.mode hi.request), hi.request]
  rfl

theorem exec_blockEnc_partial (hi : BlockCommand i .enc c b .no) (h : l.inlen.toNat % c.blockSize ≠ 0) :
    exec i s = .next (s.completeError .noPaddingMismatch) := by
  refine exec_invalid hs ((validate_of_fits (hi.ivAccepted hk hiv) hin).trans ?_)
  rw [hi.request]
  simp [Request.ciphertextLengthOk, Request.noPaddingOk, h]

theorem exec_blockEnc_padded (hi : BlockCommand i .enc c b p) (hlen : l.msg.length = l.inlen.toNat)
    (h : p = .no → l.inlen.toNat % c.blockSize = 0) :
    exec i s = .next (s.completeOk (modeEnc b.toMode (c.blockFns l.key).enc c.blockSize
      (l.msg ++ padBytes l.msg.length p c.blockSize (Config.entropy s.serial)) (l.iv.take c.blockSize))) := by
  have hv : validate (requestOf i) s.config.msgMax l = none := by
    rw [validate_of_fits (hi.ivAccepted hk hiv) hin, hi.request]
    cases p with
    | no => simp [Request.ciphertextLengthOk, Request.noPaddingOk, h rfl]
    | _ => rfl
  rw [exec_busy i hs, run_block hv (congrArg Request.mode hi.request), hi.request, runBlock,
    applyPadding_eq_ok (hlen ▸ h)]
  rfl

end BlockTurn

section Pair

variable {ecb cbc : Instr} {op : Op} {c : CipherArgs} {p : Padding} {s : State} {l : Latch}

/-- An encryption's ECB and CBC commands under an accepted key, every message and IV length (R234, R235, R238, R239).
`Iv` is the condition on IVLEN. -/
theorem blockEnc_completes (hs : s.seq = .busy l) (hecb : BlockCommand ecb .enc c .ecb p)
    (hcbc : BlockCommand cbc .enc c .cbc p) {Iv : Prop} (hIv : Iv ↔ l.ivlen.toNat = c.blockSize)
    (hk : c.keyLengthOk l.keylen.toNat = true) :
    let bs := c.blockSize
    let E := (c.blockFns l.key).enc
    let m := l.msg ++ padBytes l.msg.length p bs (Config.entropy s.serial)
    (¬ Iv → exec cbc s = .next (s.completeError .invalidIVLength)) ∧
    (s.config.msgMax < l.inlen.toNat →
      exec ecb s = .next (s.completeError .messageTooLong) ∧
      (Iv → exec cbc s = .next (s.completeError .messageTooLong))) ∧
    (l.inlen.toNat ≤ s.config.msgMax → p = .no → l.inlen.toNat % bs ≠ 0 →
      exec ecb s = .next (s.completeError .noPaddingMismatch) ∧
      (Iv → exec cbc s = .next (s.completeError .noPaddingMismatch))) ∧
    (l.inlen.toNat ≤ s.config.msgMax → l.msg.length = l.inlen.toNat → (p = .no → l.inlen.toNat % bs = 0) →
      exec ecb s = .next (s.completeOk ((blocks bs m).flatMap E)) ∧
      (Iv → exec cbc s = .next (s.completeOk (cbcEnc E (l.iv.take bs) (blocks bs m)))) ∧
      m.length = l.inlen.toNat + padLen l.inlen.toNat p bs) := by
  have iv {b : BlockMode} (h : Iv) : b = .ecb ∨ l.ivlen.toNat = c.blockSize := .inr (hIv.mp h)
  refine ⟨fun h => exec_cbc_ivLength hs hk hcbc (mt hIv.mpr h), fun h => ⟨?_, fun h' => ?_⟩,
    fun hin hp h => ⟨?_, fun h' => ?_⟩, fun hin hlen h => ⟨?_, fun h' => ?_, ?_⟩⟩
  · exact exec_block_messageTooLong hs hk (.inl rfl) hecb h
  · exact exec_block_messageTooLong hs hk (iv h') hcbc h
  · exact exec_blockEnc_partial hs hk (.inl rfl) hin (hp ▸ hecb) h
  · exact exec_blockEnc_partial hs hk (iv h') hin (hp ▸ hcbc) h
  · exact exec_blockEnc_padded hs hk (.inl rfl) hin hecb hlen h
  · exact exec_blockEnc_padded hs hk (iv h') hin hcbc hlen h
  · rw [List.length_append, padBytes_length (blockSize_bounds hecb.wordSize).1, hlen]

/-- A decryption's ECB and CBC commands under an accepted key, every message and IV length (R236, R237, R243, R244).
`Iv` is the condition on IVLEN. -/
theorem blockDec_completes (hs : s.seq = .busy l) (hecb : BlockCommand ecb .dec c .ecb p)
    (hcbc : BlockCommand cbc .dec c .cbc p) {Iv : Prop} (hIv : Iv ↔ l.ivlen.toNat = c.blockSize)
    (hk : c.keyLengthOk l.keylen.toNat = true) :
    let bs := c.blockSize
    let D := (c.blockFns l.key).dec
    (¬ Iv → exec cbc s = .next (s.completeError .invalidIVLength)) ∧
    (s.config.msgMax < l.inlen.toNat →
      exec ecb s = .next (s.completeError .messageTooLong) ∧
      (Iv → exec cbc s = .next (s.completeError .messageTooLong))) ∧
    (l.inlen.toNat ≤ s.config.msgMax → l.inlen.toNat % bs ≠ 0 →
      exec ecb s = .next (s.completeError .invalidCiphertextLength) ∧
      (Iv → exec cbc s = .next (s.completeError .invalidCiphertextLength))) ∧
    (l.inlen.toNat ≤ s.config.msgMax → l.inlen.toNat % bs = 0 →
      exec ecb s = .next (s.complete (removePadding ((blocks bs l.msg).flatMap D) p bs)) ∧
      (Iv → exec cbc s = .next (s.complete (removePadding (cbcDec D (l.iv.take bs) (blocks bs l.msg)) p bs)))) := by
  have iv {b : BlockMode} (h : Iv) : b = .ecb ∨ l.ivlen.toNat = c.blockSize := .inr (hIv.mp h)
  refine ⟨fun h => exec_cbc_ivLength hs hk hcbc (mt hIv.mpr h), fun h => ⟨?_, fun h' => ?_⟩,
    fun hin h => ⟨?_, fun h' => ?_⟩, fun hin h => ⟨?_, fun h' => ?_⟩⟩
  · exact exec_block_messageTooLong hs hk (.inl rfl) hecb h
  · exact exec_block_messageTooLong hs hk (iv h') hcbc h
  · exact exec_blockDec_partial hs hk (.inl rfl) hin hecb h
  · exact exec_blockDec_partial hs hk (iv h') hin hcbc h
  · exact exec_blockDec_whole hs hk (.inl rfl) hin hecb h
  · exact exec_blockDec_whole hs hk (iv h') hin hcbc h

end Pair

/-! ## Cipher A (R234 to R237) -/

theorem keyLengthOk_a_iff (v : Word32) : CipherArgs.a.keyLengthOk v.toNat = true ↔ v = 10 ∨ v = 16 := by
  simp [CipherArgs.keyLengthOk, BitVec.toNat_eq]

theorem keyLengthOk_a_eq_false {v : Word32} (h10 : v ≠ 10) (h16 : v ≠ 16) : CipherArgs.a.keyLengthOk v.toNat = false := by
  rw [← Bool.not_eq_true, keyLengthOk_a_iff]
  exact not_or.mpr ⟨h10, h16⟩

/-- Settles O34. -/
theorem cipherAEncryptCommands : Obligations.CipherAEncryptCommands := by
  intro s l hs
  refine ⟨fun c => ⟨exec_padding hs rfl rfl, exec_padding hs rfl rfl⟩, fun p => ⟨fun h10 h16 => ?_, fun hk => ?_⟩⟩
  · have hk := keyLengthOk_a_eq_false h10 h16
    exact ⟨exec_keyLength hs rfl rfl hk, exec_keyLength hs rfl rfl hk⟩
  · exact blockEnc_completes (c := .a) hs ⟨rfl, rfl⟩ ⟨rfl, rfl⟩ BitVec.toNat_eq ((keyLengthOk_a_iff _).mpr hk)

/-- Settles O35. -/
theorem cipherADecryptCommands : Obligations.CipherADecryptCommands := by
  intro s l hs
  refine ⟨fun c => ⟨exec_padding hs rfl rfl, exec_padding hs rfl rfl⟩, fun p => ⟨fun h10 h16 => ?_, fun hk => ?_⟩⟩
  · have hk := keyLengthOk_a_eq_false h10 h16
    exact ⟨exec_keyLength hs rfl rfl hk, exec_keyLength hs rfl rfl hk⟩
  · exact blockDec_completes (c := .a) hs ⟨rfl, rfl⟩ ⟨rfl, rfl⟩ BitVec.toNat_eq ((keyLengthOk_a_iff _).mpr hk)

/-! ## Cipher B in the block modes (R238, R239, R243, R244) -/

theorem width_eq_wselWidth (z : WordSize) : 8 * 2 ^ z.code.toNat = wselWidth (.size z) :=
  (wselWidth_eq (.size z)).symm

/-- Settles O36. -/
theorem cipherBEncryptCommands : Obligations.CipherBEncryptCommands := by
  intro s l hs r
  refine ⟨fun c p => ⟨exec_wordSize hs rfl, exec_wordSize hs rfl⟩,
    fun z c => ⟨exec_padding hs rfl rfl, exec_padding hs rfl rfl⟩, fun z p => ?_⟩
  rw [width_eq_wselWidth]
  refine ⟨fun hk => ?_, fun hk => ?_⟩
  · have hk := decide_eq_false (Nat.not_le.mpr hk)
    exact ⟨exec_keyLength hs rfl rfl hk, exec_keyLength hs rfl rfl hk⟩
  · exact blockEnc_completes (c := .b (.size z) r) hs ⟨rfl, rfl⟩ ⟨rfl, rfl⟩ Iff.rfl (decide_eq_true hk)

/-- Settles O37. -/
theorem cipherBDecryptCommands : Obligations.CipherBDecryptCommands := by
  intro s l hs r
  refine ⟨fun c p => ⟨exec_wordSize hs rfl, exec_wordSize hs rfl⟩,
    fun z c => ⟨exec_padding hs rfl rfl, exec_padding hs rfl rfl⟩, fun z p => ?_⟩
  rw [width_eq_wselWidth]
  refine ⟨fun hk => ?_, fun hk => ?_⟩
  · have hk := decide_eq_false (Nat.not_le.mpr hk)
    exact ⟨exec_keyLength hs rfl rfl hk, exec_keyLength hs rfl rfl hk⟩
  · exact blockDec_completes (c := .b (.size z) r) hs ⟨rfl, rfl⟩ ⟨rfl, rfl⟩ Iff.rfl (decide_eq_true hk)

/-! ## The stream modes (R240 to R242, R245 to R247) -/

/-- The stream command of an operation and a mode. -/
def streamCommand : Op → StreamMode → WselField → BitVec 8 → Instr
  | .enc, .cfb => .bEncCfb
  | .enc, .ofb => .bEncOfb
  | .enc, .ctr => .bEncCtr
  | .dec, .cfb => .bDecCfb
  | .dec, .ofb => .bDecOfb
  | .dec, .ctr => .bDecCtr

theorem requestOf_streamCommand (op : Op) (m : StreamMode) (f : WselField) (r : BitVec 8) :
    requestOf (streamCommand op m f r) = { op := op, cipher := .b f r, mode := .stream m } := by
  cases op <;> cases m <;> rfl

theorem streamCommand_inj {op op' : Op} {m m' : StreamMode} (h : streamCommand op m = streamCommand op' m') :
    op = op' ∧ m = m' := by
  have hreq := congrArg (fun i => requestOf (i (.size .w8) 0)) h
  simpa only [requestOf_streamCommand, Request.mk.injEq, ModeArgs.stream.injEq, true_and] using hreq

/-- The equation of a stream command tells which operation and mode it runs. -/
theorem runStream_congr {op op' : Op} {m m' : StreamMode} {f : BlockFns} {bs : Nat} {msg iv : Bytes}
    (h : streamCommand op m = streamCommand op' m') :
    runStream op m.toMode f bs msg iv = runStream op' m'.toMode f bs msg iv := by
  obtain ⟨rfl, rfl⟩ := streamCommand_inj h
  rfl

theorem exists_streamCommand {i : WselField → BitVec 8 → Instr}
    (h : i ∈ [Instr.bEncCfb, Instr.bEncOfb, Instr.bEncCtr, Instr.bDecCfb, Instr.bDecOfb, Instr.bDecCtr]) :
    ∃ op m, i = streamCommand op m := by
  simp only [List.mem_cons, List.not_mem_nil, or_false] at h
  rcases h with rfl | rfl | rfl | rfl | rfl | rfl
  · exact ⟨.enc, .cfb, rfl⟩
  · exact ⟨.enc, .ofb, rfl⟩
  · exact ⟨.enc, .ctr, rfl⟩
  · exact ⟨.dec, .cfb, rfl⟩
  · exact ⟨.dec, .ofb, rfl⟩
  · exact ⟨.dec, .ctr, rfl⟩

section Stream

variable {i : Instr} {op : Op} {c : CipherArgs} {m : StreamMode} {s : State} {l : Latch}
  (hi : requestOf i = { op := op, cipher := c, mode := .stream m }) (hw : c.wordSizeOk = true)
  (hk : c.keyLengthOk l.keylen.toNat = true)
include hi hw hk

theorem keyAccepted_stream : KeyAccepted (requestOf i) l := by
  rw [hi]
  exact ⟨hw, rfl, hk⟩

theorem ivAccepted_stream (hiv : l.ivlen.toNat = c.blockSize) : IvAccepted (requestOf i) l := by
  refine ⟨keyAccepted_stream hi hw hk, ?_⟩
  rw [hi]
  exact decide_eq_true hiv

variable (hs : s.seq = .busy l)
include hs

theorem exec_stream_ivLength (hiv : l.ivlen.toNat ≠ c.blockSize) :
    exec i s = .next (s.completeError .invalidIVLength) := by
  refine exec_invalid hs (validate_ivLength (keyAccepted_stream hi hw hk) ?_)
  rw [hi]
  exact decide_eq_false hiv

theorem exec_stream_messageTooLong (hiv : l.ivlen.toNat = c.blockSize) (h : s.config.msgMax < l.inlen.toNat) :
    exec i s = .next (s.completeError .messageTooLong) :=
  exec_invalid hs (validate_messageTooLong (ivAccepted_stream hi hw hk hiv) h)

/-- Steps 8 and 9 of `Validate` are the block modes' alone. -/
theorem exec_stream_fits (hiv : l.ivlen.toNat = c.blockSize) (hin : l.inlen.toNat ≤ s.config.msgMax) :
    exec i s = .next (s.completeOk
      (runStream op m.toMode (c.blockFns l.key) c.blockSize l.msg (l.iv.take c.blockSize))) := by
  have hv : validate (requestOf i) s.config.msgMax l = none := by
    rw [validate_of_fits (ivAccepted_stream hi hw hk hiv) hin, hi]
    cases op <;> rfl
  rw [exec_busy i hs, run_stream hv (congrArg Request.mode hi), hi, complete_ok]

end Stream

/-- Settles O38: the output is the mode on the zero-extended message, cut to the message. -/
theorem cipherBStreamCommands : Obligations.CipherBStreamCommands := by
  intro s l hs r i hi
  obtain ⟨op, m, rfl⟩ := exists_streamCommand hi
  have req := fun f => requestOf_streamCommand op m f r
  refine ⟨fun c => exec_wordSize hs (by rw [req]; rfl), fun z => ?_⟩
  rw [width_eq_wselWidth]
  refine ⟨fun hk => exec_keyLength hs (by rw [req]; rfl) (by rw [req]; rfl) ?_, fun hk hiv => ?_, fun hk hiv hin => ?_,
    fun hk hiv hin => ⟨_, exec_stream_fits (req _) rfl (decide_eq_true hk) hs hiv hin, ?_, ?_⟩⟩
  · rw [req]
    exact decide_eq_false (Nat.not_le.mpr hk)
  · exact exec_stream_ivLength (req _) rfl (decide_eq_true hk) hs hiv
  · exact exec_stream_messageTooLong (req _) rfl (decide_eq_true hk) hs hiv hin
  · exact (streamModesTruncate _ _ _ (blockSize_bounds (c := .b (.size z) r) rfl).1
      (fun b => (blockFns_length _ l.key b).1) m op l.msg _ _ (zeros_length _)).1
  · exact ⟨runStream_congr (op' := .enc) (m' := .cfb), runStream_congr (op' := .dec) (m' := .cfb),
      fun h => h.elim (runStream_congr (op' := .enc) (m' := .ofb)) (runStream_congr (op' := .dec) (m' := .ofb)),
      fun h => h.elim (runStream_congr (op' := .enc) (m' := .ctr)) (runStream_congr (op' := .dec) (m' := .ctr))⟩

end Sys2Proof.Machine
end

section
/-! PROOFS. The errors and the host agent's fault (spec/60_exceptions.md R261, R271, R272, R274): the codes, which error a
command reports, and what stops the machine. -/

namespace Sys2Proof.Machine

open Sys2Proof.Spec

/-! ## The error codes (R261) -/

/-- The error of a code, none for 0 and for the codes 11 to 15, which no error has (R261). -/
def errorOfField (c : BitVec 4) : Option CmdError :=
  ([none, some .invalidKeyLength, some .invalidIVLength, some .invalidCiphertextLength, some .unsupportedMode,
    some .unsupportedPadding, some .paddingVerificationFailure, some .noPaddingMismatch, some .illegalCommand,
    some .unsupportedWordSize, some .messageTooLong] : List (Option CmdError)).getD c.toNat none

/-- A code names its error. -/
theorem errorOfField_errField (e : Option CmdError) : errorOfField (errField e) = e := by
  cases e with
  | none => rfl
  | some e => cases e <;> rfl

theorem errField_le (e : Option CmdError) : (errField e).toNat ≤ 10 := by
  cases e with
  | none => decide
  | some e => cases e <;> decide

/-- Settles O4: a code names its error, so two errors of one code are the same. -/
theorem errorCodes : Obligations.ErrorCodes :=
  ⟨rfl, rfl, rfl, rfl, rfl, rfl, rfl, rfl, rfl, rfl, rfl, errField_le,
    fun _ _ h => Function.LeftInverse.injective errorOfField_errField h⟩

/-! ## The host agent's fault (R272, 20_memory.md R52) -/

/-- An access of a faulted host stops the machine (R272). -/
theorem step_access_faulted {s : State} {a b : Access} {rest : List Input} (hf : s.hostFault = some a)
    (hin : s.inputs = .access b :: rest) : step s = .fault (.hostFaulted b) := by
  rw [step_access hin]
  simp only [hostAccess, hf]

/-- A step goes on, unless it is an access of a faulted host (R272; log entry 6). -/
theorem step_next_or_access_faulted (s : State) :
    (∃ t, step s = .next t) ∨ ∃ a b rest, s.hostFault = some a ∧ s.inputs = .access b :: rest := by
  cases hin : s.inputs with
  | nil =>
    obtain ⟨t, ht, -⟩ := engineStep_next s
    exact .inl ⟨t, (step_noInput hin).trans ht⟩
  | cons i rest =>
    cases i with
    | engine =>
      obtain ⟨t, ht, -⟩ := engineStep_next { s with inputs := rest }
      exact .inl ⟨t, (step_engine hin).trans ht⟩
    | access b =>
      cases hf : s.hostFault with
      | none => exact .inl ⟨_, (step_access hin).trans (hostAccess_noFault (s := { s with inputs := rest }) hf b)⟩
      | some a => exact .inr ⟨a, b, rest, rfl, rfl⟩
    | rst => exact .inl ⟨_, step_rst hin⟩

/-- A step that goes on keeps the host's fault: the engine's turn and RST leave it alone, and a faulted host has no access
that goes on. -/
theorem hostFault_of_step_next {s t : State} {a : Access} (h : step s = .next t) (hf : s.hostFault = some a) :
    t.hostFault = some a := by
  rcases step_cases h with ⟨-, he⟩ | ⟨b, rest, -, hnone, -⟩ | ⟨rest, -, rfl⟩
  · obtain ⟨u, hu, hworld⟩ := engineStep_next { s with inputs := s.inputs.tail }
    cases hu.symm.trans he
    exact hworld.hostFault.trans hf
  · cases hnone.symm.trans hf
  · exact hf

/-- Settles O7: the fault stays by each of the three events of a step, and the access of a faulted host is all that does not
go on. The form of that stop is the model's choice (log entry 6). -/
theorem hostFaultIsNeverCleared : Obligations.HostFaultIsNeverCleared := by
  refine ⟨fun s t a => hostFault_of_step_next, fun s a b rest => step_access_faulted, fun s r h => ?_, fun s f h => ?_⟩
  · rcases step_next_or_access_faulted s with ⟨t, ht⟩ | ⟨a, b, rest, hf, hin⟩
    · cases ht.symm.trans h
    · cases (step_access_faulted hf hin).symm.trans h
  · rcases step_next_or_access_faulted s with ⟨t, ht⟩ | ⟨a, b, rest, hf, hin⟩
    · cases ht.symm.trans h
    · cases (step_access_faulted hf hin).symm.trans h
      exact ⟨a, b, rest, hf, hin, rfl⟩

/-! ## The one error of a command (R271, R274) -/

theorem complete_err (s : State) (r : Except CmdError Bytes) : (s.complete r).err = errOf r := by rw [complete_eq]

theorem rawPadding_eq_no {pad : Nat} : rawPadding pad = .no ↔ pad = 0 := by
  unfold rawPadding
  split <;> simp_all

/-- The two schemes that removal can reject, by their codes (30_encoding.md R74). -/
theorem rawPadding_verified {pad : Nat} (h : pad < 5) :
    rawPadding pad = .pkcs5 ∨ rawPadding pad = .bit ↔ pad = 1 ∨ pad = 4 := by
  interval_cases pad <;> decide

/-- The only error of a removal is PaddingVerificationFailure, of PKCS5 and BIT (R274, 43_padding.md R186 to R188). -/
theorem errOf_removePadding (m : Bytes) (p : Padding) (bs : Nat) (e : CmdError) :
    errOf (removePadding m p bs) = some e ↔
      e = .paddingVerificationFailure ∧ (p = .pkcs5 ∨ p = .bit) ∧
        removePadding m p bs = .error .paddingVerificationFailure := by
  rcases removePadding_cases m p bs with ⟨r, hr, -⟩ | ⟨hp, hr⟩
  · simp [hr, errOf]
  · simp [hr, hp, errOf, eq_comm]

/-- What a latch that passes `Validate` satisfies, on the raw fields, as far as the errors of `Run` ask (R271). -/
theorem rawValidate_none {msgMax : Nat} {l : Latch} (h : rawValidate msgMax l = none) :
    (field l.cmd 1 0 = 1 ∨ field l.cmd 1 0 = 2) ∧ (field l.cmd 5 3 ≤ 1 → field l.cmd 8 6 < 5) ∧
      l.inlen.toNat ≤ msgMax ∧
      (field l.cmd 1 0 = 1 → field l.cmd 5 3 ≤ 1 → field l.cmd 8 6 = 0 → l.inlen.toNat % rawBlockSize l.cmd = 0) := by
  simp only [rawValidate, ite_eq_iff, reduceCtorEq, and_false, false_or, and_true] at h
  obtain ⟨hop, -, -, hpad, -, -, hin, -, hwhole⟩ := h
  refine ⟨by omega, fun hm => by omega, by omega, fun ho hm h0 => ?_⟩
  by_contra hne
  exact hwhole ⟨ho, hm, h0, hne⟩

theorem rawRun_invalid {msgMax : Nat} {l : Latch} {e : CmdError} (h : rawValidate msgMax l = some e)
    (draw : Nat → Byte) : rawRun msgMax l draw = .error e := by simp only [rawRun, h]

section Valid

variable {msgMax : Nat} {l : Latch} (hv : rawValidate msgMax l = none)
include hv

/-- A stream mode that passes `Validate` reports no error. -/
theorem errOf_rawRun_stream (hm : ¬ field l.cmd 5 3 ≤ 1) (draw : Nat → Byte) :
    errOf (rawRun msgMax l draw) = none := by
  simp only [rawRun, hv, if_neg hm]
  split <;> rfl

/-- An encryption that passes `Validate` reports no error: NO has whole blocks (R273), and no other scheme fails. -/
theorem errOf_rawRun_enc (hl : LatchSized msgMax l) (hm : field l.cmd 5 3 ≤ 1) (ho : field l.cmd 1 0 = 1)
    (draw : Nat → Byte) : errOf (rawRun msgMax l draw) = none := by
  obtain ⟨-, -, hin, hwhole⟩ := rawValidate_none hv
  obtain ⟨-, -, hmsg⟩ := hl
  have hpad : rawPadding (field l.cmd 8 6) = .no → l.msg.length % rawBlockSize l.cmd = 0 := by
    intro hno
    rw [hmsg, Nat.min_eq_left hin]
    exact hwhole ho hm (rawPadding_eq_no.mp hno)
  simp only [rawRun, hv, if_pos hm, if_pos ho, applyPadding_eq_ok hpad, errOf]

/-- A decryption that passes `Validate` answers what the removal of its padding answers. -/
theorem rawRun_dec (hm : field l.cmd 5 3 ≤ 1) (ho : field l.cmd 1 0 = 2) (draw : Nat → Byte) :
    rawRun msgMax l draw =
      removePadding
        (modeDec (rawMode (field l.cmd 5 3)) (rawE l) (rawD l) (rawBlockSize l.cmd) l.msg (l.iv.take (rawBlockSize l.cmd)))
        (rawPadding (field l.cmd 8 6)) (rawBlockSize l.cmd) := by
  simp [rawRun, hv, hm, ho]

end Valid

/-- Settles O23: an error of `Validate` is the completion's; past it a stream mode and an encryption have none, and a
decryption in a block mode has the one of its padding's removal. -/
theorem errorPriority : Obligations.ErrorPriority := by
  intro s l hi hs
  refine ⟨_, engineStepRefinesRun s l hs, fun e he => ?_, fun hv e => ?_⟩
  · rw [rawRun_invalid he, complete_error, completeError_err]
  · rw [complete_err]
    obtain ⟨hop, hpad, -⟩ := rawValidate_none hv
    by_cases hm : field l.cmd 5 3 ≤ 1
    · rcases hop with ho | ho
      · simp [errOf_rawRun_enc hv (sized_of_inv hi hs) hm ho, ho]
      · rw [rawRun_dec hv hm ho, errOf_removePadding, rawPadding_verified (hpad hm)]
        simp [ho, hm]
    · simp [errOf_rawRun_stream hv hm, hm]

end Sys2Proof.Machine
end

section
/-! PROOFS. Reset and what a running command is exposed to (spec/70_reset_and_hazards.md R290 to R299): RST from any state,
writes and reads while BUSY, and that only completion and RST end a command. -/

namespace Sys2Proof.Machine

open Sys2Proof.Spec

/-! ## Reset (R290, R291) -/

theorem status_rst (s : State) : s.rst.status = 0 := by simp [State.status, errField]

/-- Settles O2: RST's step is the update itself, from every state. -/
theorem rstGivesResetState : Obligations.RstGivesResetState := fun _ _ h =>
  ⟨_, step_rst h, rfl, status_rst _, rfl, rfl, rfl, rfl, fun _ => rfl, readReg_reserved _ (.inl rfl), rfl⟩

/-- Settles O31: RST meets the invariant, and at reset it leaves everything that the invariant reads as it is. -/
theorem invariantAtReset : Obligations.InvariantAtReset :=
  inv_rst (s := State.reset) ⟨by decide, by decide, rfl⟩

/-! ## Accesses while BUSY (R296) -/

/-- Settles O13: while BUSY the port answers a write without making it. -/
theorem writesWhileBusyIgnored : Obligations.WritesWhileBusyIgnored := by
  intro s l hs hf
  refine ⟨fun addr off v h => ?_, fun addr off b h => ?_, fun a h => ?_⟩ <;> rw [hostAccess_noFault hf]
  · rw [portAccess_write32 h, answerWrite_busy hs]
    rfl
  · rw [portAccess_write8 h, answerWrite_busy hs]
    rfl
  · rw [portAccess_refused h]
    rfl

/-- No access, admitted or refused, changes the latch or the memory of a BUSY engine. -/
theorem portAccess_busy {s : State} {l : Latch} (hs : s.seq = .busy l) (a : Access) :
    (portAccess a s).seq = .busy l ∧ (portAccess a s).mem = s.mem := by
  rcases portAccess_cases a s with h | ⟨v, h⟩ | ⟨hidle, -⟩
  · rw [h]
    exact ⟨hs, rfl⟩
  · rw [h]
    exact ⟨hs, rfl⟩
  · cases hidle.symm.trans hs

theorem hostAccess_eq_next {s t : State} {a : Access} (h : hostAccess a s = .next t) : t = portAccess a s := by
  unfold hostAccess at h
  split at h <;> cases h
  rfl

/-! ## The end of a command (R299) -/

/-- From BUSY the engine's turn is a completion. -/
theorem engineStep_busy_completes {s : State} {l : Latch} (hs : s.seq = .busy l) :
    ∃ t, engineStep s = .next t ∧ t.seq = .idle ∧ t.done = true :=
  ⟨_, engineStep_busy hs, by rw [complete_eq], by rw [complete_eq]⟩

/-- Settles O20: of the three events of a step, the engine's turn completes, an access changes nothing, and RST is the
third. -/
theorem everyAcceptedCommandCompletes : Obligations.EveryAcceptedCommandCompletes := by
  refine ⟨fun s l => engineStep_busy_completes, fun s t l a hs h => ?_, fun s t l hs h => ?_⟩
  · rw [hostAccess_eq_next h]
    exact portAccess_busy hs a
  · rcases step_cases h with ⟨-, he⟩ | ⟨a, rest, -, -, rfl⟩ | ⟨rest, hin, -⟩
    · obtain ⟨u, hu, -, hdone⟩ := engineStep_busy_completes (s := { s with inputs := s.inputs.tail }) hs
      cases hu.symm.trans he
      exact .inr (.inl hdone)
    · exact .inl (portAccess_busy (s := { s with inputs := rest }) hs a).1
    · exact .inr (.inr ⟨rest, hin⟩)

/-! ## Reads while BUSY (R297) -/

/-- BUSY stands alone in STATUS. -/
theorem status_busy {s : State} (hi : s.Inv) (hb : s.isBusy = true) : s.status = 1 := by
  obtain ⟨-, -, -, -, -, hdone, herr, -⟩ := hi
  apply BitVec.eq_of_toNat_eq
  rw [status_toNat, hb, hdone hb, herr (hdone hb)]
  rfl

theorem readReg_outlen_busy {s : State} (hb : s.isBusy = true) : readReg s 0x14 = 0 := by
  simp [readReg, hb]

/-- While BUSY everything outside KEY, IV and IN reads 0, OUT among it. -/
theorem readByte_busy_notInput {s : State} (hb : s.isBusy = true) {off : Nat} (h : isInput s.config off = false) :
    readByte s off = 0 := by
  simp [readByte, h, hb]

/-- The host reads the latched bytes where they lie, as long as the inputs stand as they were latched. -/
theorem readByte_latchOf (s : State) (cmd : Word32) :
    (∀ i < (latchOf s cmd).key.length, readByte s (0x100 + i) = (latchOf s cmd).key.getD i 0) ∧
    (∀ i < (latchOf s cmd).iv.length, readByte s (0x200 + i) = (latchOf s cmd).iv.getD i 0) ∧
    (∀ i < (latchOf s cmd).msg.length, readByte s (0x10000 + i) = (latchOf s cmd).msg.getD i 0) := by
  refine ⟨fun i hi => (memBytes_getD_input ?_ i hi).symm, fun i hi => (memBytes_getD_input ?_ i hi).symm,
    fun i hi => (memBytes_getD_input ?_ i hi).symm⟩
  · intro i hi
    rw [isInput_iff]
    unfold keyBase
    unfold keySize at hi
    omega
  · intro i hi
    rw [isInput_iff]
    unfold ivBase
    unfold ivSize at hi
    omega
  · intro i hi
    rw [isInput_iff]
    unfold inBase
    omega

/-- Settles O14: the registers by their branches, the inputs as the latch holds them, and 0 elsewhere. -/
theorem readsWhileBusy : Obligations.ReadsWhileBusy := by
  intro s l hi hs
  have hb := isBusy_of_busy hs
  have hreg : ∀ off ≤ 0xFF, readWord s off = readReg s off := fun off h => readWord_reg s (Nat.lt_succ_of_le h)
  have hl := latch_of_inv hi hs
  obtain ⟨hkey, hiv, hmsg⟩ := readByte_latchOf s l.cmd
  rw [← hl] at hkey hiv hmsg
  refine ⟨(hreg 0x04 (by decide)).trans (status_busy hi hb), (hreg 0x14 (by decide)).trans (readReg_outlen_busy hb),
    fun off h _ => readByte_busy_notInput hb (isInput_of_outWindow hi.1 h),
    (hreg 0x08 (by decide)).trans (congrArg Latch.keylen hl).symm,
    (hreg 0x0C (by decide)).trans (congrArg Latch.ivlen hl).symm,
    (hreg 0x10 (by decide)).trans (congrArg Latch.inlen hl).symm,
    hkey, hiv, hmsg, fun off => readByte_input, (hreg 0 (by decide)).trans (readReg_reserved s (.inl rfl)),
    fun off hlo hhi => (hreg off hhi).trans (readReg_reserved s (.inr hlo)), fun off => readByte_busy_notInput hb⟩

end Sys2Proof.Machine
end

section
/-! PROOFS. A message split over two commands (spec/70_reset_and_hazards.md R298 item 4): every mode over joined data, the
register that a mode hands over as what the next IV is made from, and the ten chaining commands through the whole machine. -/

namespace Sys2Proof.Machine

open Sys2Proof.Spec

/-! ## Every mode, both ways, over joined data (44_modes.md R202 to R209) -/

/-- `ModeEnc` or `ModeDec` by the operation. -/
def modeRun (op : Op) (m : Mode) (f : BlockFns) (bs : Nat) (data iv : Bytes) : Bytes :=
  match op with
  | .enc => modeEnc m f.enc bs data iv
  | .dec => modeDec m f.enc f.dec bs data iv

/-- The following value of a mode's chaining register, from its value and the block; ECB keeps none. -/
def modeNext (E : Bytes → Bytes) : Mode → Op → (X P : Bytes) → Bytes
  | .ecb, _, X, _ => X
  | .cbc, .enc, X, P => E (xorBytes P X)
  | .cbc, .dec, _, P => P
  | .cfb, op, X, P => nextChain E .cfb op X P
  | .ofb, op, X, P => nextChain E .ofb op X P
  | .ctr, op, X, P => nextChain E .ctr op X P

theorem modeRun_stream (op : Op) (m : StreamMode) (f : BlockFns) (bs : Nat) (data iv : Bytes) :
    modeRun op m.toMode f bs data iv = streamBlocks f.enc (nextChain f.enc m op) iv (blocks bs data) := by
  cases op with
  | enc => exact modeEnc_stream m _ _ _ _
  | dec => exact modeDec_stream m _ _ _ _ _

theorem modeRun_length {op : Op} {m : Mode} {f : BlockFns} {bs : Nat} {data iv : Bytes}
    (hE : ∀ b, (f.enc b).length = bs) (hD : ∀ b, (f.dec b).length = bs) (hiv : m = .ecb ∨ iv.length = bs)
    (hdata : data.length % bs = 0) : (modeRun op m f bs data iv).length = data.length := by
  have hwhole := Nat.div_mul_cancel (Nat.dvd_of_mod_eq_zero hdata)
  cases op with
  | enc => exact (modeEnc_length (fun b _ => hE b) m data hiv).trans hwhole
  | dec => exact (modeDec_length (fun b _ => hE b) (fun b _ => hD b) m data hiv).trans hwhole

/-- Behind whole blocks a mode continues from the register that they leave. -/
theorem modeRun_append {bs : Nat} (hbs : 1 ≤ bs) (op : Op) (m : Mode) (f : BlockFns) {d1 : Bytes}
    (h1 : d1.length % bs = 0) (d2 iv : Bytes) :
    modeRun op m f bs (d1 ++ d2) iv =
      modeRun op m f bs d1 iv ++ modeRun op m f bs d2 ((blocks bs d1).foldl (modeNext f.enc m op) iv) := by
  have hblocks := blocks_append hbs (d2 := d2) h1
  have stream : ∀ m : StreamMode, modeRun op m.toMode f bs (d1 ++ d2) iv = modeRun op m.toMode f bs d1 iv ++
      modeRun op m.toMode f bs d2 ((blocks bs d1).foldl (nextChain f.enc m op) iv) := fun m => by
    simp only [modeRun_stream, hblocks, streamBlocks_append]
  cases m with
  | ecb => cases op <;> simp only [modeRun, modeEnc, modeDec, hblocks, flatMap_append']
  | cbc =>
    cases op with
    | enc => exact (congrArg (cbcEnc f.enc iv) hblocks).trans (cbcEnc_append f.enc _ _ iv)
    | dec => exact (congrArg (cbcDec f.dec iv) hblocks).trans (cbcDec_append f.dec _ _ iv)
  | cfb => exact stream .cfb
  | ofb => exact stream .ofb
  | ctr => exact stream .ctr

/-! ## What the register holds behind whole blocks (R298 item 4) -/

/-- The next IV of R298 item 4, by operation and mode. -/
def handOver (op : Op) (m : Mode) (bs : Nat) (msg out iv : Bytes) : Bytes :=
  match m, op with
  | .ecb, _ => iv
  | .cbc, .enc | .cfb, .enc => lastBlock bs out
  | .cbc, .dec | .cfb, .dec => lastBlock bs msg
  | .ofb, _ => xorBytes (lastBlock bs out) (lastBlock bs msg)
  | .ctr, _ => Nat.iterate incBlock (msg.length / bs) iv

theorem lastBlock_append {bs : Nat} (x : Bytes) {b : Bytes} (hb : b.length = bs) : lastBlock bs (x ++ b) = b := by
  rw [lastBlock, List.length_append, hb, Nat.add_sub_cancel, List.drop_left]

/-- Whole blocks, if any, end in a block. -/
theorem exists_append_lastBlock {bs : Nat} {d : Bytes} (h : d.length % bs = 0) (hd : d ≠ []) :
    ∃ w P : Bytes, d = w ++ P ∧ w.length % bs = 0 ∧ P.length = bs := by
  have hle : bs ≤ d.length := Nat.le_of_dvd (List.length_pos_iff.mpr hd) (Nat.dvd_of_mod_eq_zero h)
  refine ⟨d.take (d.length - bs), d.drop (d.length - bs), (List.take_append_drop _ _).symm, ?_, ?_⟩
  · rw [List.length_take, Nat.min_eq_left (Nat.sub_le _ _), ← Nat.mod_eq_sub_mod hle, h]
  · rw [List.length_drop, Nat.sub_sub_self hle]

theorem blocks_singleton {bs : Nat} (hbs : 1 ≤ bs) {P : Bytes} (hP : P.length = bs) : blocks bs P = [P] := by
  rw [← List.append_nil P, blocks_cons hbs hP, blocks_short (data := []) hbs, List.append_nil]

/-- The register behind one block is made of the block and its output, in every chaining mode but CTR. -/
theorem modeNext_eq_handOver {bs : Nat} (hbs : 1 ≤ bs) {f : BlockFns} (hE : ∀ b, (f.enc b).length = bs) (op : Op)
    {m : Mode} (hecb : m ≠ .ecb) (hctr : m ≠ .ctr) (w out X iv : Bytes) {P : Bytes} (hP : P.length = bs) :
    modeNext f.enc m op X P = handOver op m bs (w ++ P) (out ++ modeRun op m f bs P X) iv := by
  have hone := blocks_singleton hbs hP
  have hxor : (xorBytes (f.enc X) P).length = bs := by rw [xorBytes_length, hE, hP, Nat.min_self]
  cases m with
  | ecb => exact absurd rfl hecb
  | cbc =>
    cases op with
    | enc => simp only [modeNext, handOver, modeRun, modeEnc, hone, cbcEnc, List.append_nil, lastBlock_append _ (hE _)]
    | dec => exact (lastBlock_append w hP).symm
  | cfb =>
    cases op with
    | enc => simp only [modeNext, nextChain, handOver, modeRun, modeEnc, hone, cfbEnc, List.append_nil,
        lastBlock_append _ hxor]
    | dec => exact (lastBlock_append w hP).symm
  | ofb =>
    have hout : modeRun op .ofb f bs P X = xorBytes (f.enc X) P := by
      cases op <;> simp only [modeRun, modeEnc, modeDec, hone, ofb, List.append_nil]
    rw [hout, handOver, lastBlock_append _ hxor, lastBlock_append _ hP, xorBytes_cancel_right (by rw [hE, hP])]
    rfl
  | ctr => exact absurd rfl hctr

theorem foldl_modeNext_ecb (E : Bytes → Bytes) (op : Op) (l : List Bytes) (X : Bytes) :
    l.foldl (modeNext E .ecb op) X = X := by
  induction l with
  | nil => rfl
  | cons P l ih => exact ih

theorem foldl_modeNext_ctr (E : Bytes → Bytes) (op : Op) (l : List Bytes) (X : Bytes) :
    l.foldl (modeNext E .ctr op) X = Nat.iterate incBlock l.length X := List.foldl_const incBlock X l

/-- The register behind whole blocks is the next IV that the host writes. Without a block the rule names no last one, so only
CTR may then continue. -/
theorem foldl_modeNext_eq_handOver {bs : Nat} (hbs : 1 ≤ bs) {f : BlockFns} (hE : ∀ b, (f.enc b).length = bs) (op : Op)
    (m : Mode) {d iv : Bytes} (hd : d.length % bs = 0) (hne : m = .ctr ∨ d ≠ []) :
    (blocks bs d).foldl (modeNext f.enc m op) iv = handOver op m bs d (modeRun op m f bs d iv) iv := by
  by_cases hctr : m = .ctr
  · rw [hctr, foldl_modeNext_ctr, blocks_length, handOver]
  by_cases hecb : m = .ecb
  · rw [hecb, foldl_modeNext_ecb, handOver]
  · obtain ⟨w, P, rfl, hw, hP⟩ := exists_append_lastBlock hd (hne.resolve_left hctr)
    rw [blocks_append hbs hw, blocks_singleton hbs hP, List.foldl_append, modeRun_append hbs op m f hw P iv]
    exact modeNext_eq_handOver hbs hE op hecb hctr w _ _ _ hP

/-- Two parts, the first of whole blocks, under the next IV give what the whole gives. -/
theorem modeRun_chain {bs : Nat} (hbs : 1 ≤ bs) {f : BlockFns} (hE : ∀ b, (f.enc b).length = bs) (op : Op) (m : Mode)
    {d1 : Bytes} (h1 : d1.length % bs = 0) (hne : m = .ctr ∨ d1 ≠ []) (d2 iv : Bytes) :
    modeRun op m f bs (d1 ++ d2) iv =
      modeRun op m f bs d1 iv ++ modeRun op m f bs d2 (handOver op m bs d1 (modeRun op m f bs d1 iv) iv) := by
  rw [modeRun_append hbs op m f h1, foldl_modeNext_eq_handOver hbs hE op m h1 hne]

theorem lastBlock_eq_take {bs N : Nat} {x : Bytes} (h : x.length = (N + 1) * bs) :
    (x.drop (N * bs)).take bs = lastBlock bs x := by
  have hlast : x.length - bs = N * bs := by rw [h, Nat.succ_mul, Nat.add_sub_cancel]
  rw [lastBlock, hlast, List.take_of_length_le]
  rw [List.length_drop, h, Nat.succ_mul, Nat.add_sub_cancel_left]

/-- Encryption on two parts, the first of `N + 1` blocks. -/
theorem modeEnc_chain {E : Bytes → Bytes} {bs N : Nat} (hbs : 1 ≤ bs) (hE : ∀ b : Bytes, (E b).length = bs)
    {d1 iv : Bytes} (hiv : iv.length = bs) (h1 : d1.length = (N + 1) * bs) (m : Mode) (d2 : Bytes) :
    (modeEnc m E bs d1 iv).length = (N + 1) * bs ∧
      modeEnc m E bs (d1 ++ d2) iv =
        modeEnc m E bs d1 iv ++ modeEnc m E bs d2 (handOver .enc m bs d1 (modeEnc m E bs d1 iv) iv) := by
  have hwhole : d1.length % bs = 0 := by rw [h1, Nat.mul_mod_left]
  have hne : d1 ≠ [] := List.length_pos_iff.mp (h1 ▸ Nat.mul_pos N.succ_pos hbs)
  exact ⟨(modeRun_length (op := .enc) (f := ⟨E, E⟩) hE hE (.inr hiv) hwhole).trans h1,
    modeRun_chain (f := ⟨E, E⟩) hbs hE .enc m hwhole (.inr hne) d2 iv⟩

/-! ## The rule's parts on a command's request -/

theorem blockSizeOf_eq (i : Instr) : blockSizeOf i = (requestOf i).cipher.blockSize := by
  cases i with
  | aEncEcb | aEncCbc | aDecEcb | aDecCbc => rfl
  | _ => rw [blockSizeOf, ← wselWidth_eq]; rfl

/-- The mode of a command and the mode of its first part: PAD = NO in CBC, the same in a stream mode (R298 item 4). -/
inductive Chains : ModeArgs → ModeArgs → Prop
  | cbc (p : PadField) : Chains (.block .cbc p) (.block .cbc (.scheme .no))
  | stream (m : StreamMode) : Chains (.stream m) (.stream m)

/-- The first part differs from the command in the mode's PAD at most. -/
theorem request_of_firstPart {i i1 : Instr} (h : firstPart i = some i1) :
    ∃ mode1, requestOf i1 = { requestOf i with mode := mode1 } ∧ Chains (requestOf i).mode mode1 := by
  cases i with
  | aEncCbc | aDecCbc | bEncCbc | bDecCbc => cases h; exact ⟨_, rfl, .cbc _⟩
  | bEncCfb | bEncOfb | bEncCtr | bDecCfb | bDecOfb | bDecCtr => cases h; exact ⟨_, rfl, .stream _⟩
  | _ => cases h

/-- The mode of 44_modes.md that a command's mode operand names. -/
def ModeArgs.toMode : ModeArgs → Mode
  | .block b _ => b.toMode
  | .stream m => m.toMode

theorem nextIv_eq_handOver (i : Instr) (msg out iv : Bytes) :
    nextIv i msg out iv =
      handOver (requestOf i).op (requestOf i).mode.toMode (requestOf i).cipher.blockSize msg out iv := by
  rw [← blockSizeOf_eq]
  cases i <;> rfl

theorem needsLastBlock_of_request {i : Instr} {p : Padding} (hop : (requestOf i).op = .dec)
    (hm : (requestOf i).mode = .block .cbc (.scheme p)) (hp : p = .pkcs5 ∨ p = .bit) : needsLastBlock i = true := by
  cases i with
  | aDecCbc | bDecCbc => cases hm; exact decide_eq_true hp
  | aEncEcb | aEncCbc | bEncEcb | bEncCbc => cases hop
  | _ => cases hm

/-- Without a block there is no last block; only the counter goes on from none. -/
theorem handOver_nil {mode mode1 : ModeArgs} (h : Chains mode mode1) (hm : mode.toMode ≠ .ctr) (op : Op) (bs : Nat)
    (iv : Bytes) : handOver op mode.toMode bs [] [] iv = [] := by
  cases h with
  | cbc p => cases op <;> exact List.drop_nil
  | stream m =>
    cases m with
    | cfb => cases op <;> exact List.drop_nil
    | ofb => simp [StreamMode.toMode, ModeArgs.toMode, handOver, lastBlock]
    | ctr => exact absurd rfl hm

/-! ## `Run` on two parts -/

/-- A stream mode's result by its operation (44_modes.md R211). -/
theorem runStream_eq (op : Op) (m : Mode) (f : BlockFns) (bs : Nat) (msg iv : Bytes) :
    runStream op m f bs msg iv = (modeRun op m f bs (zeroExtend bs msg) iv).take msg.length := by
  cases op <;> rfl

theorem zeroExtend_whole {bs : Nat} {m : Bytes} (h : m.length % bs = 0) : zeroExtend bs m = m := by
  simp [zeroExtend, zeros, h]

/-- Steps 8 and 9 of `Validate` ask for whole blocks only, so whole blocks in front change none of its answers (R271). -/
theorem validate_congr {q : Request} {msgMax : Nat} {l l' : Latch} (hkey : l'.keylen = l.keylen)
    (hiv : l'.ivlen = l.ivlen) (hl : l.inlen.toNat ≤ msgMax) (hl' : l'.inlen.toNat ≤ msgMax)
    (hmod : l.inlen.toNat % q.cipher.blockSize = l'.inlen.toNat % q.cipher.blockSize) :
    validate q msgMax l = validate q msgMax l' := by
  have hc : q.ciphertextLengthOk l.inlen.toNat = q.ciphertextLengthOk l'.inlen.toNat := by
    unfold Request.ciphertextLengthOk
    rw [hmod]
  have hn : q.noPaddingOk l.inlen.toNat = q.noPaddingOk l'.inlen.toNat := by
    unfold Request.noPaddingOk
    rw [hmod]
  simp only [validate, hkey, hiv, Nat.not_lt.mpr hl, Nat.not_lt.mpr hl', if_false, hc, hn]

/-- A stream mode on two parts (44_modes.md R211). -/
theorem runStream_chain {bs : Nat} (hbs : 1 ≤ bs) {f : BlockFns} (hE : ∀ b, (f.enc b).length = bs)
    (hD : ∀ b, (f.dec b).length = bs) (op : Op) (m : StreamMode) {m1 iv : Bytes} (h1 : m1.length % bs = 0)
    (hiv : iv.length = bs) (hne : m.toMode = .ctr ∨ m1 ≠ []) (m2 : Bytes) :
    runStream op m.toMode f bs (m1 ++ m2) iv = modeRun op m.toMode f bs m1 iv ++
      runStream op m.toMode f bs m2 (handOver op m.toMode bs m1 (modeRun op m.toMode f bs m1 iv) iv) := by
  have hlen := modeRun_length (op := op) hE hD (.inr hiv) h1 (m := m.toMode)
  rw [runStream_eq, runStream_eq, zeroExtend_append m1 m2 h1, modeRun_chain hbs hE op _ h1 hne, List.length_append,
    ← hlen, List.take_length_add_append]

/-- A block mode on two parts: the pad stands at the end of the rest (44_modes.md R212). -/
theorem runBlock_chain {bs : Nat} (hbs : 1 ≤ bs) {f : BlockFns} (hE : ∀ b, (f.enc b).length = bs)
    (hD : ∀ b, (f.dec b).length = bs) (op : Op) (m : Mode) (p : Padding) {m1 m2 iv iv2 : Bytes}
    (h1 : m1.length % bs = 0) (hne : m1 ≠ [])
    (hnext : iv2 = handOver op m bs m1 (modeRun op m f bs m1 iv) iv) (hiv2 : iv2.length = bs)
    (h2 : op = .dec → m2.length % bs = 0) (hpad : op = .dec → p = .pkcs5 ∨ p = .bit → m2 ≠ []) (draw : Nat → Byte) :
    runBlock op m p f bs (m1 ++ m2) iv draw = (runBlock op m p f bs m2 iv2 draw).map (modeRun op m f bs m1 iv ++ ·) := by
  have chain := fun d2 => modeRun_chain hbs hE op m h1 (.inr hne) d2 iv
  rw [← hnext] at chain
  cases op with
  | enc =>
    simp only [runBlock, applyPadding_append m1 m2 p draw h1]
    cases applyPadding m2 p bs draw with
    | error e => rfl
    | ok padded => exact congrArg Except.ok (chain padded)
  | dec =>
    have hlen := modeRun_length (op := .dec) (m := m) hE hD (.inr hiv2) (h2 rfl)
    refine (congrArg (removePadding · p bs) (chain m2)).trans (removePadding_append hbs _ _ p fun hp => ?_)
    rw [hlen]
    exact Nat.le_of_dvd (List.length_pos_iff.mpr (hpad rfl hp)) (Nat.dvd_of_mod_eq_zero (h2 rfl))

/-- A message split over two commands under one key: `l` latches the whole, `l1` the first part, of whole blocks and under the
same IV, and `l2` the rest under an IV of the same length. -/
structure SplitLatch (msgMax bs : Nat) (l l1 l2 : Latch) : Prop where
  sized : LatchSized msgMax l
  sized1 : LatchSized msgMax l1
  sized2 : LatchSized msgMax l2
  key1 : l1.key = l.key
  key2 : l2.key = l.key
  keylen2 : l2.keylen = l.keylen
  iv1 : l1.iv = l.iv
  ivlen1 : l1.ivlen = l.ivlen
  ivlen2 : l2.ivlen = l.ivlen
  msg : l.msg = l1.msg ++ l2.msg
  inlen : l.inlen.toNat = l1.inlen.toNat + l2.inlen.toNat
  fits : l.inlen.toNat ≤ msgMax
  whole : l1.msg.length % bs = 0

theorem Chains.ivLength {mode mode1 : ModeArgs} (h : Chains mode mode1) {n bs : Nat}
    (hiv : mode1.ivLengthOk n bs = true) : n = bs := by
  cases h with
  | cbc p => exact of_decide_eq_true hiv
  | stream m => exact of_decide_eq_true hiv

section Split

variable {q : Request} {mode1 : ModeArgs} {msgMax : Nat} {l l1 l2 : Latch} {draw : Nat → Byte} {out1 : Bytes}
  (hs : SplitLatch msgMax q.cipher.blockSize l l1 l2) (h1 : run { q with mode := mode1 } msgMax l1 draw = .ok out1)
include hs h1

/-- Whole blocks in front change no answer of `Validate`. -/
theorem SplitLatch.validate_eq : validate q msgMax l = validate q msgMax l2 := by
  have hmsg := msg_length_of_validate hs.sized1 (validate_of_run_ok h1)
  have hin := hs.inlen
  have hfits := hs.fits
  refine validate_congr hs.keylen2 hs.ivlen2 hfits (by omega) ?_
  rw [hin, ← hmsg, Nat.add_mod, hs.whole, Nat.zero_add, Nat.mod_mod]

variable (hc : Chains q.mode mode1)
include hc

/-- A chaining mode has passed `Validate` with an IV of one block, so the latched IVs are blocks (R265). -/
theorem SplitLatch.iv_length : l.iv.length = q.cipher.blockSize ∧ l2.iv.length = q.cipher.blockSize := by
  obtain ⟨hw, -, -, hiv, -, -, -⟩ := validate_none (validate_of_run_ok h1)
  obtain ⟨-, h64⟩ := blockSize_bounds hw
  obtain ⟨-, hlen, -⟩ := hs.sized
  obtain ⟨-, hlen2, -⟩ := hs.sized2
  rw [hlen, hlen2, hs.ivlen2, ← hs.ivlen1, hc.ivLength hiv, Nat.min_eq_left h64]
  exact ⟨rfl, rfl⟩

/-- The first part's output is the mode's on it: whole blocks get no pad and no extension. -/
theorem SplitLatch.run_firstPart :
    out1 = modeRun q.op q.mode.toMode (q.cipher.blockFns l.key) q.cipher.blockSize l1.msg l.iv := by
  have hv := validate_of_run_ok h1
  obtain ⟨hiv, -⟩ := hs.iv_length h1 hc
  have hf := blockFns_length q.cipher l.key
  have htake : l1.iv.take q.cipher.blockSize = l.iv := by rw [hs.iv1, ← hiv, List.take_length]
  generalize hm : q.mode = mode at hc
  cases hc with
  | cbc p =>
    rw [run_block hv rfl, htake, hs.key1] at h1
    cases hop : q.op with
    | enc =>
      simp only [hop, runBlock, applyPadding_no_whole hs.whole] at h1
      exact (Except.ok.inj h1).symm
    | dec =>
      simp only [hop, runBlock, removePadding] at h1
      exact (Except.ok.inj h1).symm
  | stream m =>
    rw [run_stream hv rfl, htake, hs.key1, runStream_eq, zeroExtend_whole hs.whole] at h1
    rw [← Except.ok.inj h1, List.take_of_length_le]
    · rfl
    · exact (modeRun_length (fun b => (hf b).1) (fun b => (hf b).2) (.inr hiv) hs.whole).le

/-- An empty first part leaves no last block to make the next IV from, except in CTR. -/
theorem SplitLatch.ctr_or_ne_nil
    (hnext : l2.iv = handOver q.op q.mode.toMode q.cipher.blockSize l1.msg out1 l.iv) :
    q.mode.toMode = .ctr ∨ l1.msg ≠ [] := by
  by_contra h
  obtain ⟨hctr, hne⟩ := not_or.mp h
  have hnil := not_not.mp hne
  obtain ⟨hw, -⟩ := validate_none (validate_of_run_ok h1)
  obtain ⟨hbs, -⟩ := blockSize_bounds hw
  obtain ⟨hiv, hiv2⟩ := hs.iv_length h1 hc
  have hf := blockFns_length q.cipher l.key
  have hout : out1 = [] := by
    apply List.eq_nil_of_length_eq_zero
    rw [hs.run_firstPart h1 hc, modeRun_length (fun b => (hf b).1) (fun b => (hf b).2) (.inr hiv) hs.whole, hnil]
    rfl
  rw [hnext, hnil, hout, handOver_nil hc hctr] at hiv2
  exact absurd hiv2 (Nat.ne_of_lt hbs)

/-- The whole's result is the first part's output and then the rest's result, with the same error. -/
theorem SplitLatch.run_chain
    (hnext : l2.iv = handOver q.op q.mode.toMode q.cipher.blockSize l1.msg out1 l.iv)
    (hpad : ∀ p, q.op = .dec → q.mode = .block .cbc (.scheme p) → p = .pkcs5 ∨ p = .bit → l2.msg ≠ [])
    (draw' : Nat → Byte) : run q msgMax l draw' = (run q msgMax l2 draw').map (out1 ++ ·) := by
  obtain ⟨hw, -⟩ := validate_none (validate_of_run_ok h1)
  obtain ⟨hbs, -⟩ := blockSize_bounds hw
  obtain ⟨hiv, hiv2⟩ := hs.iv_length h1 hc
  have hout := hs.run_firstPart h1 hc
  have hval := hs.validate_eq h1
  have hE := fun b => (blockFns_length q.cipher l.key b).1
  have hD := fun b => (blockFns_length q.cipher l.key b).2
  have hne := hs.ctr_or_ne_nil h1 hc hnext
  cases hv : validate q msgMax l2 with
  | some e => simp only [run, hval, hv, Except.map]
  | none =>
    have htake : l.iv.take q.cipher.blockSize = l.iv := by rw [← hiv, List.take_length]
    have htake2 : l2.iv.take q.cipher.blockSize = l2.iv := by rw [← hiv2, List.take_length]
    rw [hout] at hnext ⊢
    generalize hm : q.mode = mode at hc hpad hnext hne ⊢
    cases hc with
    | stream m =>
      rw [run_stream (hval.trans hv) hm, run_stream hv hm, htake, htake2, hs.key2, hs.msg, hnext]
      exact congrArg Except.ok (runStream_chain hbs hE hD q.op m hs.whole hiv hne l2.msg)
    | cbc p =>
      obtain ⟨-, hp, -, -, -, hcipher, -⟩ := validate_none hv
      rw [hm] at hp
      cases p with
      | unrecognized c => cases hp
      | scheme p =>
        rw [run_block (hval.trans hv) hm, run_block hv hm, htake, htake2, hs.key2, hs.msg]
        refine runBlock_chain hbs hE hD q.op _ p hs.whole (hne.resolve_left nofun) hnext hiv2 (fun hop => ?_)
          (fun hop => hpad p hop rfl) draw'
        rw [msg_length_of_validate hs.sized2 hv]
        simpa [Request.ciphertextLengthOk, hop, hm] using hcipher

end Split

/-! ## Through the whole machine -/

/-- The output that a host reads after a command is what `Run` gave. -/
theorem output_complete_run {s : State} {l : Latch} (hi : s.Inv) (hs : s.seq = .busy l) (q : Request) (draw : Nat → Byte) :
    output (s.complete (run q s.config.msgMax l draw)) = outBytesOf (run q s.config.msgMax l draw) := by
  have hl := sized_of_inv hi hs
  obtain ⟨hwf, hmem, -⟩ := hi
  exact output_complete hmem hwf (outBytesOf_run_length hl q draw)

theorem errOf_map (f : Bytes → Bytes) (r : Except CmdError Bytes) : errOf (r.map f) = errOf r := by cases r <;> rfl

theorem outBytesOf_map (f : Bytes → Bytes) {r : Except CmdError Bytes} (h : errOf r = none) :
    outBytesOf (r.map f) = f (outBytesOf r) := by
  cases r with
  | ok out => rfl
  | error e => cases h

/-- When the rest's `Run` goes on where `out1` ends, so does its completion. -/
theorem exec_chain {i : Instr} {s s2 : State} {l l2 : Latch} {out1 : Bytes} (hi : s.Inv) (hi2 : s2.Inv)
    (hs : s.seq = .busy l) (hs2 : s2.seq = .busy l2) (hconfig : s2.config = s.config)
    (hdraw : Config.entropy s2.serial = Config.entropy s.serial)
    (hrun : run (requestOf i) s.config.msgMax l (Config.entropy s.serial) =
      (run (requestOf i) s.config.msgMax l2 (Config.entropy s.serial)).map (out1 ++ ·)) :
    ∃ t t2, exec i s = .next t ∧ exec i s2 = .next t2 ∧ t.err = t2.err ∧
      (t.err = none → output t = out1 ++ output t2) := by
  refine ⟨_, _, exec_busy i hs, exec_busy i hs2, ?_, fun h => ?_⟩
  · rw [complete_err, complete_err, hconfig, hdraw, hrun, errOf_map]
  · rw [complete_err, hrun, errOf_map] at h
    rw [output_complete_run hi hs, output_complete_run hi2 hs2, hconfig, hdraw, hrun, outBytesOf_map _ h]

/-- Settles O60: in every mode the register behind the first part is the next IV, and a command is its mode between a padding
or an extension that only the end of the message has. -/
theorem chainingAcrossCommands : Obligations.ChainingAcrossCommands := by
  constructor
  · intro E bs N hbs hE d1 d2 iv hiv h1 last enc
    have chain := fun m => modeEnc_chain hbs hE hiv h1 m d2
    have hlast : ∀ x : Bytes, x.length = (N + 1) * bs → lastBlock bs x = last x := fun x h => (lastBlock_eq_take h).symm
    refine ⟨?_, ?_, ?_, ?_⟩
    · rw [(chain .cbc).2, handOver, hlast _ (chain .cbc).1]
    · rw [(chain .cfb).2, handOver, hlast _ (chain .cfb).1]
    · rw [(chain .ofb).2, handOver, hlast _ (chain .ofb).1, hlast d1 h1]
    · rw [(chain .ctr).2, handOver, h1, Nat.mul_div_cancel _ hbs]
  · intro i i1 s s1 s2 t1 l l1 l2 hfirst hi hi1 hi2 hs hs1 hs2 hconfig1 hconfig2 hkey1 hkeylen1 hkey2 hkeylen2 hiv1 hivlen1
      hivlen2 hmsg hinlen hfits hwhole hpad hexec herr hnext hdraw
    obtain ⟨mode1, hreq1, hc⟩ := request_of_firstPart hfirst
    have hl1 := sized_of_inv hi1 hs1
    have hl2 := sized_of_inv hi2 hs2
    have hout1 := output_complete_run hi1 hs1 (requestOf i1) (Config.entropy s1.serial)
    cases (exec_busy i1 hs1).symm.trans hexec
    obtain ⟨out1, hrun1⟩ := eq_ok_of_complete_err herr
    rw [hout1, hrun1, outBytesOf, nextIv_eq_handOver] at hnext
    rw [hconfig1] at hl1 hrun1
    rw [hconfig2] at hl2
    rw [hreq1] at hrun1
    rw [blockSizeOf_eq] at hwhole
    have split : SplitLatch s.config.msgMax (requestOf i).cipher.blockSize l l1 l2 :=
      { sized := sized_of_inv hi hs, sized1 := hl1, sized2 := hl2, key1 := hkey1, key2 := hkey2, keylen2 := hkeylen2,
        iv1 := hiv1, ivlen1 := hivlen1, ivlen2 := hivlen2, msg := hmsg, inlen := hinlen, fits := hfits, whole := hwhole }
    have hrun := split.run_chain hrun1 hc hnext (fun p hop hm hp => hpad (needsLastBlock_of_request hop hm hp))
      (Config.entropy s.serial)
    rw [hout1, hreq1, hconfig1, hrun1, outBytesOf]
    exact exec_chain hi hi2 hs hs2 hconfig2 (funext hdraw) hrun

end Sys2Proof.Machine
end
